-- ==== Sys2Proof/Word.lean ====
section
/-! DEFINITION. The fixed widths of the hardware (00_scope.md R7 to R9) and the message: a pair of 64-bit words. -/

namespace Sys2Proof

/-- A `data` or `header` word: `WORD_W` is fixed at 64 (R7, R110). -/
abbrev Word64 := BitVec 64

/-- The value of a 32-bit control register (R30). -/
abbrev Word32 := BitVec 32

/-- An endpoint identifier, 0 to 255: `EP_ID_W` is fixed at 8 (R7). -/
abbrev Ident := BitVec 8

/-- The opaque name of an endpoint on the Endpoint port. Its width `EP_HANDLE_W` is an OPEN parameter of
1 to 64 bits (R7, D7), so a handle is held in 64 bits and `State.Inv` says that it fits the parameter. -/
abbrev Handle := BitVec 64

/-- One mailbox message: a data word and a header word (R110; the source's glossary: Frame). -/
structure Frame where
  data   : Word64
  header : Word64
  deriving DecidableEq, Repr

end Sys2Proof
end

