-- ==== Sys2Proof/Config.lean ====
section
/-! DEFINITION. The parameters of 00_scope.md R7, the seven registers of the Mailbox Register Set, and the one
source of free values. Parameters are plain data carried by the state and changed by no step, so a statement
about every state is a statement about every legal choice of the OPEN ones. -/

namespace Sys2Proof

/-- The parameters of R7. `sendPollBound = none` is `INF`. `pumpStopOnIdle` is the optional switch
`PUMP_STOP_ON_IDLE` of R227 and D29. `openForm` says which of the two forms of the environment (R245) answers the
Register Interface: any responder (`true`) or the reference mailbox (`false`). `strictHost` says what becomes of a word that
HOST must not offer: refused, as R349 reads it (`true`), or run as the core runs it (R22, R126, R127, R174; `false`). That
there is a choice is the model's own (notes/assumptions/36.md). -/
structure Params where
  base           : Nat
  addrW          : Nat
  epHandleW      : Nat
  inboxDepth     : Nat
  outboxDepth    : Nat
  sendPollBound  : Option Nat
  pumpStopOnIdle : Bool
  openForm       : Bool
  strictHost     : Bool
  deriving DecidableEq, Repr

/-- The defaults of R7. `BASE` has none there; 0 is the value of the spec's worked examples
(DESIGN CHOICE, notes/assumptions/4.md). -/
def Params.default : Params where
  base           := 0
  addrW          := 64
  epHandleW      := 8
  inboxDepth     := 1
  outboxDepth    := 1
  sendPollBound  := none
  pumpStopOnIdle := false
  openForm       := false
  strictHost     := true

/-- The poll bound is `INF` or a natural number of at least 1 (R7). -/
def Params.boundOk : Option Nat → Bool
  | none   => true
  | some n => decide (1 ≤ n)

/-- The constraints that R7 puts on the parameters. -/
def Params.wf (p : Params) : Bool :=
  decide (p.base % 8 = 0) && decide (16 ≤ p.addrW) && decide (p.base + 0x8840 ≤ 2 ^ p.addrW) &&
  decide (1 ≤ p.epHandleW) && decide (p.epHandleW ≤ 64) &&
  decide (1 ≤ p.inboxDepth) && decide (1 ≤ p.outboxDepth) && Params.boundOk p.sendPollBound

/-- The four OPEN positions `HDR_*_LSB` of R7. The spec gives no default, and no rule of the core reads them, so they
are an argument of the header's field accessors and of nothing else. -/
structure HeaderLayout where
  inptrLsb  : Nat
  outptrLsb : Nat
  incntLsb  : Nat
  outcntLsb : Nat
  deriving DecidableEq, Repr

/-- Two 4-bit ranges do not overlap. -/
def HeaderLayout.apart (a b : Nat) : Bool :=
  decide (a + 4 ≤ b) || decide (b + 4 ≤ a)

/-- R7: each field in 8..60, the four ranges pairwise disjoint (and so disjoint from `EP`, bits 7:0). -/
def HeaderLayout.wf (l : HeaderLayout) : Bool :=
  [l.inptrLsb, l.outptrLsb, l.incntLsb, l.outcntLsb].all (fun n => decide (8 ≤ n) && decide (n ≤ 60)) &&
  HeaderLayout.apart l.inptrLsb l.outptrLsb && HeaderLayout.apart l.inptrLsb l.incntLsb &&
  HeaderLayout.apart l.inptrLsb l.outcntLsb && HeaderLayout.apart l.outptrLsb l.incntLsb &&
  HeaderLayout.apart l.outptrLsb l.outcntLsb && HeaderLayout.apart l.incntLsb l.outcntLsb

/-- The seven registers of R30, and no other (R73). -/
inductive Reg where
  | cpuControl
  | inboxCtrl
  | outboxCtrl
  | inbox0
  | inbox1
  | outbox0
  | outbox1
  deriving DecidableEq, Repr

/-- FREE VALUE: the bits the spec calls a draw (R249, R259, R130's `rdata[63:32]`, the unspecified values a reset event
leaves), one fresh word for each value of the counter `Ports.draws`. It has no body: nothing can be proved of its value
(notes/assumptions/7.md). -/
opaque Config.freeBits : Nat → BitVec 64

end Sys2Proof
end

