-- ==== Sys2Proof/Syntax.lean ====
section
/-! DEFINITION. The eleven operations of spec/opcode_table.json (00_scope.md R3): the seven commands of the Mailbox
Transport and the four primitives of the Register Interface; and the words that carry them to a port. -/

namespace Sys2Proof

/-- One constructor per row of the opcode table. Addresses are natural numbers, because the width `ADDR_W` of an
address is a parameter and no address sum wraps (R123). -/
inductive Instr where
  /-- `boot()` (R170). -/
  | boot
  /-- `send(data, header)` (R180). -/
  | send (data header : Word64)
  /-- `recv()` (R195). -/
  | recv
  /-- `dispatch(frame)` (R202). -/
  | dispatch (data header : Word64)
  /-- `pump_once()` (R220). -/
  | pumpOnce
  /-- `pump_forever()` (R226). -/
  | pumpForever
  /-- `add_ep(id, endpoint)` (R235). -/
  | addEp (id : Ident) (handle : Handle)
  /-- `read32(addr)` (R151). -/
  | read32 (addr : Nat)
  /-- `write32(addr, value)` (R152). -/
  | write32 (addr : Nat) (value : Word32)
  /-- `read64(addr)` (R153). -/
  | read64 (addr : Nat)
  /-- `write64(addr, value)` (R154). -/
  | write64 (addr : Nat) (value : Word64)
  deriving DecidableEq, Repr

/-- A word at one of the two ports that take instructions: the 132-bit command word of R124, or the bus transaction
word of R130, whose width `66 + ADDR_W` is a parameter, so that it is held as a number. -/
inductive PortWord where
  | cmd (w : BitVec 132)
  | bus (w : Nat)
  deriving DecidableEq, Repr

end Sys2Proof
end

