-- ==== Sys2Proof/WellFormed.lean ====
section
/-! DEFINITION. Which instructions the operand rules admit, under given parameters. -/

namespace Sys2Proof

/-- An address of `ADDR_W` bits that is a multiple of the access width (R151 to R154: "a multiple of 4", "a multiple
of 8"). -/
def addressOk (p : Params) (addr width : Nat) : Bool :=
  decide (addr < 2 ^ p.addrW) && decide (addr % width = 0)

/-- The operands lie in their ranges: a handle fits `EP_HANDLE_W` bits (R126, R235), an address fits `ADDR_W` bits and
is aligned (R151 to R154). Every other operand has its width in its type. -/
def Instr.wf (p : Params) : Instr → Bool
  | .boot         => true
  | .send _ _     => true
  | .recv         => true
  | .dispatch _ _ => true
  | .pumpOnce     => true
  | .pumpForever  => true
  | .addEp _ h    => decide (h.toNat < 2 ^ p.epHandleW)
  | .read32 a     => addressOk p a 4
  | .write32 a _  => addressOk p a 4
  | .read64 a     => addressOk p a 8
  | .write64 a _  => addressOk p a 8

end Sys2Proof
end

