-- ==== Sys2Proof/Decode.lean ====
section
/-! DEFINITION. From port words to instructions and back: the command word of 30_encoding.md R124 to R127, the bus
transaction word of R130. -/

namespace Sys2Proof

/-- Why a word is no instruction. -/
inductive DecodeError where
  /-- `op` is 0x0 or 0x8 to 0xF (R125, R127). -/
  | reservedOpcode (op : BitVec 4)
  deriving DecidableEq, Repr

/-! ### The command word `CMD = {op, arg1, arg0}` (R124) -/

/-- `op = CMD[131:128]`. -/
def cmdOp (w : BitVec 132) : BitVec 4 := w.extractLsb' 128 4

/-- `arg1 = CMD[127:64]`. -/
def cmdArg1 (w : BitVec 132) : Word64 := w.extractLsb' 64 64

/-- `arg0 = CMD[63:0]`. -/
def cmdArg0 (w : BitVec 132) : Word64 := w.extractLsb' 0 64

/-- `handle = arg1[EP_HANDLE_W-1:0]` (R126). -/
def handleOf (p : Params) (arg1 : Word64) : Handle := BitVec.ofNat 64 (arg1.toNat % 2 ^ p.epHandleW)

/-- R125 and R126. An operand bit that the command does not use is ignored: "it changes nothing the core does". -/
def decodeCmd (p : Params) (w : BitVec 132) : Except DecodeError Instr :=
  match (cmdOp w).toNat with
  | 1 => .ok .boot
  | 2 => .ok (.send (cmdArg0 w) (cmdArg1 w))
  | 3 => .ok .recv
  | 4 => .ok (.dispatch (cmdArg0 w) (cmdArg1 w))
  | 5 => .ok .pumpOnce
  | 6 => .ok .pumpForever
  | 7 => .ok (.addEp ((cmdArg0 w).extractLsb' 0 8) (handleOf p (cmdArg1 w)))
  | _ => .error (.reservedOpcode (cmdOp w))

/-! ### The bus word `BUS = {kind, addr, wdata}` (R130) -/

/-- `kind = BUS[ADDR_W+65 : ADDR_W+64]`. -/
def busKind (p : Params) (w : Nat) : Nat := w / 2 ^ (64 + p.addrW) % 4

/-- `addr = BUS[ADDR_W+63 : 64]`. -/
def busAddr (p : Params) (w : Nat) : Nat := w / 2 ^ 64 % 2 ^ p.addrW

/-- `wdata = BUS[63:0]`. -/
def busWdata (w : Nat) : Word64 := BitVec.ofNat 64 w

/-- R130: `kind[0]` is 1 for a write, `kind[1]` is 1 for a 64-bit access; a 32-bit write's value is `wdata[31:0]`. No
bus kind is reserved (R134), so every word is a transaction. R130 has `wdata[63:32]` of a WRITE32 and the `wdata` of a read
0 and does not say what they do otherwise: to ignore them is the model's choice (DESIGN CHOICE, notes/assumptions/37.md). -/
def decodeBus (p : Params) (w : Nat) : Instr :=
  match busKind p w with
  | 0 => .read32 (busAddr p w)
  | 1 => .write32 (busAddr p w) ((busWdata w).extractLsb' 0 32)
  | 2 => .read64 (busAddr p w)
  | _ => .write64 (busAddr p w) (busWdata w)

/-- The instruction a port word stands for, or the reason there is none. -/
def decodePort (p : Params) : PortWord → Except DecodeError Instr
  | .cmd w => decodeCmd p w
  | .bus w => .ok (decodeBus p w)

/-! ### The encoder -/

/-- `{op, arg1, arg0}` (R124). -/
def cmdWord (op : BitVec 4) (arg1 arg0 : Word64) : BitVec 132 := op ++ arg1 ++ arg0

/-- `{kind, addr, wdata}` as a number (R130). -/
def busWord (p : Params) (kind addr : Nat) (wdata : Word64) : Nat :=
  kind * 2 ^ (64 + p.addrW) + addr * 2 ^ 64 + wdata.toNat

/-- The word of an instruction, every unused bit driven 0 (R125, R126, R130). -/
def encode (p : Params) : Instr → PortWord
  | .boot         => .cmd (cmdWord 0x1 0 0)
  | .send d h     => .cmd (cmdWord 0x2 h d)
  | .recv         => .cmd (cmdWord 0x3 0 0)
  | .dispatch d h => .cmd (cmdWord 0x4 h d)
  | .pumpOnce     => .cmd (cmdWord 0x5 0 0)
  | .pumpForever  => .cmd (cmdWord 0x6 0 0)
  | .addEp i h    => .cmd (cmdWord 0x7 h (i.setWidth 64))
  | .read32 a     => .bus (busWord p 0 a 0)
  | .write32 a v  => .bus (busWord p 1 a (v.setWidth 64))
  | .read64 a     => .bus (busWord p 2 a 0)
  | .write64 a v  => .bus (busWord p 3 a v)

/-! ### Words as spec/opcode_table.json numbers them -/

/-- The port of a table word. The table numbers the words of two ports over the same bits: 132 bits are a command, 130
bits a bus transaction. At another width (both ports' words rounded up to whole bytes are 136 bits) the command port is
asked first, and a word that is no command there and fits the bus is a bus word (notes/assumptions/23.md). -/
def tablePort (nbits w : Nat) : PortWord :=
  if nbits = 130 then .bus w
  else if nbits = 132 then .cmd (BitVec.ofNat 132 w)
  else match decodeCmd Params.default (BitVec.ofNat 132 w) with
    | .ok _    => .cmd (BitVec.ofNat 132 w)
    | .error _ => if w < 2 ^ 130 then .bus w else .cmd (BitVec.ofNat 132 w)

/-- What the decoder reads from a table word, under the default parameters. -/
def decodeTableWord (nbits w : Nat) : Option Instr :=
  match decodePort Params.default (tablePort nbits w) with
  | .ok i    => some i
  | .error _ => none

end Sys2Proof
end

