-- ==== Sys2Proof/Machine/State.lean ====
section
/-! DEFINITION. All the state the spec gives the machine: the core (10_state.md R20), the register set and the queues
behind it (R42, 46_peer_model.md R247), the ports, and the schedule of the other agents. Plain data throughout. -/

namespace Sys2Proof.Machine

/-! ### The sequencer (R21, R23) -/

/-- The phases of BOOT. -/
inductive BootPhase where
  | b0 | b1
  deriving DecidableEq, Repr

/-- The phases of SEND. -/
inductive SendPhase where
  | s0 | s1 | s2 | s3
  deriving DecidableEq, Repr

/-- The phases of the receive part (RECV and the pumps). -/
inductive RecvPhase where
  | v0 | v1 | v2 | v3
  deriving DecidableEq, Repr

/-- The phases of the dispatch part (DISPATCH and the pumps). -/
inductive DispPhase where
  | p0 | p1 | p2
  deriving DecidableEq, Repr

/-- The phases of a pump: the receive part, then the dispatch part. -/
inductive PumpPhase where
  | recv (v : RecvPhase)
  | disp (p : DispPhase)
  deriving DecidableEq, Repr

/-- What is left of a command whose last event but the completion is behind it, with the status it will complete with: the
completion is an event of its own (R10), so the other agents may step before it (notes/assumptions/35.md). BOOT after
`B1`, SEND after its last poll, RECV after `V0` or `V3`, the dispatch part after `P2`, the pumps after `V0`; `reserved` is a
command of a reserved opcode (R127) after its acceptance. -/
inductive Ending where
  | boot
  | sendDone
  | sendTimeout
  | recvNoMessage
  | recvFrame
  | dispatchUnhandled
  | pumpOnceIdle
  | pumpOnceUnhandled
  | pumpForeverIdle
  | pumpForeverUnhandled
  | reserved (op : BitVec 4)
  deriving DecidableEq, Repr

/-- `seq = (op, phase)`: each command with its own phases, so that no other pair can be written. ADD_EP's only phase
`A0` carries the two operands it has yet to write, for which R20 names no register (notes/assumptions/10.md). -/
inductive Seq where
  | idle
  | boot (b : BootPhase)
  | send (p : SendPhase)
  | recv (v : RecvPhase)
  | dispatch (p : DispPhase)
  | pumpOnce (p : PumpPhase)
  | pumpForever (p : PumpPhase)
  | addEp (id : Ident) (handle : Handle)
  | ending (e : Ending)
  deriving DecidableEq, Repr

/-! ### The three groups of state -/

/-- The state of the core: exactly the elements of R20. The Endpoint Table is held as the list of its valid entries in
rising order of identifier (R27; an invalid entry's handle is unspecified and never read, R43). -/
structure CoreState where
  booted   : Bool
  seq      : Seq
  txData   : Word64
  txHeader : Word64
  rxData   : Word64
  rxHeader : Word64
  hnd      : Bool
  polls    : Nat
  ept      : List (Ident × Handle)
  deriving DecidableEq, Repr

/-- The Mailbox Register Set and what stands behind it, PEER's side (R30 to R42, R247): `CPU_CONTROL` (its bit 4 is
`RUN`), `INBOX_CTRL.ENABLE` (its bit 1, R116), the staging latch `IN_STAGE` written through `INBOX0`, the two queues, `started`, and the
log `DELIVERED`. `FULL`, `EMPTY` and the two outbox registers are views of the queues. -/
structure Mailbox where
  cpuControl : Word32
  enable     : Bool
  inStage    : Word64
  inQ        : List Frame
  outQ       : List Frame
  started    : Bool
  delivered  : List Frame
  deriving DecidableEq, Repr

/-- A request on the Endpoint port (R131). -/
structure EpReq where
  handle : Handle
  header : Word64
  data   : Word64
  deriving DecidableEq, Repr

/-- The completion statuses (R128). -/
inductive Status where
  | done | noMessage | frame | idle | handled | unhandled | timeout | illegalCmd
  deriving DecidableEq, Repr

/-- The kinds of trace event (R132); kind 3 is reserved and never emitted. -/
inductive TraceKind where
  | tx | rx | unknown
  deriving DecidableEq, Repr

/-- A diagnostic event (R132). -/
structure TraceEvent where
  kind  : TraceKind
  ep    : Ident
  frame : Frame
  deriving DecidableEq, Repr

/-- The externally visible events of R10, in the order they occur. A completion carries a frame only where the status
gives `header` and `data` a value (R128). -/
inductive Event where
  | accept (i : Instr)
  | acceptReserved (op : BitVec 4)
  | memRead (addr width : Nat) (value : Word64)
  | memWrite (addr width : Nat) (value : Word64)
  | epCall (r : EpReq)
  | trace (t : TraceEvent)
  | complete (status : Status) (frame : Option Frame)
  deriving DecidableEq, Repr

/-- What moves next: the core (one event), PEER (ACCEPT and POST of R252, R253), an endpoint (its one-bit answer,
R209), the responder of the open form (R245), or a reset (R320, R322). -/
inductive Move where
  | core
  | accept
  | post (f : Frame)
  | answer (handled : Bool)
  | respond (rdata : Word64)
  | coreReset
  | peerReset
  deriving DecidableEq, Repr

/-- The ports and the agents behind them. `requests`: the words HOST holds for the core, first one first. `moves`: the
schedule; an empty one means that only the core moves. `epReq`, `epAnswer`: the Endpoint port's outstanding request and
its answer. `response`: the value an open-form responder has put on the bus. `rdata`: the data of the last read (R130).
`events`: everything visible so far, oldest first. `draws`: how many free values have been drawn. -/
structure Ports where
  requests : List PortWord
  moves    : List Move
  epReq    : Option EpReq
  epAnswer : Option Bool
  response : Option Word64
  rdata    : Word64
  events   : List Event
  draws    : Nat
  deriving DecidableEq, Repr

/-- The whole machine. -/
structure State where
  params : Params
  core   : CoreState
  peer   : Mailbox
  ports  : Ports
  deriving DecidableEq, Repr

/-- There is no fault: "A model gives the core no fault outcome of its own making" (60_exceptions.md R281). -/
inductive Fault where
  deriving DecidableEq, Repr

/-- Why the model has no step, where the spec gives no effect. Every one of them is safe: the model stops. -/
inductive Refusal where
  /-- Raised by no instruction of this model; the name an arm without a meaning would use. -/
  | notModelled (mnemonic : String)
  /-- Raised by `step`: a parameter breaks a constraint of R7 ("a model refuses it", R76, U18). -/
  | parameters
  /-- Raised by a bus primitive: the address is no multiple of the width (R76, R151 to R154). -/
  | misaligned (addr width : Nat)
  /-- Raised by a bus primitive: no register lies there (R73, U6). -/
  | unmapped (addr : Nat)
  /-- Raised by a bus primitive: a register accessed otherwise than whole at its own width (R77, U7). -/
  | accessWidth (addr width : Nat)
  /-- Raised by READ32 and READ64: a register whose read is not in the source (R79, R261, U2). -/
  | unreadable (r : Reg)
  /-- Raised by WRITE32 and WRITE64: a register whose write is not in the source (R80, U16). -/
  | unwritable (r : Reg)
  /-- Raised by WRITE64 and SEND in the closed form: `INBOX1` written while the inbox is full (R258, U4). -/
  | inboxOverflow
  /-- Raised by `step` under `strictHost`: HOST offers a reserved opcode (R127, U14). -/
  | reservedCommand (op : BitVec 4)
  /-- Raised by `step` under `strictHost`: HOST drives an unused or reserved operand bit to 1 (R126, U14). -/
  | reservedOperandBits
  /-- Raised by `step` under `strictHost`: HOST offers a send, receive, dispatch or pump before BOOT (R22, U8). -/
  | beforeBoot
  /-- Raised by `step` under `strictHost`: HOST offers a BOOT after a BOOT, a reset of the core between them or not
  (R174, R322, U17). -/
  | secondBoot
  /-- Raised by `step` under `strictHost`: software beside the core accesses the registers (R31, U15). -/
  | hostOnRegisters
  deriving DecidableEq, Repr

/-! ### Reset -/

/-- The core after reset (R43). The four holding registers and `HND` have no value there; they hold zero
(DESIGN CHOICE, notes/assumptions/5.md). -/
def CoreState.reset : CoreState where
  booted   := false
  seq      := .idle
  txData   := 0
  txHeader := 0
  rxData   := 0
  rxHeader := 0
  hnd      := false
  polls    := 0
  ept      := []

/-- The register set and the queues after reset (R44). `IN_STAGE`, `ENABLE` and the bits of `CPU_CONTROL` other than
`RUN` have no value there; they hold zero (DESIGN CHOICE, notes/assumptions/5.md). -/
def Mailbox.reset : Mailbox where
  cpuControl := 0
  enable     := false
  inStage    := 0
  inQ        := []
  outQ       := []
  started    := false
  delivered  := []

/-- Idle ports: no word offered, nothing scheduled, nothing outstanding, nothing seen. -/
def Ports.reset : Ports where
  requests := []
  moves    := []
  epReq    := none
  epAnswer := none
  response := none
  rdata    := 0
  events   := []
  draws    := 0

/-- The machine right after reset: the core "does nothing until HOST offers a command" (R324). -/
def State.reset : State where
  params := Params.default
  core   := CoreState.reset
  peer   := Mailbox.reset
  ports  := Ports.reset

end Sys2Proof.Machine
end

