-- ==== Sys2Proof/Machine/Flags.lean ====
section
/-! DEFINITION. Every single-bit value that steers the machine (10_state.md R29) and the truth value of a status. -/

namespace Sys2Proof.Machine

/-- A 32-bit register value as a read returns it, its bits 16 and 17 held apart from the other thirty, which are drawn
(R249). `CtrlValue.word` is the value itself; bits 16 and 17 of `rest` are not part of it. -/
structure CtrlValue where
  full  : Bool
  empty : Bool
  rest  : Word32
  deriving DecidableEq, Repr

/-- The 32-bit value: `EMPTY` at bit 17, `FULL` at bit 16 (R116, R117), every other bit from `rest`. -/
def CtrlValue.word (v : CtrlValue) : Word32 :=
  v.rest.extractLsb' 18 14 ++ BitVec.ofBool v.empty ++ BitVec.ofBool v.full ++ v.rest.extractLsb' 0 16

/-- A value taken apart again. -/
def CtrlValue.ofWord (w : Word32) : CtrlValue where
  full  := w.getLsbD 16
  empty := w.getLsbD 17
  rest  := w

/-- `INBOX_CTRL.FULL`: "1 exactly when `len(IN_Q) = INBOX_DEPTH`" (R249). -/
def inboxFull (s : State) : Bool := decide (s.peer.inQ.length = s.params.inboxDepth)

/-- `INBOX_CTRL.EMPTY`: "1 exactly when `len(IN_Q) = 0`" (R249). -/
def inboxEmpty (s : State) : Bool := decide (s.peer.inQ.length = 0)

/-- `OUTBOX_CTRL.FULL`: "1 exactly when `len(OUT_Q) = OUTBOX_DEPTH`" (R249). -/
def outboxFull (s : State) : Bool := decide (s.peer.outQ.length = s.params.outboxDepth)

/-- `OUTBOX_CTRL.EMPTY`: "1 exactly when `len(OUT_Q) = 0`" (R249). -/
def outboxEmpty (s : State) : Bool := decide (s.peer.outQ.length = 0)

/-- What a read of `INBOX_CTRL` returns in the closed form, `draw` giving the bits with no value (R249). -/
def inboxCtrlValue (s : State) (draw : Word32) : CtrlValue := ⟨inboxFull s, inboxEmpty s, draw⟩

/-- What a read of `OUTBOX_CTRL` returns in the closed form (R249). -/
def outboxCtrlValue (s : State) (draw : Word32) : CtrlValue := ⟨outboxFull s, outboxEmpty s, draw⟩

/-- `CPU_CONTROL.RUN`, bit 4 (R115). -/
def runBit (v : Word32) : Bool := v.getLsbD 4

/-- The two values BOOT writes (R122). -/
def runSet : Word32 := 0x00000010

/-- `RUN = 0` with every other bit 0 (R122). -/
def runClear : Word32 := 0x00000000

/-- The truth value the source gives the three statuses that `pump_forever` tests (R128, R223). -/
def Status.truthy : Status → Option Bool
  | .idle       => some true
  | .handled    => some true
  | .unhandled  => some false
  | .done       => none
  | .noMessage  => none
  | .frame      => none
  | .timeout    => none
  | .illegalCmd => none

/-- The status a command in its last phase completes with (R129). -/
def Ending.status : Ending → Status
  | .boot                 => .done
  | .sendDone             => .done
  | .sendTimeout          => .timeout
  | .recvNoMessage        => .noMessage
  | .recvFrame            => .frame
  | .dispatchUnhandled    => .unhandled
  | .pumpOnceIdle         => .idle
  | .pumpOnceUnhandled    => .unhandled
  | .pumpForeverIdle      => .idle
  | .pumpForeverUnhandled => .unhandled
  | .reserved _           => .illegalCmd

/-- Whether the poll of SEND goes on after its `polls`th read showed `FULL = 1` (R182, R186): always for `INF`. -/
def pollGoesOn (bound : Option Nat) (polls : Nat) : Bool :=
  match bound with
  | none   => true
  | some n => decide (polls < n)

end Sys2Proof.Machine
end

