-- ==== Sys2Proof/Machine/Operands.lean ====
section
/-! DEFINITION. Operand assembly (30_encoding.md R120 to R123), the register map (20_memory.md R72) and the Endpoint
Table as an array of 256 entries (10_state.md R27). -/

namespace Sys2Proof.Machine

/-! ### Fields (R120, R121) -/

/-- `v[hi:lo]`, an unsigned number of `hi - lo + 1` bits, taken down to bit 0 (R120). -/
def fieldExtract {n : Nat} (v : BitVec n) (hi lo : Nat) : BitVec n :=
  BitVec.ofNat n (v.toNat / 2 ^ lo % 2 ^ (hi - lo + 1))

/-- The bits `hi:lo` set, every other bit clear. -/
def fieldMask (n hi lo : Nat) : BitVec n :=
  BitVec.ofNat n ((2 ^ (hi - lo + 1) - 1) * 2 ^ lo)

/-- `insert(v, hi, lo, f)`: bits `hi:lo` replaced by the low bits of `f`, every other bit of `v` kept (R121). -/
def fieldInsert {n : Nat} (v : BitVec n) (hi lo : Nat) (f : BitVec n) : BitVec n :=
  (v &&& ~~~ fieldMask n hi lo) ||| ((f <<< lo) &&& fieldMask n hi lo)

/-- `EP = header[7:0]`, the sole routing key (R110, R120). -/
def epOf (header : Word64) : Ident := header.extractLsb' 0 8

/-- `INPTR`, at its OPEN position (R111). Read by nothing in the core. -/
def inptrOf (l : HeaderLayout) (header : Word64) : BitVec 4 := header.extractLsb' l.inptrLsb 4

/-- `OUTPTR`, at its OPEN position (R111). -/
def outptrOf (l : HeaderLayout) (header : Word64) : BitVec 4 := header.extractLsb' l.outptrLsb 4

/-- `INCNT`, at its OPEN position (R111). -/
def incntOf (l : HeaderLayout) (header : Word64) : BitVec 4 := header.extractLsb' l.incntLsb 4

/-- `OUTCNT`, at its OPEN position (R111). -/
def outcntOf (l : HeaderLayout) (header : Word64) : BitVec 4 := header.extractLsb' l.outcntLsb 4

/-- The frame word `{header, data}` (R114). -/
def frameWord (f : Frame) : BitVec 128 := f.header ++ f.data

/-! ### The register map (R30, R72, R119) -/

/-- The offset of a register from `BASE`. -/
def regOffset : Reg → Nat
  | .cpuControl => 0x0044
  | .inboxCtrl  => 0x8110
  | .outboxCtrl => 0x8114
  | .inbox0     => 0x8800
  | .inbox1     => 0x8808
  | .outbox0    => 0x8830
  | .outbox1    => 0x8838

/-- The width of a register in bytes. -/
def regWidth : Reg → Nat
  | .cpuControl => 4
  | .inboxCtrl  => 4
  | .outboxCtrl => 4
  | .inbox0     => 8
  | .inbox1     => 8
  | .outbox0    => 8
  | .outbox1    => 8

/-- The registers a read of which the source knows (R79). A model refuses a read of the other three (R261, U2). -/
def regReadable : Reg → Bool
  | .cpuControl => false
  | .inboxCtrl  => true
  | .outboxCtrl => true
  | .inbox0     => false
  | .inbox1     => false
  | .outbox0    => true
  | .outbox1    => true

/-- `addr(REG) = BASE + offset(REG)`, an addition of natural numbers that never wraps (R72, R123). -/
def regAddr (p : Params) (r : Reg) : Nat := p.base + regOffset r

/-- The seven registers in the order of the map. -/
def allRegs : List Reg := [.cpuControl, .inboxCtrl, .outboxCtrl, .inbox0, .inbox1, .outbox0, .outbox1]

/-- The register at exactly this address and width. -/
def regAt (p : Params) (addr width : Nat) : Option Reg :=
  allRegs.find? (fun r => decide (regAddr p r = addr) && decide (regWidth r = width))

/-- Whether an access shares a byte with a register. -/
def touchesReg (p : Params) (addr width : Nat) : Bool :=
  allRegs.any (fun r => decide (addr < regAddr p r + regWidth r) && decide (regAddr p r < addr + width))

/-- The register an access names, or why it names none: misaligned (R76), a register otherwise than whole at its own
width (R77), or no register (R73). -/
def resolve (p : Params) (addr width : Nat) : Except Refusal Reg :=
  if addr % width ≠ 0 then .error (.misaligned addr width)
  else match regAt p addr width with
    | some r => .ok r
    | none   => if touchesReg p addr width then .error (.accessWidth addr width) else .error (.unmapped addr)

/-! ### The named fields (R111, R115 to R117, R119) -/

/-- A field of a register: its bits `hi:lo`. -/
structure RegField where
  reg : Reg
  hi  : Nat
  lo  : Nat
  deriving DecidableEq, Repr

/-- The field lies within its register. -/
def RegField.wf (f : RegField) : Bool := decide (f.lo ≤ f.hi) && decide (f.hi < 8 * regWidth f.reg)

/-- `CPU_CONTROL.RUN` (R115). -/
def runField : RegField := ⟨.cpuControl, 4, 4⟩

/-- `INBOX_CTRL.ENABLE` (R116). -/
def enableField : RegField := ⟨.inboxCtrl, 1, 1⟩

/-- `INBOX_CTRL.FULL` (R116). -/
def inboxFullField : RegField := ⟨.inboxCtrl, 16, 16⟩

/-- `INBOX_CTRL.EMPTY` (R116). -/
def inboxEmptyField : RegField := ⟨.inboxCtrl, 17, 17⟩

/-- `OUTBOX_CTRL.FULL` (R117). -/
def outboxFullField : RegField := ⟨.outboxCtrl, 16, 16⟩

/-- `OUTBOX_CTRL.EMPTY` (R117). -/
def outboxEmptyField : RegField := ⟨.outboxCtrl, 17, 17⟩

/-- `EP` of the header register of a direction (R111, R118): `INBOX1` or `OUTBOX1`. -/
def epField (r : Reg) : RegField := ⟨r, 7, 0⟩

/-- A 4-bit bookkeeping field of `OUTBOX1` at its OPEN position (R111). -/
def bookkeepingField (lsb : Nat) : RegField := ⟨.outbox1, lsb + 3, lsb⟩

/-- Every field the source names, register by register (R30, R119). -/
def namedFields (l : HeaderLayout) : List RegField :=
  [runField, enableField, inboxFullField, inboxEmptyField, outboxFullField, outboxEmptyField, epField .inbox1,
    epField .outbox1, bookkeepingField l.inptrLsb, bookkeepingField l.outptrLsb, bookkeepingField l.incntLsb,
    bookkeepingField l.outcntLsb]

/-! ### The Endpoint Table (R27) -/

/-- `EPT[id]`: the handle of a valid entry, none for an invalid one. -/
def eptLookup : List (Ident × Handle) → Ident → Option Handle
  | [], _ => none
  | (j, h) :: rest, id => if j = id then some h else eptLookup rest id

/-- `EPT[id] <- (1, handle)`, the valid entries kept in rising order (R236, R237). -/
def eptInsert : List (Ident × Handle) → Ident → Handle → List (Ident × Handle)
  | [], id, h => [(id, h)]
  | (j, g) :: rest, id, h =>
    if id.toNat < j.toNat then (id, h) :: (j, g) :: rest
    else if id = j then (id, h) :: rest
    else (j, g) :: eptInsert rest id h

/-- The canonical form: identifiers strictly rising, so that equal tables are equal lists. -/
def eptSorted : List (Ident × Handle) → Bool
  | [] => true
  | [_] => true
  | (i, _) :: (j, h) :: rest => decide (i.toNat < j.toNat) && eptSorted ((j, h) :: rest)

/-- Every stored handle fits `EP_HANDLE_W` bits (R27). -/
def eptHandlesFit (w : Nat) (t : List (Ident × Handle)) : Bool :=
  t.all (fun e => decide (e.2.toNat < 2 ^ w))

end Sys2Proof.Machine
end

