-- ==== Sys2Proof/Machine/Ops.lean ====
section
/-! DEFINITION. The shared operations: events and completions, the Register Interface in both its forms, the parts the
commands have in common, and the moves of the other agents. -/

namespace Sys2Proof.Machine

/-- What a meaning answers. -/
abbrev Result := Host.Outcome State Fault Refusal

/-- Goes on with the value of a next state; stops where the first part stops. -/
def andThen {α β : Type} (x : Host.Outcome α Fault Refusal) (f : α → Host.Outcome β Fault Refusal) :
    Host.Outcome β Fault Refusal :=
  match x with
  | .next a    => f a
  | .fault r   => .fault r
  | .refused r => .refused r

/-! ### Events, phases, completions -/

/-- An event becomes visible. -/
def State.emit (s : State) (e : Event) : State :=
  { s with ports.events := s.ports.events ++ [e] }

/-- `seq <- (op, phase)`. -/
def State.goto (s : State) (q : Seq) : State :=
  { s with core.seq := q }

/-- Acceptance of a command: `seq` takes its first phase (R21). -/
def State.accept (s : State) (i : Instr) (first : Seq) : State :=
  (s.emit (.accept i)).goto first

/-- `seq <- IDLE ; complete(status, frame)` (R21, R128). -/
def State.complete (s : State) (status : Status) (frame : Option Frame) : State :=
  (s.goto .idle).emit (.complete status frame)

/-- `Trace(kind, header[7:0], data, header)` (R132). -/
def State.traced (s : State) (kind : TraceKind) (f : Frame) : State :=
  s.emit (.trace ⟨kind, epOf f.header, f⟩)

/-- The current free value. -/
def State.drawn (s : State) : Word64 := Config.freeBits s.ports.draws

/-- `n` free values have been used. -/
def State.advanceDraws (s : State) (n : Nat) : State :=
  { s with ports.draws := s.ports.draws + n }

/-! ### Reads on the Register Interface (R71, R151, R153) -/

/-- A read has returned `rdata`; the visible value is the register's, at its width. -/
def State.readDone (s : State) (addr width : Nat) (value rdata : Word64) : State :=
  { s with
    ports.rdata  := rdata
    ports.events := s.ports.events ++ [.memRead addr width value] }

/-- The open form (R245): "a read returns whatever it returns". A value the responder has put there, else a draw. -/
def State.openValue (s : State) : Word64 := s.ports.response.getD s.drawn

/-- An open-form read has used its value. -/
def State.openTaken (s : State) : State :=
  { s.advanceDraws 1 with ports.response := none }

/-- The read of a 32-bit register in the closed form: the two control registers return their flags and change nothing
(R79, R249); `rdata[63:32]` is drawn, since the core ignores it (R130). -/
def closedRead32 (addr : Nat) (r : Reg) (s : State) : Host.Outcome (CtrlValue × State) Fault Refusal :=
  let finish (v : CtrlValue) : CtrlValue × State :=
    (v, (s.advanceDraws 1).readDone addr 4 (v.word.setWidth 64) (s.drawn.extractLsb' 32 32 ++ v.word))
  match r with
  | .inboxCtrl  => .next (finish (inboxCtrlValue s (s.drawn.extractLsb' 0 32)))
  | .outboxCtrl => .next (finish (outboxCtrlValue s (s.drawn.extractLsb' 0 32)))
  | _           => .refused (.unreadable r)

/-- The head of the outbox without removing it (R254); a draw when the outbox is empty (R259). -/
def outboxHead (s : State) : Frame :=
  match s.peer.outQ with
  | f :: _ => f
  | []     => ⟨s.drawn, s.drawn⟩

/-- The read of a 64-bit register in the closed form: `OUTBOX0` gives the head's data and changes nothing (R254);
`OUTBOX1` gives the head's header and removes the frame (R255); on an empty outbox each is a draw that changes nothing
(R259). -/
def closedRead64 (addr : Nat) (r : Reg) (s : State) : Host.Outcome (Word64 × State) Fault Refusal :=
  let f := outboxHead s
  match r with
  | .outbox0 => .next (f.data, (s.advanceDraws 1).readDone addr 8 f.data f.data)
  | .outbox1 => .next (f.header,
      { (s.advanceDraws 1).readDone addr 8 f.header f.header with peer.outQ := s.peer.outQ.tail })
  | _        => .refused (.unreadable r)

/-- `MemRead(addr, 4)` (R151). In either form a read that is not in the source is refused (R79, R261). -/
def busRead32 (addr : Nat) (s : State) : Host.Outcome (CtrlValue × State) Fault Refusal :=
  match resolve s.params addr 4 with
  | .error r => .refused r
  | .ok r =>
    if !regReadable r then .refused (.unreadable r)
    else if s.params.openForm then
      .next (CtrlValue.ofWord (s.openValue.extractLsb' 0 32),
        s.openTaken.readDone addr 4 ((s.openValue.extractLsb' 0 32).setWidth 64) s.openValue)
    else closedRead32 addr r s

/-- `MemRead(addr, 8)`, all 64 bits from one instant (R153, R78). In either form a read that is not in the source is
refused (R79, R261). -/
def busRead64 (addr : Nat) (s : State) : Host.Outcome (Word64 × State) Fault Refusal :=
  match resolve s.params addr 8 with
  | .error r => .refused r
  | .ok r =>
    if !regReadable r then .refused (.unreadable r)
    else if s.params.openForm then .next (s.openValue, s.openTaken.readDone addr 8 s.openValue s.openValue)
    else closedRead64 addr r s

/-! ### Writes on the Register Interface (R152, R154) -/

/-- A write of `CPU_CONTROL`: a value with `RUN = 1` starts the coprocessor, which nothing but PEER's reset stops (R248).
In the closed form all 32 bits take the value (R152); in the open form nothing is known of the register afterwards, and
`started` says that the pulse has gone out (notes/assumptions/12.md). -/
def writeCpuControl (openForm : Bool) (v : Word32) (m : Mailbox) : Mailbox :=
  { m with
    cpuControl := if openForm then m.cpuControl else v
    started    := m.started || runBit v }

/-- `MemWrite(addr, 4, value)` (R152). In either form a write that is not in the source is refused (R80, R261). -/
def busWrite32 (addr : Nat) (v : Word32) (s : State) : Result :=
  match resolve s.params addr 4 with
  | .error r => .refused r
  | .ok r =>
    let s' := s.emit (.memWrite addr 4 (v.setWidth 64))
    match r with
    | .cpuControl => .next { s' with peer := writeCpuControl s.params.openForm v s.peer }
    | _           => .refused (.unwritable r)

/-- `MemWrite(addr, 8, value)` (R154): `INBOX0` latches (R250); `INBOX1` commits `(IN_STAGE, value)` when there is room
(R251) and has no step when there is none (R258). In the open form nothing is known of either afterwards. In either form a
write that is not in the source is refused (R80, R261). -/
def busWrite64 (addr : Nat) (v : Word64) (s : State) : Result :=
  match resolve s.params addr 8 with
  | .error r => .refused r
  | .ok r =>
    let s' := s.emit (.memWrite addr 8 v)
    match r with
    | .inbox0 => .next (if s.params.openForm then s' else { s' with peer.inStage := v })
    | .inbox1 =>
      if s.params.openForm then .next s'
      else if s.peer.inQ.length < s.params.inboxDepth then
        .next { s' with peer.inQ := s.peer.inQ ++ [⟨s.peer.inStage, v⟩] }
      else .refused .inboxOverflow
    | _ => .refused (.unwritable r)

/-! ### The two field accessors (R155, R156), for registers of either width -/

/-- One read of a register "at its width" (R155), a 32-bit value zero-extended. -/
def readReg (r : Reg) (s : State) : Host.Outcome (Word64 × State) Fault Refusal :=
  if regWidth r = 4 then andThen (busRead32 (regAddr s.params r) s) (fun x => .next (x.1.word.setWidth 64, x.2))
  else busRead64 (regAddr s.params r) s

/-- One write of a register at its width, a 32-bit register taking the low half. -/
def writeReg (r : Reg) (v : Word64) (s : State) : Result :=
  if regWidth r = 4 then busWrite32 (regAddr s.params r) (v.setWidth 32) s else busWrite64 (regAddr s.params r) v s

/-- Field read: one read of the register, then the extraction (R155). -/
def fieldRead (f : RegField) (s : State) : Host.Outcome (Word64 × State) Fault Refusal :=
  andThen (readReg f.reg s) (fun x => .next (fieldExtract x.1 f.hi f.lo, x.2))

/-- The second transaction of a field read-modify-write, given the value `v` of the first (R156). PEER may step between
the two, so they are two operations here; the core uses neither. -/
def fieldWriteBack (f : RegField) (value v : Word64) (s : State) : Result :=
  writeReg f.reg (fieldInsert v f.hi f.lo value) s

/-- The read-modify-write with no step of PEER between its two transactions (R156). -/
def fieldModify (f : RegField) (value : Word64) (s : State) : Result :=
  andThen (readReg f.reg s) (fun x => fieldWriteBack f value x.1 x.2)

/-! ### The receive part (R196, phases V0 to V3) -/

/-- `V0`: one read of `OUTBOX_CTRL`; the answer is its bit 17, `EMPTY`. -/
def readOutboxEmpty (s : State) : Host.Outcome (Bool × State) Fault Refusal :=
  andThen (busRead32 (regAddr s.params .outboxCtrl) s) (fun x => .next (x.1.empty, x.2))

/-- `V1`: `RX_DATA <- MemRead(OUTBOX0, 8)`, then the next phase. -/
def loadRxData (nextPhase : Seq) (s : State) : Result :=
  andThen (busRead64 (regAddr s.params .outbox0) s)
    (fun x => .next (State.goto { x.2 with core.rxData := x.1 } nextPhase))

/-- `V2`: `RX_HEADER <- MemRead(OUTBOX1, 8)`, which consumes the slot, then the next phase. -/
def loadRxHeader (nextPhase : Seq) (s : State) : Result :=
  andThen (busRead64 (regAddr s.params .outbox1) s)
    (fun x => .next (State.goto { x.2 with core.rxHeader := x.1 } nextPhase))

/-- The frame in the receive holding registers. -/
def State.rxFrame (s : State) : Frame := ⟨s.core.rxData, s.core.rxHeader⟩

/-- The frame in the transmit holding registers. -/
def State.txFrame (s : State) : Frame := ⟨s.core.txData, s.core.txHeader⟩

/-! ### The dispatch part (R207, phases P0 to P2) -/

/-- `P0`: look up `EPT[RX_HEADER[7:0]]`; on a hit issue the request and go to `onHit`, on a miss go to `onMiss`. -/
def lookupEndpoint (onHit onMiss : Seq) (s : State) : State :=
  match eptLookup s.core.ept (epOf s.core.rxHeader) with
  | some h =>
    State.goto
      { s.emit (.epCall ⟨h, s.core.rxHeader, s.core.rxData⟩) with
        ports.epReq    := some ⟨h, s.core.rxHeader, s.core.rxData⟩
        ports.epAnswer := none }
      onHit
  | none => s.goto onMiss

/-- The endpoint's answer is latched in `HND` and its request is over. -/
def latchAnswer (handled : Bool) (s : State) : State :=
  { s with core.hnd := handled, ports.epReq := none, ports.epAnswer := none }

/-- `P1`: take the answer; go on with `whenHandled` if it is 1, to `onRefused` if it is 0; wait while there is none
(R209, U13: the core has no timeout on the Endpoint port). -/
def takeAnswer (whenHandled : State → State) (onRefused : Seq) (s : State) : State :=
  match s.ports.epAnswer with
  | none       => s
  | some true  => whenHandled (latchAnswer true s)
  | some false => (latchAnswer false s).goto onRefused

/-- `P2`: the unknown trace; what is left is the completion with `UNHANDLED`. -/
def reportUnknown (e : Ending) (s : State) : State :=
  (s.traced .unknown s.rxFrame).goto (.ending e)

/-! ### Completion (R128, R129) -/

/-- The frame a completion carries: that in the receive registers with status `FRAME`, none with any other (R128). -/
def endingFrame (e : Ending) (s : State) : Option Frame :=
  match e with
  | .recvFrame => some s.rxFrame
  | _          => none

/-- The completion event of a command in its last phase. -/
def finish (e : Ending) (s : State) : State := s.complete e.status (endingFrame e s)

/-! ### A reserved command (R127) -/

/-- The command is accepted; the core's next event is its completion with `ILLEGAL_CMD`, and nothing else changes. -/
def illegalCommand (op : BitVec 4) (s : State) : State :=
  (s.emit (.acceptReserved op)).goto (.ending (.reserved op))

/-! ### What HOST must not offer (70_reset_and_hazards.md R349) -/

/-- Why HOST must not offer a word, `booted` being what the core holds and `started` what PEER holds: an access of its own
to the registers (U15), a reserved opcode or operand bit (U14), traffic before BOOT (U8), a BOOT after a BOOT or of a
coprocessor that a BOOT has started before a reset of the core (U17, R322). None for a word it may offer. -/
def hostMisuse (p : Params) (booted started : Bool) (w : PortWord) : Option Refusal :=
  match w with
  | .bus _ => some .hostOnRegisters
  | .cmd c =>
    match decodeCmd p c with
    | .error (.reservedOpcode op) => some (.reservedCommand op)
    | .ok i =>
      if encode p i ≠ w then some .reservedOperandBits
      else match i with
        | .boot      => if booted || started then some .secondBoot else none
        | .addEp _ _ => none
        | _          => if booted then none else some .beforeBoot

/-- Whether the machine takes a word: always, but for a word HOST must not offer under `strictHost`. -/
def refusedWord (s : State) (w : PortWord) : Option Refusal :=
  if s.params.strictHost then hostMisuse s.params s.core.booted s.peer.started w else none

/-! ### The moves of the other agents -/

/-- ACCEPT, enabled when the inbox holds a frame (R252); otherwise there is no such step. -/
def peerAccept (s : State) : State :=
  match s.peer.inQ with
  | []        => s
  | f :: rest => { s with peer.inQ := rest, peer.delivered := s.peer.delivered ++ [f] }

/-- POST, enabled when the outbox has room (R253); otherwise there is no such step. -/
def peerPost (f : Frame) (s : State) : State :=
  if s.peer.outQ.length < s.params.outboxDepth then { s with peer.outQ := s.peer.outQ ++ [f] } else s

/-- An endpoint answers the request outstanding (R131: one request at a time, one bit). -/
def endpointAnswer (handled : Bool) (s : State) : State :=
  if s.ports.epReq.isSome && s.ports.epAnswer.isNone then { s with ports.epAnswer := some handled } else s

/-- The open form's responder puts the value of the next read on the bus (R245). The closed form has none. -/
def busRespond (rdata : Word64) (s : State) : State :=
  if s.params.openForm then { s with ports.response := some rdata } else s

/-- Reset of the core (R320): the values of R43, the unspecified ones drawn; the command in progress is abandoned
without a completion, an endpoint's answer is dropped (R323), PEER is left as it was (R322). -/
def coreReset (s : State) : State :=
  let n := s.ports.draws
  { s.advanceDraws 5 with
    core :=
      { CoreState.reset with
        txData   := Config.freeBits n
        txHeader := Config.freeBits (n + 1)
        rxData   := Config.freeBits (n + 2)
        rxHeader := Config.freeBits (n + 3)
        hnd      := (Config.freeBits (n + 4)).getLsbD 0 }
    ports.epReq    := none
    ports.epAnswer := none }

/-- Reset of PEER (R322), an event of its own: the values of R44, the unspecified ones drawn, `RUN` 0. -/
def peerReset (s : State) : State :=
  let n := s.ports.draws
  { s.advanceDraws 3 with
    peer :=
      { Mailbox.reset with
        inStage    := Config.freeBits n
        enable     := (Config.freeBits (n + 1)).getLsbD 0
        cpuControl := (Config.freeBits (n + 2)).extractLsb' 0 32 &&& ~~~ runSet } }

/-! ### The command in progress -/

/-- The instruction a command in its last phase is; none for a reserved opcode. -/
def CoreState.endingInstr (c : CoreState) : Ending → Option Instr
  | .boot                 => some .boot
  | .sendDone             => some (.send c.txData c.txHeader)
  | .sendTimeout          => some (.send c.txData c.txHeader)
  | .recvNoMessage        => some .recv
  | .recvFrame            => some .recv
  | .dispatchUnhandled    => some (.dispatch c.rxData c.rxHeader)
  | .pumpOnceIdle         => some .pumpOnce
  | .pumpOnceUnhandled    => some .pumpOnce
  | .pumpForeverIdle      => some .pumpForever
  | .pumpForeverUnhandled => some .pumpForever
  | .reserved _           => none

/-- The instruction whose events the sequencer is performing, with the operands the core holds for it; none when idle, and
none for a reserved opcode. -/
def CoreState.current (c : CoreState) : Option Instr :=
  match c.seq with
  | .idle          => none
  | .boot _        => some .boot
  | .send _        => some (.send c.txData c.txHeader)
  | .recv _        => some .recv
  | .dispatch _    => some (.dispatch c.rxData c.rxHeader)
  | .pumpOnce _    => some .pumpOnce
  | .pumpForever _ => some .pumpForever
  | .addEp id h    => some (.addEp id h)
  | .ending e      => c.endingInstr e

end Sys2Proof.Machine
end

