-- ==== Sys2Proof/Machine/AddEp.lean ====
section
/-! DEFINITION. ADD_EP (45_add_ep.md R235 to R241). -/

namespace Sys2Proof.Machine

/-- One event of ADD_EP (R236): acceptance when the core is idle; `A0` writes the entry, over whatever was there
(R237), and completes. -/
def execAddEp (id : Ident) (handle : Handle) (s : State) : Result :=
  match s.core.seq with
  | .idle => .next (s.accept (.addEp id handle) (.addEp id handle))
  | .addEp i h => .next (State.complete { s with core.ept := eptInsert s.core.ept i h } .done none)
  | _ => .next s

end Sys2Proof.Machine
end

