-- ==== Sys2Proof/Machine/Boot.lean ====
section
/-! DEFINITION. BOOT (41_boot.md R170 to R175). -/

namespace Sys2Proof.Machine

/-- One event of BOOT (R171): acceptance when the core is idle, `B0` and `B1` while it runs, then the completion, which
sets `booted` (R172). While another command
runs the port is not ready and the command waits (R21). -/
def execBoot (s : State) : Result :=
  match s.core.seq with
  | .idle     => .next (s.accept .boot (.boot .b0))
  | .boot .b0 =>
    andThen (busWrite32 (regAddr s.params .cpuControl) runSet s) (fun t => .next (t.goto (.boot .b1)))
  | .boot .b1 =>
    andThen (busWrite32 (regAddr s.params .cpuControl) runClear s)
      (fun t => .next (t.goto (.ending .boot)))
  | .ending .boot => .next (finish .boot { s with core.booted := true })
  | _ => .next s

end Sys2Proof.Machine
end

