-- ==== Sys2Proof/Machine/Pump.lean ====
section
/-! DEFINITION. PUMP_ONCE and PUMP_FOREVER (44_pump.md R220 to R231). -/

namespace Sys2Proof.Machine

/-- One event of PUMP_ONCE (R221): the receive part, then the dispatch part, with one status read (R222). -/
def execPumpOnce (s : State) : Result :=
  match s.core.seq with
  | .idle => .next (s.accept .pumpOnce (.pumpOnce (.recv .v0)))
  | .pumpOnce (.recv .v0) =>
    andThen (readOutboxEmpty s) (fun x =>
      .next (x.2.goto (if x.1 then .ending .pumpOnceIdle else .pumpOnce (.recv .v1))))
  | .pumpOnce (.recv .v1) => loadRxData (.pumpOnce (.recv .v2)) s
  | .pumpOnce (.recv .v2) => loadRxHeader (.pumpOnce (.recv .v3)) s
  | .pumpOnce (.recv .v3) => .next ((s.traced .rx s.rxFrame).goto (.pumpOnce (.disp .p0)))
  | .pumpOnce (.disp .p0) =>
    .next (lookupEndpoint (.pumpOnce (.disp .p1)) (.pumpOnce (.disp .p2)) s)
  | .pumpOnce (.disp .p1) =>
    .next (takeAnswer (fun t => t.complete .handled none) (.pumpOnce (.disp .p2)) s)
  | .pumpOnce (.disp .p2) => .next (reportUnknown .pumpOnceUnhandled s)
  | .ending .pumpOnceIdle      => .next (finish .pumpOnceIdle s)
  | .ending .pumpOnceUnhandled => .next (finish .pumpOnceUnhandled s)
  | _ => .next s

/-- Where a round of PUMP_FOREVER ends with a truthy status: back to `V0` (R226). -/
def nextRound (s : State) : State := s.goto (.pumpForever (.recv .v0))

/-- Where PUMP_FOREVER goes from an empty outbox: idle is truthy and the loop goes round again (R226, R227), unless the
switch `PUMP_STOP_ON_IDLE` of the losing reading is on. -/
def pumpIdle (p : Params) : Seq :=
  if p.pumpStopOnIdle then .ending .pumpForeverIdle else .pumpForever (.recv .v0)

/-- One event of PUMP_FOREVER (R226): the events of PUMP_ONCE, but `IDLE` and `HANDLED` return to `V0` and only
`UNHANDLED` completes. -/
def execPumpForever (s : State) : Result :=
  match s.core.seq with
  | .idle => .next (s.accept .pumpForever (.pumpForever (.recv .v0)))
  | .pumpForever (.recv .v0) =>
    andThen (readOutboxEmpty s) (fun x =>
      .next (x.2.goto (if x.1 then pumpIdle s.params else .pumpForever (.recv .v1))))
  | .pumpForever (.recv .v1) => loadRxData (.pumpForever (.recv .v2)) s
  | .pumpForever (.recv .v2) => loadRxHeader (.pumpForever (.recv .v3)) s
  | .pumpForever (.recv .v3) => .next ((s.traced .rx s.rxFrame).goto (.pumpForever (.disp .p0)))
  | .pumpForever (.disp .p0) =>
    .next (lookupEndpoint (.pumpForever (.disp .p1)) (.pumpForever (.disp .p2)) s)
  | .pumpForever (.disp .p1) => .next (takeAnswer nextRound (.pumpForever (.disp .p2)) s)
  | .pumpForever (.disp .p2) => .next (reportUnknown .pumpForeverUnhandled s)
  | .ending .pumpForeverIdle      => .next (finish .pumpForeverIdle s)
  | .ending .pumpForeverUnhandled => .next (finish .pumpForeverUnhandled s)
  | _ => .next s

end Sys2Proof.Machine
end

