-- ==== Sys2Proof/Machine/RecvDispatch.lean ====
section
/-! DEFINITION. RECV and DISPATCH (43_recv_dispatch.md R195 to R212). -/

namespace Sys2Proof.Machine

/-- One event of RECV (R196). -/
def execRecv (s : State) : Result :=
  match s.core.seq with
  | .idle     => .next (s.accept .recv (.recv .v0))
  | .recv .v0 =>
    andThen (readOutboxEmpty s) (fun x =>
      .next (x.2.goto (if x.1 then .ending .recvNoMessage else .recv .v1)))
  | .recv .v1 => loadRxData (.recv .v2) s
  | .recv .v2 => loadRxHeader (.recv .v3) s
  | .recv .v3 => .next ((s.traced .rx s.rxFrame).goto (.ending .recvFrame))
  | .ending .recvNoMessage => .next (finish .recvNoMessage s)
  | .ending .recvFrame     => .next (finish .recvFrame s)
  | _ => .next s

/-- Acceptance of DISPATCH (R202). -/
def acceptDispatch (data header : Word64) (s : State) : State :=
  State.accept { s with core.rxData := data, core.rxHeader := header } (.dispatch data header) (.dispatch .p0)

/-- One event of DISPATCH (R207). -/
def execDispatch (data header : Word64) (s : State) : Result :=
  match s.core.seq with
  | .idle         => .next (acceptDispatch data header s)
  | .dispatch .p0 => .next (lookupEndpoint (.dispatch .p1) (.dispatch .p2) s)
  | .dispatch .p1 => .next (takeAnswer (fun t => t.complete .handled none) (.dispatch .p2) s)
  | .dispatch .p2 => .next (reportUnknown .dispatchUnhandled s)
  | .ending .dispatchUnhandled => .next (finish .dispatchUnhandled s)
  | _ => .next s

end Sys2Proof.Machine
end

