-- ==== Sys2Proof/Machine/RegisterAccess.lean ====
section
/-! DEFINITION. The four primitives of the Register Interface (40_register_access.md R150 to R157). -/

namespace Sys2Proof.Machine

/-- READ32 (R151): the value is returned on the bus, in `rdata[31:0]`. -/
def execRead32 (addr : Nat) (s : State) : Result :=
  andThen (busRead32 addr s) (fun x => .next x.2)

/-- WRITE32 (R152). -/
def execWrite32 (addr : Nat) (value : Word32) (s : State) : Result := busWrite32 addr value s

/-- READ64 (R153). -/
def execRead64 (addr : Nat) (s : State) : Result :=
  andThen (busRead64 addr s) (fun x => .next x.2)

/-- WRITE64 (R154). -/
def execWrite64 (addr : Nat) (value : Word64) (s : State) : Result := busWrite64 addr value s

end Sys2Proof.Machine
end

