-- ==== Sys2Proof/Machine/Send.lean ====
section
/-! DEFINITION. SEND (42_send.md R180 to R190). -/

namespace Sys2Proof.Machine

/-- Acceptance of SEND (R181). -/
def acceptSend (data header : Word64) (s : State) : State :=
  State.accept { s with core.txData := data, core.txHeader := header, core.polls := 0 }
    (.send data header) (.send .s0)

/-- `S3`: one read of `INBOX_CTRL`, one more in `POLLS`, and the test of bit 16 (R182, R185, R186): stay, or go on to the
completion. -/
def pollInbox (s : State) : Result :=
  andThen (busRead32 (regAddr s.params .inboxCtrl) s) (fun x =>
    let t : State := { x.2 with core.polls := s.core.polls + 1 }
    .next (if x.1.full then
      if pollGoesOn s.params.sendPollBound (s.core.polls + 1) then t else t.goto (.ending .sendTimeout)
    else t.goto (.ending .sendDone)))

/-- One event of SEND (R182): acceptance when the core is idle, then the trace, the two writes, the poll, and the
completion. The phases act on `TX_DATA` and `TX_HEADER`, which acceptance loaded. -/
def execSend (data header : Word64) (s : State) : Result :=
  match s.core.seq with
  | .idle     => .next (acceptSend data header s)
  | .send .s0 => .next ((s.traced .tx s.txFrame).goto (.send .s1))
  | .send .s1 =>
    andThen (busWrite64 (regAddr s.params .inbox0) s.core.txData s) (fun t => .next (t.goto (.send .s2)))
  | .send .s2 =>
    andThen (busWrite64 (regAddr s.params .inbox1) s.core.txHeader s) (fun t => .next (t.goto (.send .s3)))
  | .send .s3 => pollInbox s
  | .ending .sendDone    => .next (finish .sendDone s)
  | .ending .sendTimeout => .next (finish .sendTimeout s)
  | _ => .next s

end Sys2Proof.Machine
end

