-- ==== Sys2Proof/Machine/Dispatch.lean ====
section
/-! DEFINITION. The one map from instructions to meanings. -/

namespace Sys2Proof.Machine

def exec (i : Instr) (s : State) : Host.Outcome State Fault Refusal :=
  match i with
  | .boot => Sys2Proof.Machine.execBoot s
  | .send data header => Sys2Proof.Machine.execSend data header s
  | .recv => Sys2Proof.Machine.execRecv s
  | .dispatch data header => Sys2Proof.Machine.execDispatch data header s
  | .pumpOnce => Sys2Proof.Machine.execPumpOnce s
  | .pumpForever => Sys2Proof.Machine.execPumpForever s
  | .addEp id handle => Sys2Proof.Machine.execAddEp id handle s
  | .read32 addr => Sys2Proof.Machine.execRead32 addr s
  | .write32 addr value => Sys2Proof.Machine.execWrite32 addr value s
  | .read64 addr => Sys2Proof.Machine.execRead64 addr s
  | .write64 addr value => Sys2Proof.Machine.execWrite64 addr value s

end Sys2Proof.Machine
end

