-- ==== Sys2Proof/Machine/Schedule.lean ====
section
/-! DEFINITION. Who moves next (46_peer_model.md R246), and what a move of the core is (10_state.md R21, R25). -/

namespace Sys2Proof.Machine

/-- A move of the core. A command in progress performs its next event, the completion of a reserved command among
them. An idle core takes the first word HOST holds and starts on it (R124), whether it is a command or not (R127), and does
nothing if there is no word (R324); under `strictHost` a word HOST must not offer is refused (R349). -/
def coreMove (s : State) : Result :=
  match s.core.current with
  | some i => exec i s
  | none =>
    match s.core.seq with
    | .ending e => .next (finish e s)
    | _ =>
      match s.ports.requests with
      | [] => .next s
      | r :: rest =>
        match refusedWord s r with
        | some e => .refused e
        | none =>
          match decodePort s.params r with
          | .ok i => exec i { s with ports.requests := rest }
          | .error (.reservedOpcode op) => .next (illegalCommand op { s with ports.requests := rest })

/-- One move of the agent the schedule names. -/
def takeMove (m : Move) (s : State) : Result :=
  match m with
  | .core      => coreMove s
  | .accept    => .next (peerAccept s)
  | .post f    => .next (peerPost f s)
  | .answer b  => .next (endpointAnswer b s)
  | .respond v => .next (busRespond v s)
  | .coreReset => .next (coreReset s)
  | .peerReset => .next (peerReset s)

/-- The next move of the schedule; with nothing scheduled the core moves. -/
def nextMove (s : State) : Move := s.ports.moves.headD .core

/-- The next move, taken off the schedule. -/
def moveOnce (s : State) : Result :=
  takeMove (nextMove s) { s with ports.moves := s.ports.moves.tail }

/-- A word placed where the next move takes its instruction: the core idle, the word first among HOST's, the core next
to move. The word comes from outside and not from HOST, so HOST's duties are not asked of it (notes/assumptions/23.md). -/
def placeWord (w : PortWord) (s : State) : State :=
  { s with
    params.strictHost := false
    core.seq       := .idle
    ports.requests := w :: s.ports.requests
    ports.moves    := .core :: s.ports.moves }

end Sys2Proof.Machine
end

