-- ==== Sys2Proof/Machine/Step.lean ====
section
/-! DEFINITION. One step of the machine: one event of one agent (00_scope.md R10, inventory item 1). -/

namespace Sys2Proof.Machine

/-- One step. Parameters outside their constraints are refused (R7, R76, U18). -/
def step (s : State) : Host.Outcome State Fault Refusal :=
  if s.params.wf then moveOnce s else .refused .parameters

/-- The state with a table word where the next step takes its instruction. -/
def State.withFetchWord (s : State) (nbits w : Nat) : State := placeWord (tablePort nbits w) s

end Sys2Proof.Machine
end

