-- ==== Sys2Proof/Machine/Ports.lean ====
section
/-! DEFINITION. The words that cross the ports outward (30_encoding.md R128 to R133): completion, bus, endpoint, trace,
and the text of a trace line. No rule of the core reads them. -/

namespace Sys2Proof.Machine

/-- The status codes (R128). -/
def Status.code : Status → BitVec 3
  | .done       => 0
  | .noMessage  => 1
  | .frame      => 2
  | .idle       => 3
  | .handled    => 4
  | .unhandled  => 5
  | .timeout    => 6
  | .illegalCmd => 7

/-- The kinds of trace event (R132). -/
def TraceKind.code : TraceKind → BitVec 2
  | .tx      => 0
  | .rx      => 1
  | .unknown => 2

/-- `RSP = {status, header, data}` (R128). Where the status carries no frame the two words are unspecified, so they
are an argument: nothing the model says of a completion depends on them. -/
def completionWord (status : Status) (frame : Option Frame) (unspecified : Frame) : BitVec 131 :=
  status.code ++ frameWord (frame.getD unspecified)

/-- `EPREQ = {handle, header, data}` (R131). -/
def EpReq.word (p : Params) (r : EpReq) : BitVec (p.epHandleW + (64 + 64)) :=
  r.handle.setWidth p.epHandleW ++ (r.header ++ r.data)

/-- `TRC = {kind, ep, header, data}` (R132). -/
def TraceEvent.word (t : TraceEvent) : BitVec 138 :=
  t.kind.code ++ t.ep ++ frameWord t.frame

/-- The bus transaction word of an event (R130); none for an event of another port. -/
def Event.busWord (p : Params) : Event → Option Nat
  | .memRead a 4 _  => some (Sys2Proof.busWord p 0 a 0)
  | .memRead a _ _  => some (Sys2Proof.busWord p 2 a 0)
  | .memWrite a 4 v => some (Sys2Proof.busWord p 1 a v)
  | .memWrite a _ v => some (Sys2Proof.busWord p 3 a v)
  | .accept _       => none
  | .acceptReserved _ => none
  | .epCall _       => none
  | .trace _        => none
  | .complete _ _   => none

/-! ### The text of a trace line (R133) -/

/-- A lowercase hexadecimal digit. -/
def hexDigit (n : Nat) : Char :=
  ['0', '1', '2', '3', '4', '5', '6', '7', '8', '9', 'a', 'b', 'c', 'd', 'e', 'f'].getD n '0'

/-- `digits` hexadecimal digits of `n`, the most significant first. -/
def hexText : Nat → Nat → List Char
  | 0, _ => []
  | k + 1, n => hexDigit (n / 16 ^ k % 16) :: hexText k n

/-- The line of a trace event: `> EP:data`, `< EP:data`, or `? EP:data header` (R133, D8; the spec's own rendering). -/
def TraceEvent.line (t : TraceEvent) : List Char :=
  let body := ' ' :: hexText 2 t.ep.toNat ++ ':' :: hexText 16 t.frame.data.toNat
  match t.kind with
  | .tx      => '>' :: body
  | .rx      => '<' :: body
  | .unknown => '?' :: body ++ ' ' :: hexText 16 t.frame.header.toNat

end Sys2Proof.Machine
end

