-- ==== Sys2Proof/Safety.lean ====
section
/-! DEFINITION. The terms claims are stated in: the source's four states, the invariants, HOST's duties. -/

namespace Sys2Proof.Machine

/-! ### The source's state machine (10_state.md R22) -/

/-- The four states of the source. -/
inductive SourceState where
  | unbooted | bootedIdle | sending | receiving
  deriving DecidableEq, Repr

/-- The source's state of a command in its last phase. -/
def Ending.sourceState : Ending → Option SourceState
  | .boot                 => none
  | .sendDone             => some .sending
  | .sendTimeout          => some .sending
  | .recvNoMessage        => some .receiving
  | .recvFrame            => some .receiving
  | .dispatchUnhandled    => some .receiving
  | .pumpOnceIdle         => some .receiving
  | .pumpOnceUnhandled    => some .receiving
  | .pumpForeverIdle      => some .receiving
  | .pumpForeverUnhandled => some .receiving
  | .reserved _           => none

/-- The source's state as a function of `booted` and `seq.op`; BOOT and ADD_EP in progress have no name there (R22), nor
has a reserved command. -/
def CoreState.sourceState (c : CoreState) : Option SourceState :=
  match c.seq with
  | .idle          => some (if c.booted then .bootedIdle else .unbooted)
  | .send _        => some .sending
  | .recv _        => some .receiving
  | .dispatch _    => some .receiving
  | .pumpOnce _    => some .receiving
  | .pumpForever _ => some .receiving
  | .boot _        => none
  | .addEp _ _     => none
  | .ending e      => e.sourceState

/-! ### The invariant every step keeps -/

/-- The handle an ADD_EP in progress has yet to write fits `EP_HANDLE_W` bits. -/
def Seq.handleFits (w : Nat) : Seq → Bool
  | .addEp _ h => decide (h.toNat < 2 ^ w)
  | _          => true

/-- The sequencer waits for an endpoint's answer (phase `P1` of any command). -/
def Seq.awaitsAnswer : Seq → Bool
  | .dispatch .p1            => true
  | .pumpOnce (.disp .p1)    => true
  | .pumpForever (.disp .p1) => true
  | _                        => false

/-- `POLLS` during a SEND: 0 before the first poll, below a finite bound after (R26, R182). -/
def CoreState.pollsOk (bound : Option Nat) (c : CoreState) : Bool :=
  match c.seq with
  | .send .s3 => pollGoesOn bound c.polls
  | .send _   => decide (c.polls = 0)
  | _         => true

/-- A command completes with `TIMEOUT` under a poll bound only, PUMP_FOREVER with `IDLE` under the switch only (R128, R227),
and a reserved command has a reserved opcode (R127). -/
def Seq.endingOk (p : Params) : Seq → Bool
  | .ending .sendTimeout     => p.sendPollBound.isSome
  | .ending .pumpForeverIdle => p.pumpStopOnIdle
  | .ending (.reserved op)   => decide (op = 0x0 ∨ 0x8 ≤ op.toNat)
  | _                        => true

/-- What every reachable state satisfies: legal parameters (R7), queues within their depths (R42), a canonical Endpoint
Table of handles that fit (R27), and an outstanding request, carrying the frame received, while an answer is awaited
(R204, R207), and completions that the parameters allow (R129). -/
structure State.Inv (s : State) : Prop where
  params   : s.params.wf = true
  inbox    : s.peer.inQ.length ≤ s.params.inboxDepth
  outbox   : s.peer.outQ.length ≤ s.params.outboxDepth
  sorted   : eptSorted s.core.ept = true
  handles  : eptHandlesFit s.params.epHandleW s.core.ept = true
  pending  : Seq.handleFits s.params.epHandleW s.core.seq = true
  awaiting : s.core.seq.awaitsAnswer = true → ∃ h, s.ports.epReq = some ⟨h, s.core.rxHeader, s.core.rxData⟩
  polls    : s.core.pollsOk s.params.sendPollBound = true
  ending   : s.core.seq.endingOk s.params = true

/-! ### The two invariants of ownership and ordering (20_memory.md R88 to R90) -/

/-- The receive part has read `EMPTY = 0` and not yet consumed the frame (phases `V1`, `V2`). -/
def Seq.holdsHead : Seq → Bool
  | .recv .v1                => true
  | .recv .v2                => true
  | .pumpOnce (.recv .v1)    => true
  | .pumpOnce (.recv .v2)    => true
  | .pumpForever (.recv .v1) => true
  | .pumpForever (.recv .v2) => true
  | _                        => false

/-- The receive part has taken the data word and not yet the header (phase `V2`). -/
def Seq.holdsData : Seq → Bool
  | .recv .v2                => true
  | .pumpOnce (.recv .v2)    => true
  | .pumpForever (.recv .v2) => true
  | _                        => false

/-- R88, in the closed form: between the status read and the read of `OUTBOX1` the outbox is not empty, and the data
word taken is that of the frame still at its head. -/
structure State.OutboxCoherent (s : State) : Prop where
  closed   : s.params.openForm = false
  nonempty : s.core.seq.holdsHead = true → s.peer.outQ ≠ []
  data     : s.core.seq.holdsData = true → ∃ f rest, s.peer.outQ = f :: rest ∧ s.core.rxData = f.data

/-- R89, in the closed form with no poll bound: outside the poll of a SEND the inbox has room. -/
structure State.InboxRoom (s : State) : Prop where
  closed  : s.params.openForm = false
  noBound : s.params.sendPollBound = none
  room    : s.core.seq ≠ .send .s3 → s.peer.inQ.length < s.params.inboxDepth

/-- R90: between the two writes of a SEND the staging latch holds the data word of that SEND. -/
def State.Staged (s : State) : Prop :=
  s.core.seq = .send .s2 → s.peer.inStage = s.core.txData

/-! ### What HOST does (70_reset_and_hazards.md R349) -/

/-- A word for the command port. -/
def isCommandWord : PortWord → Bool
  | .cmd _ => true
  | .bus _ => false

/-- Every word HOST holds is a command: no software drives the Register Interface beside the core (R31). -/
def State.onlyCommands (s : State) : Bool := s.ports.requests.all isCommandWord

/-- Whether a word is a BOOT. -/
def isBootWord (p : Params) (w : PortWord) : Bool :=
  match decodePort p w with
  | .ok .boot => true
  | _         => false

/-- HOST's duties on the words it offers, from the values of `booted` and `started`: each is one it may offer when its turn
comes, a BOOT among them counting for those behind it (R349, U8, U14, U15, U17). -/
def hostDuties (p : Params) (booted started : Bool) : List PortWord → Bool
  | [] => true
  | w :: rest => (hostMisuse p booted started w).isNone && hostDuties p (booted || isBootWord p w) started rest

/-- Words the machine takes one after the other: always, but for HOST's duties under `strictHost`. -/
def State.taken (s : State) (ws : List PortWord) : Prop :=
  s.params.strictHost = true → hostDuties s.params s.core.booted s.peer.started ws = true

/-- The command in progress is one HOST may have offered: none but BOOT and ADD_EP before BOOT, no BOOT after it, no reserved
opcode (R325, R330, R349). -/
def CoreState.ordered (c : CoreState) : Bool :=
  match c.current with
  | none            => decide (c.seq = .idle)
  | some .boot      => !c.booted
  | some (.addEp ..) => true
  | some _          => c.booted

/-! ### The sequencer's operation and the order of its phases (R21, R23, R25) -/

/-- The opcode of a command in its last phase (R125). -/
def Ending.op : Ending → BitVec 4
  | .boot                 => 0x1
  | .sendDone             => 0x2
  | .sendTimeout          => 0x2
  | .recvNoMessage        => 0x3
  | .recvFrame            => 0x3
  | .dispatchUnhandled    => 0x4
  | .pumpOnceIdle         => 0x5
  | .pumpOnceUnhandled    => 0x5
  | .pumpForeverIdle      => 0x6
  | .pumpForeverUnhandled => 0x6
  | .reserved op          => op

/-- `seq.op`, by its opcode (R125); none when idle. -/
def Seq.op : Seq → Option (BitVec 4)
  | .idle          => none
  | .boot _        => some 0x1
  | .send _        => some 0x2
  | .recv _        => some 0x3
  | .dispatch _    => some 0x4
  | .pumpOnce _    => some 0x5
  | .pumpForever _ => some 0x6
  | .addEp _ _     => some 0x7
  | .ending e      => some e.op

/-- The place of a phase of the receive part. -/
def RecvPhase.rank : RecvPhase → Nat
  | .v0 => 0
  | .v1 => 1
  | .v2 => 2
  | .v3 => 3

/-- The place of a phase of the dispatch part. -/
def DispPhase.rank : DispPhase → Nat
  | .p0 => 0
  | .p1 => 1
  | .p2 => 2

/-- The place of a phase of a pump: the receive part, then the dispatch part. -/
def PumpPhase.rank : PumpPhase → Nat
  | .recv v => v.rank
  | .disp p => 4 + p.rank

/-- The place of a phase in the order R23 lists the phases of its command; the completion comes last. -/
def Seq.rank : Seq → Nat
  | .idle          => 0
  | .boot .b0      => 0
  | .boot .b1      => 1
  | .send .s0      => 0
  | .send .s1      => 1
  | .send .s2      => 2
  | .send .s3      => 3
  | .recv v        => v.rank
  | .dispatch p    => p.rank
  | .pumpOnce p    => p.rank
  | .pumpForever p => p.rank
  | .addEp _ _     => 0
  | .ending _      => 7

/-- HOST has kept its duties so far and will keep them with the words it holds: BOOT first and once (R325, R330, R349).
A BOOT in progress counts as done for the words behind it. -/
structure State.DutiesHeld (s : State) : Prop where
  words   : hostDuties s.params (s.core.booted || decide (s.core.seq.op = some 0x1)) s.peer.started
    s.ports.requests = true
  ordered : s.core.ordered = true

/-! ### Commands and their statuses (30_encoding.md R125, R129) -/

/-- The opcode of a command (R125); none for a bus primitive. -/
def commandOp : Instr → Option (BitVec 4)
  | .boot         => some 0x1
  | .send _ _     => some 0x2
  | .recv         => some 0x3
  | .dispatch _ _ => some 0x4
  | .pumpOnce     => some 0x5
  | .pumpForever  => some 0x6
  | .addEp _ _    => some 0x7
  | .read32 _     => none
  | .write32 _ _  => none
  | .read64 _     => none
  | .write64 _ _  => none

/-- Which status each command can complete with (R129): `TIMEOUT` only with a finite poll bound (R128), PUMP_FOREVER
with `IDLE` only under the switch of the losing reading (R227). -/
def statusAllowed (p : Params) : Instr → Status → Bool
  | .boot, st         => decide (st = .done)
  | .send _ _, st     => decide (st = .done) || (decide (st = .timeout) && p.sendPollBound.isSome)
  | .recv, st         => decide (st = .noMessage) || decide (st = .frame)
  | .dispatch _ _, st => decide (st = .handled) || decide (st = .unhandled)
  | .pumpOnce, st     => decide (st = .idle) || decide (st = .handled) || decide (st = .unhandled)
  | .pumpForever, st  => decide (st = .unhandled) || (decide (st = .idle) && p.pumpStopOnIdle)
  | .addEp _ _, st    => decide (st = .done)
  | .read32 _, _      => false
  | .write32 _ _, _   => false
  | .read64 _, _      => false
  | .write64 _ _, _   => false

/-! ### Views of the event log -/

/-- An event of the Register Interface, the Endpoint port or the Diagnostic port: all but acceptance and completion. -/
def Event.isTraffic : Event → Bool
  | .memRead _ _ _    => true
  | .memWrite _ _ _   => true
  | .epCall _         => true
  | .trace _          => true
  | .accept _         => false
  | .acceptReserved _ => false
  | .complete _ _     => false

/-- What a run showed on the three outward ports. -/
def State.traffic (s : State) : List Event := s.ports.events.filter Event.isTraffic

/-- The next state of an outcome, where there is one. -/
def nextOf (x : Result) : Option State :=
  match x with
  | .next s    => some s
  | .fault _   => none
  | .refused _ => none

/-! ### What an event of a command does, as statements say it -/

/-- From `s` to `t`: the core and PEER become what is said, the events said are appended, and everything else is as
before but the bus port (`response`, `rdata`) and the count of draws. -/
def State.Becomes (s t : State) (core : CoreState) (peer : Mailbox) (added : List Event) : Prop :=
  t.params = s.params ∧ t.core = core ∧ t.peer = peer ∧
  t.ports.requests = s.ports.requests ∧ t.ports.moves = s.ports.moves ∧
  t.ports.epReq = s.ports.epReq ∧ t.ports.epAnswer = s.ports.epAnswer ∧
  t.ports.events = s.ports.events ++ added

/-- Phase `V0` (R196): one read of `OUTBOX_CTRL`, whose bit 17 alone decides: if it is 1 the sequencer goes to `whenEmpty`,
if it is 0 to `whenFrame`. In the closed form the bit says whether the
outbox is empty; in the open form the value is the responder's. -/
def ReadsOutboxStatus (i : Instr) (s : State) (whenEmpty whenFrame : Seq) : Prop :=
  ∃ (v : Word32) (t : State), exec i s = .next t ∧
    (s.params.openForm = false → v[17] = decide (s.peer.outQ = [])) ∧
    (s.params.openForm = true → ∀ x, s.ports.response = some x → v = x.extractLsb' 0 32) ∧
    s.Becomes t { s.core with seq := if v[17] then whenEmpty else whenFrame } s.peer
      [.memRead (s.params.base + 0x8114) 4 (v.setWidth 64)]

/-- Phase `V1` (R196): `RX_DATA` takes one read of `OUTBOX0`, the data word of the frame at the head of the outbox. -/
def ReadsOutboxData (i : Instr) (s : State) (nextPhase : Seq) : Prop :=
  ∃ (v : Word64) (t : State), exec i s = .next t ∧
    (s.params.openForm = false → ∀ f rest, s.peer.outQ = f :: rest → v = f.data) ∧
    (s.params.openForm = true → ∀ x, s.ports.response = some x → v = x) ∧
    s.Becomes t { s.core with rxData := v, seq := nextPhase } s.peer [.memRead (s.params.base + 0x8830) 8 v]

/-- Phase `V2` (R196): `RX_HEADER` takes one read of `OUTBOX1`, the header word of that frame, which leaves the
outbox. -/
def ReadsOutboxHeader (i : Instr) (s : State) (nextPhase : Seq) : Prop :=
  ∃ (v : Word64) (t : State), exec i s = .next t ∧
    (s.params.openForm = false → ∀ f rest, s.peer.outQ = f :: rest → v = f.header) ∧
    (s.params.openForm = true → ∀ x, s.ports.response = some x → v = x) ∧
    s.Becomes t { s.core with rxHeader := v, seq := nextPhase }
      (if s.params.openForm then s.peer else { s.peer with outQ := s.peer.outQ.tail })
      [.memRead (s.params.base + 0x8838) 8 v]

/-- Phase `P0` (R207): the entry of `RX_HEADER[7:0]` decides; on a hit exactly one request is made, of the handle
registered there, with both words as received. -/
def LooksUpEndpoint (i : Instr) (s : State) (onHit onMiss : Seq) : Prop :=
  (∀ h, eptLookup s.core.ept (s.core.rxHeader.extractLsb' 0 8) = some h →
    exec i s = .next { s with
      core.seq       := onHit
      ports.epReq    := some ⟨h, s.core.rxHeader, s.core.rxData⟩
      ports.epAnswer := none
      ports.events   := s.ports.events ++ [.epCall ⟨h, s.core.rxHeader, s.core.rxData⟩] }) ∧
  (eptLookup s.core.ept (s.core.rxHeader.extractLsb' 0 8) = none →
    exec i s = .next { s with core.seq := onMiss })

/-- Phase `P1` (R207): the answer is latched in `HND` and the request is over; if it is 1 the sequencer goes to
`whenHandled` and `handledEvents` follow, if it is 0 it goes to `onRefused`; while there is none, nothing happens. -/
def TakesEndpointAnswer (i : Instr) (s : State) (whenHandled : Seq) (handledEvents : List Event) (onRefused : Seq) :
    Prop :=
  (∀ b, s.ports.epAnswer = some b →
    exec i s = .next { s with
      core.hnd       := b
      core.seq       := if b then whenHandled else onRefused
      ports.epReq    := none
      ports.epAnswer := none
      ports.events   := s.ports.events ++ if b then handledEvents else [] }) ∧
  (s.ports.epAnswer = none → exec i s = .next s)

/-- Phase `P2` (R207): the unknown trace event, carrying the frame received; what is left is the completion `e`. -/
def ReportsUnknown (i : Instr) (s : State) (e : Ending) : Prop :=
  exec i s = .next { s with
    core.seq     := .ending e
    ports.events := s.ports.events ++
      [.trace ⟨.unknown, s.core.rxHeader.extractLsb' 0 8, ⟨s.core.rxData, s.core.rxHeader⟩⟩] }

/-- The completion event (R21, R128): the sequencer becomes idle and one completion is given. -/
def Completes (i : Instr) (s : State) (status : Status) (frame : Option Frame) : Prop :=
  exec i s = .next { s with
    core.seq     := .idle
    ports.events := s.ports.events ++ [.complete status frame] }

end Sys2Proof.Machine
end

