-- ==== Sys2Proof/Certificates/Slice0/Obligations.lean ====
section
/-! DEFINITION. The statements for the provers. Each docstring names the rule of spec/ it formalises. Who moves next is the
schedule `Ports.moves`, the model's own way to let the spec's agents interleave (notes/assumptions/2.md); a statement about
one agent's step takes as a premise that the schedule gives it the move. -/

open Sys2Proof Sys2Proof.Machine

/-! ### Reset -/

/-- R43 and R44 (the spec's decisions D38 and D39), every value they give: the core Unbooted and idle, no entry valid,
`POLLS` 0; `RUN` 0, the coprocessor not started, both queues empty and their flags to match, nothing delivered. -/
def Obligations.ResetStateHoldsTheValuesGiven : Prop :=
  State.reset.core.booted = false ∧ State.reset.core.seq = .idle ∧
  (∀ id, eptLookup State.reset.core.ept id = none) ∧ State.reset.core.polls = 0 ∧
  State.reset.core.sourceState = some .unbooted ∧
  runBit State.reset.peer.cpuControl = false ∧ State.reset.peer.started = false ∧
  State.reset.peer.inQ = [] ∧ State.reset.peer.outQ = [] ∧ State.reset.peer.delivered = [] ∧
  inboxFull State.reset = false ∧ inboxEmpty State.reset = true ∧
  outboxFull State.reset = false ∧ outboxEmpty State.reset = true

/-- The reset state meets every invariant below. It rests on R43 and R44, which are the spec's decisions D38 and D39. -/
def Obligations.ResetStateMeetsTheInvariants : Prop :=
  State.reset.Inv ∧ State.reset.OutboxCoherent ∧ State.reset.InboxRoom ∧ State.reset.Staged ∧ State.reset.DutiesHeld

/-- R320, R322 and R323 (the spec's decision D38): a core reset, in any phase of any command, puts the core at the
values of R43, gives no completion, drops an outstanding request, and leaves PEER and what HOST holds as they were.
Nothing is said of the holding registers and `HND`, which are unspecified. That HOST's words stay offered is the model's
choice (notes/assumptions/21.md). -/
def Obligations.CoreResetAbandonsTheCommand : Prop :=
  ∀ s : State, s.params.wf = true → nextMove s = .coreReset →
    ∃ t, step s = .next t ∧
      t.core.booted = false ∧ t.core.seq = .idle ∧ (∀ id, eptLookup t.core.ept id = none) ∧ t.core.polls = 0 ∧
      t.peer = s.peer ∧ t.params = s.params ∧ t.ports.requests = s.ports.requests ∧
      t.ports.events = s.ports.events ∧ t.ports.epReq = none ∧ t.ports.epAnswer = none ∧
      t.ports.moves = s.ports.moves.tail

/-- R322 and R44 (the spec's decisions D38 and D39): PEER's own reset puts the register set and the queues at the values
of R44 and leaves the core. Nothing is said of `IN_STAGE`, `ENABLE` and the other bits of `CPU_CONTROL`, which are
unspecified. -/
def Obligations.PeerResetLeavesTheCore : Prop :=
  ∀ s : State, s.params.wf = true → nextMove s = .peerReset →
    ∃ t, step s = .next t ∧
      runBit t.peer.cpuControl = false ∧ t.peer.started = false ∧ t.peer.inQ = [] ∧ t.peer.outQ = [] ∧
      t.peer.delivered = [] ∧ t.core = s.core ∧ t.params = s.params ∧
      t.ports.requests = s.ports.requests ∧ t.ports.events = s.ports.events ∧ t.ports.epReq = s.ports.epReq ∧
      t.ports.epAnswer = s.ports.epAnswer ∧ t.ports.moves = s.ports.moves.tail

/-! ### Encoding -/

/-- R124 to R126 and R130 (the spec's decisions D1, D2, D5, D6): every well-formed instruction, under every legal choice
of the parameters, is read back from its word. -/
def Obligations.DecodeGivesBackEveryEncodedInstruction : Prop :=
  ∀ (p : Params) (i : Instr), p.wf = true → i.wf p = true → decodePort p (encode p i) = .ok i

/-- R126 and R130 (the spec's decisions D5 and D6): whatever word the decoders read, its instruction is well-formed but
for the alignment of an address. -/
def Obligations.DecodedOperandsLieInTheirRanges : Prop :=
  ∀ (p : Params) (w : PortWord) (i : Instr), p.wf = true → decodePort p w = .ok i →
    match i with
    | .addEp _ h   => h.toNat < 2 ^ p.epHandleW
    | .read32 a    => a < 2 ^ p.addrW
    | .write32 a _ => a < 2 ^ p.addrW
    | .read64 a    => a < 2 ^ p.addrW
    | .write64 a _ => a < 2 ^ p.addrW
    | _            => True

/-- Words written out in the spec's worked examples (R175, R190, R201, R212, R225, R231, R241 and vectors 2.1) decode to
the instructions they are printed beside. The encodings are the spec's decisions D1, D2 and D6. -/
def Obligations.WordsOfTheWorkedExamplesDecode : Prop :=
  decodeTableWord 132 0x1_0000000000000000_0000000000000000 = some .boot ∧
  decodeTableWord 132 0x2_0000000000000020_0000000000000001 = some (.send 0x1 0x20) ∧
  decodeTableWord 132 0x3_0000000000000000_0000000000000000 = some .recv ∧
  decodeTableWord 132 0x4_0000000000000020_000000000000dead = some (.dispatch 0xdead 0x20) ∧
  decodeTableWord 132 0x5_0000000000000000_0000000000000000 = some .pumpOnce ∧
  decodeTableWord 132 0x6_0000000000000000_0000000000000000 = some .pumpForever ∧
  decodeTableWord 132 0x7_0000000000000001_0000000000000020 = some (.addEp 0x20 0x01) ∧
  decodeTableWord 132 0x9_0000000000000020_000000000000dead = none ∧
  decodeTableWord 130 0x0_0000000000008110_0000000000000000 = some (.read32 0x8110) ∧
  decodeTableWord 130 0x1_0000000000000044_0000000000000010 = some (.write32 0x0044 0x10) ∧
  decodeTableWord 130 0x2_0000000000008838_0000000000000000 = some (.read64 0x8838) ∧
  decodeTableWord 130 0x3_0000000000008808_0000000000000020 = some (.write64 0x8808 0x20)

/-- R128, R131, R132 and R133 (the spec's decisions D3, D7 and D8) on the spec's own examples (S3, S4, S9, vectors 2.4,
program P5). -/
def Obligations.PortWordsOfTheWorkedExamples : Prop :=
  (∀ u, (completionWord .frame (some ⟨0xdead, 0x20⟩) u).toNat = 0x2_0000000000000020_000000000000dead) ∧
  (EpReq.word Params.default ⟨0x05, 0x20, 0xdead⟩).toNat = 0x05_0000000000000020_000000000000dead ∧
  (TraceEvent.word ⟨.unknown, 0x21, ⟨0xbeef, 0x21⟩⟩).toNat = 0x2_21_0000000000000021_000000000000beef ∧
  TraceEvent.line ⟨.tx, 0x20, ⟨0x1, 0x20⟩⟩ = "> 20:0000000000000001".toList ∧
  TraceEvent.line ⟨.rx, 0x20, ⟨0xdead, 0x20⟩⟩ = "< 20:000000000000dead".toList ∧
  TraceEvent.line ⟨.unknown, 0x21, ⟨0xbeef, 0x21⟩⟩ = "? 21:000000000000beef 0000000000000021".toList

/-- R121, at every width: bits `hi:lo` of the result are the low bits of `f`, every other bit is that of `v`. -/
def Obligations.FieldInsertionReplacesTheFieldAlone : Prop :=
  ∀ (n : Nat) (v f : BitVec n) (hi lo : Nat), lo ≤ hi → hi < n → ∀ k, k < n →
    (fieldInsert v hi lo f).getLsbD k = if lo ≤ k ∧ k ≤ hi then f.getLsbD (k - lo) else v.getLsbD k

/-! ### The step -/

/-- R21, R25, R124 and R324: when the core is next to move, a command in progress performs its next event; an idle core
runs the instruction its first offered word decodes to, that word taken; with no word it does nothing. The step takes
the move off the schedule and adds nothing else. A word HOST must not offer is refused (R349) while the
model's switch `strictHost` is on, as in the reset state. One step for each event, the lists of words and moves, and the
switch are the model's choices (notes/assumptions/1.md, 2.md, 3.md, 36.md). -/
def Obligations.StepRunsTheDecodedInstruction : Prop :=
  ∀ s : State, s.params.wf = true → nextMove s = .core →
    (∀ i, s.core.current = some i → step s = exec i { s with ports.moves := s.ports.moves.tail }) ∧
    (∀ w rest i, s.core.seq = .idle → s.ports.requests = w :: rest → refusedWord s w = none →
      decodePort s.params w = .ok i →
      step s = exec i { s with ports.moves := s.ports.moves.tail, ports.requests := rest }) ∧
    (∀ w rest e, s.core.seq = .idle → s.ports.requests = w :: rest → refusedWord s w = some e → step s = .refused e) ∧
    (s.core.seq = .idle → s.ports.requests = [] → step s = .next { s with ports.moves := s.ports.moves.tail })

/-- A placed word, whatever it is, is run by the very next step, on the state it was placed in with the core idle and the
switch `strictHost` off. Placing a word is the model's own way to load one; it comes from outside and not from HOST, so
HOST's duties are not asked of it (notes/assumptions/23.md, 36.md). -/
def Obligations.PlacedWordIsRunNext : Prop :=
  ∀ (s : State) (nbits w : Nat) (i : Instr), s.params.wf = true → decodePort s.params (tablePort nbits w) = .ok i →
    step (s.withFetchWord nbits w) = exec i { s with core.seq := .idle, params.strictHost := false }

/-- R127 and X5 of R280 (the spec's decisions D3 and D4): a reserved opcode (0x0, 0x8 to 0xF) is accepted, changes no
state and completes at once with `ILLEGAL_CMD`: no event of the core lies between the two; no register transaction, no
endpoint call, no trace event. To run it where the switch `strictHost` is off, while R134 would have a model refuse, and to
give the completion a step of its own, are the model's choices (notes/assumptions/8.md, 35.md). -/
def Obligations.ReservedOpcodeCompletesWithIllegalCmd : Prop :=
  ∀ s : State, s.params.wf = true → nextMove s = .core →
    (∀ (w : BitVec 132) (rest : List PortWord), s.params.strictHost = false → s.core.seq = .idle →
      s.ports.requests = .cmd w :: rest → (cmdOp w = 0x0 ∨ 0x8 ≤ (cmdOp w).toNat) →
      step s = .next { s with
        core.seq       := .ending (.reserved (cmdOp w))
        ports.moves    := s.ports.moves.tail
        ports.requests := rest
        ports.events   := s.ports.events ++ [.acceptReserved (cmdOp w)] }) ∧
    (∀ op, s.core.seq = .ending (.reserved op) → step s = .next { s with
      core.seq     := .idle
      ports.moves  := s.ports.moves.tail
      ports.events := s.ports.events ++ [.complete .illegalCmd none] })

/-- R349 with R31, R126, R127, R22, R174 and R322 (the spec's decisions D4, D5, D24 and D46; U8, U14, U15, U17): where the
switch `strictHost` is on, as in the reset state, a word that HOST must not offer to an idle core is refused under the name
of the duty it breaks: an access of software beside the core, a reserved opcode, a set operand bit that the command does not
use, a second BOOT, be it after a BOOT or after a reset of the core that left the coprocessor started, traffic before BOOT.
That there is a switch is the model's choice (notes/assumptions/36.md). -/
def Obligations.MisuseIsRefusedUnderTheSwitch : Prop :=
  ∀ (s : State) (w : PortWord) (rest : List PortWord), s.params.wf = true → s.params.strictHost = true →
    nextMove s = .core → s.core.seq = .idle → s.ports.requests = w :: rest →
    (∀ n, w = .bus n → step s = .refused .hostOnRegisters) ∧
    (∀ c, w = .cmd c → (cmdOp c = 0x0 ∨ 0x8 ≤ (cmdOp c).toNat) → step s = .refused (.reservedCommand (cmdOp c))) ∧
    (∀ c i, w = .cmd c → decodeCmd s.params c = .ok i → encode s.params i ≠ w →
      step s = .refused .reservedOperandBits) ∧
    (w = encode s.params .boot → (s.core.booted = true ∨ s.peer.started = true) → step s = .refused .secondBoot) ∧
    (s.core.booted = false →
      (w = encode s.params .recv ∨ w = encode s.params .pumpOnce ∨ w = encode s.params .pumpForever ∨
        ∃ d h, w = encode s.params (.send d h) ∨ w = encode s.params (.dispatch d h)) →
      step s = .refused .beforeBoot)

/-- R126 (the spec's decision D5): the operand bits a command does not use change nothing the core decodes. To decode
such a word, where R134 would have a model refuse, is the model's choice (notes/assumptions/8.md). -/
def Obligations.UnusedOperandBitsAreIgnored : Prop :=
  ∀ (p : Params) (a1 a0 : Word64),
    decodeCmd p (cmdWord 0x1 a1 a0) = .ok .boot ∧ decodeCmd p (cmdWord 0x3 a1 a0) = .ok .recv ∧
    decodeCmd p (cmdWord 0x5 a1 a0) = .ok .pumpOnce ∧ decodeCmd p (cmdWord 0x6 a1 a0) = .ok .pumpForever ∧
    decodeCmd p (cmdWord 0x7 a1 a0) =
      decodeCmd p (cmdWord 0x7 (BitVec.ofNat 64 (a1.toNat % 2 ^ p.epHandleW)) ((a0.extractLsb' 0 8).setWidth 64))

/-- R21 (the spec's decision D31): while a command runs, another command offered to the core waits and nothing changes
(notes/assumptions/33.md). -/
def Obligations.CommandOfferedWhileAnotherRunsWaits : Prop :=
  ∀ (s : State) (i j : Instr) (a b : BitVec 4), s.core.current = some j → commandOp i = some a →
    commandOp j = some b → a ≠ b → exec i s = .next s

/-! ### The seven commands, phase by phase -/

/-- R171 to R173 (the spec's decision D23): acceptance, `B0`, `B1`, completion. Two 32-bit writes of `CPU_CONTROL`, 0x10 then
0, no read and no test; `booted` at completion; nothing else changes. The two constants written with no read are D23; PEER's
side, `CPU_CONTROL` and `started`, is R248 (the spec's decision D40; notes/assumptions/30.md, 31.md); in the open form nothing
is known of the register, and `started` says that the pulse has gone out (12.md). The completion is a step of its own (35.md). -/
def Obligations.BootEventsInOrder : Prop :=
  ∀ s : State, s.params.wf = true →
    (s.core.seq = .idle → exec .boot s = .next { s with
      core.seq := .boot .b0, ports.events := s.ports.events ++ [.accept .boot] }) ∧
    (s.core.seq = .boot .b0 → exec .boot s = .next { s with
      core.seq     := .boot .b1
      peer         := { s.peer with cpuControl := if s.params.openForm then s.peer.cpuControl else 0x10, started := true }
      ports.events := s.ports.events ++ [.memWrite (s.params.base + 0x0044) 4 0x10] }) ∧
    (s.core.seq = .boot .b1 → exec .boot s = .next { s with
      core.seq     := .ending .boot
      peer         := { s.peer with cpuControl := if s.params.openForm then s.peer.cpuControl else 0 }
      ports.events := s.ports.events ++ [.memWrite (s.params.base + 0x0044) 4 0x0] }) ∧
    (s.core.seq = .ending .boot → exec .boot s = .next { s with
      core.seq     := .idle
      core.booted  := true
      ports.events := s.ports.events ++ [.complete .done none] })

/-- R171 (the spec's decision D23) as a run: with the core alone moving, a BOOT offered to an idle core completes in
four steps, and its whole traffic is the two writes. PEER's side is R248 (D40), and the completion a step of its own
(notes/assumptions/35.md). Under the model's switch `strictHost` the BOOT is one HOST may offer (36.md). -/
def Obligations.BootRunsToCompletion : Prop :=
  ∀ (s : State) (w : PortWord) (rest : List PortWord), s.params.wf = true → s.core.seq = .idle →
    s.ports.moves = [] → s.ports.requests = w :: rest → s.taken [w] → decodePort s.params w = .ok .boot →
    Host.Core.run Sys2Proof.core 4 s = .next { s with
      core.booted    := true
      peer           := { s.peer with cpuControl := if s.params.openForm then s.peer.cpuControl else 0, started := true }
      ports.requests := rest
      ports.events   := s.ports.events ++
        [.accept .boot, .memWrite (s.params.base + 0x0044) 4 0x10, .memWrite (s.params.base + 0x0044) 4 0x0,
          .complete .done none] }

/-- R182 and R186: acceptance, the four phases and the completion of SEND. Acceptance loads the holding registers and clears
`POLLS`; the trace comes first (the spec's decision D25; notes/assumptions/18.md); then `INBOX0` takes the data word and
`INBOX1` the header word, whole; then each pass of `S3` is one read of `INBOX_CTRL`, with `POLLS` up by one, and bit 16 alone
decides: 0 goes on to `DONE`; 1 polls again for ever without a bound and below a bound, and goes on to `TIMEOUT` at the bound
(R186, the spec's decision D14; 25.md). In the closed form the latch and the commit are R250 and R251 (D19; 31.md) and bit 16
is R249 (D13); the write of `INBOX1` is stated where its inbox has room, since onto a full inbox it has no step (R258, the
next statement). In the open form the value read is the responder's (12.md). The completion is a step of its own (35.md). -/
def Obligations.SendEventsInOrder : Prop :=
  ∀ (s : State) (d h : Word64), s.params.wf = true →
    (s.core.seq = .idle → exec (.send d h) s = .next { s with
      core.seq := .send .s0, core.txData := d, core.txHeader := h, core.polls := 0
      ports.events := s.ports.events ++ [.accept (.send d h)] }) ∧
    (s.core.seq = .send .s0 → exec (.send d h) s = .next { s with
      core.seq     := .send .s1
      ports.events := s.ports.events ++
        [.trace ⟨.tx, s.core.txHeader.extractLsb' 0 8, ⟨s.core.txData, s.core.txHeader⟩⟩] }) ∧
    (s.core.seq = .send .s1 → exec (.send d h) s = .next { s with
      core.seq     := .send .s2
      peer         := if s.params.openForm then s.peer else { s.peer with inStage := s.core.txData }
      ports.events := s.ports.events ++ [.memWrite (s.params.base + 0x8800) 8 s.core.txData] }) ∧
    (s.core.seq = .send .s2 → (s.params.openForm = true ∨ s.peer.inQ.length < s.params.inboxDepth) →
      exec (.send d h) s = .next { s with
        core.seq     := .send .s3
        peer         := if s.params.openForm then s.peer
          else { s.peer with inQ := s.peer.inQ ++ [⟨s.peer.inStage, s.core.txHeader⟩] }
        ports.events := s.ports.events ++ [.memWrite (s.params.base + 0x8808) 8 s.core.txHeader] }) ∧
    (s.core.seq = .send .s3 → ∃ (v : Word32) (t : State) (q : Seq), exec (.send d h) s = .next t ∧
      (s.params.openForm = false → v[16] = decide (s.peer.inQ.length = s.params.inboxDepth)) ∧
      (s.params.openForm = true → ∀ x, s.ports.response = some x → v = x.extractLsb' 0 32) ∧
      s.Becomes t { s.core with polls := s.core.polls + 1, seq := q } s.peer
        [.memRead (s.params.base + 0x8110) 4 (v.setWidth 64)] ∧
      (v[16] = false → q = .ending .sendDone) ∧
      (v[16] = true → (∀ n, s.params.sendPollBound = some n → s.core.polls + 1 < n) → q = .send .s3) ∧
      (v[16] = true → s.params.sendPollBound = some (s.core.polls + 1) → q = .ending .sendTimeout)) ∧
    (s.core.seq = .ending .sendDone → Completes (.send d h) s .done none) ∧
    (s.core.seq = .ending .sendTimeout → Completes (.send d h) s .timeout none)

/-- R258 (the spec's decision D41) and U4: a write of `INBOX1` onto a full inbox, by SEND or by WRITE64, has no step in
the closed form. -/
def Obligations.WriteOntoFullInboxIsRefused : Prop :=
  ∀ (s : State) (d h v : Word64), s.params.wf = true → s.params.openForm = false →
    s.peer.inQ.length = s.params.inboxDepth →
    (s.core.seq = .send .s2 → exec (.send d h) s = .refused .inboxOverflow) ∧
    exec (.write64 (s.params.base + 0x8808) v) s = .refused .inboxOverflow

/-- R196 and R197: acceptance, the four phases and the two completions of RECV, in both forms of the environment. In the closed
form bit 17 says whether the outbox is empty (R249, the spec's decision D13), the two words read are those of the frame at
its head, and the second read removes it (R254, R255, D18; notes/assumptions/31.md); in the open form the values are the
responder's (12.md). The completion is a step of its own (35.md). -/
def Obligations.RecvEventsInOrder : Prop :=
  ∀ s : State, s.params.wf = true →
    (s.core.seq = .idle → exec .recv s = .next { s with
      core.seq := .recv .v0, ports.events := s.ports.events ++ [.accept .recv] }) ∧
    (s.core.seq = .recv .v0 → ReadsOutboxStatus .recv s (.ending .recvNoMessage) (.recv .v1)) ∧
    (s.core.seq = .recv .v1 → ReadsOutboxData .recv s (.recv .v2)) ∧
    (s.core.seq = .recv .v2 → ReadsOutboxHeader .recv s (.recv .v3)) ∧
    (s.core.seq = .recv .v3 → exec .recv s = .next { s with
      core.seq     := .ending .recvFrame
      ports.events := s.ports.events ++
        [.trace ⟨.rx, s.core.rxHeader.extractLsb' 0 8, ⟨s.core.rxData, s.core.rxHeader⟩⟩] }) ∧
    (s.core.seq = .ending .recvNoMessage → Completes .recv s .noMessage none) ∧
    (s.core.seq = .ending .recvFrame → Completes .recv s .frame (some ⟨s.core.rxData, s.core.rxHeader⟩))

/-- R196 and R197 as a run: with the core alone moving and one RECV offered to an idle core, an empty outbox gives
`NO_MESSAGE` in three steps and changes nothing but the bus port and the list of words; a frame at the head is returned
whole in six, and leaves the outbox (R249, R254, R255, the spec's decisions D13 and D18; notes/assumptions/31.md, 35.md). Under
the model's switch `strictHost` the RECV is one HOST may offer (36.md). -/
def Obligations.RecvRunsToCompletion : Prop :=
  ∀ (s : State) (w : PortWord) (rest : List PortWord), s.params.wf = true → s.params.openForm = false →
    s.core.seq = .idle → s.ports.moves = [] → s.ports.requests = w :: rest → s.taken [w] →
    decodePort s.params w = .ok .recv →
    (s.peer.outQ = [] → ∃ t v, Host.Core.run Sys2Proof.core 3 s = .next t ∧
      t.core = s.core ∧ t.peer = s.peer ∧ t.ports.requests = rest ∧
      t.ports.events = s.ports.events ++
        [.accept .recv, .memRead (s.params.base + 0x8114) 4 v, .complete .noMessage none]) ∧
    (∀ f queue, s.peer.outQ = f :: queue → ∃ t v, Host.Core.run Sys2Proof.core 6 s = .next t ∧
      t.core = { s.core with rxData := f.data, rxHeader := f.header } ∧ t.peer = { s.peer with outQ := queue } ∧
      t.ports.requests = rest ∧
      t.ports.events = s.ports.events ++
        [.accept .recv, .memRead (s.params.base + 0x8114) 4 v, .memRead (s.params.base + 0x8830) 8 f.data,
          .memRead (s.params.base + 0x8838) 8 f.header, .trace ⟨.rx, f.header.extractLsb' 0 8, f⟩,
          .complete .frame (some f)])

/-- R203, R204 and R207: acceptance, the three phases and the completions of DISPATCH. A completion after the unknown report is
a step of its own (notes/assumptions/35.md); the endpoint's answer is a move of the schedule (20.md). -/
def Obligations.DispatchEventsInOrder : Prop :=
  ∀ (s : State) (d h : Word64),
    (s.core.seq = .idle → exec (.dispatch d h) s = .next { s with
      core.seq := .dispatch .p0, core.rxData := d, core.rxHeader := h
      ports.events := s.ports.events ++ [.accept (.dispatch d h)] }) ∧
    (s.core.seq = .dispatch .p0 → LooksUpEndpoint (.dispatch d h) s (.dispatch .p1) (.dispatch .p2)) ∧
    (s.core.seq = .dispatch .p1 →
      TakesEndpointAnswer (.dispatch d h) s .idle [.complete .handled none] (.dispatch .p2)) ∧
    (s.core.seq = .dispatch .p2 → ReportsUnknown (.dispatch d h) s .dispatchUnhandled) ∧
    (s.core.seq = .ending .dispatchUnhandled → Completes (.dispatch d h) s .unhandled none)

/-- R203: the lookup's key is `RX_HEADER[7:0]` alone, whichever command dispatches. It is a hit exactly when the entry is
valid, and then the handle requested is the entry's; with any other data word and any other header of the same `EP` the same
phase makes the same choice and names the same handle. -/
def Obligations.LookupKeyIsTheEndpointFieldAlone : Prop :=
  ∀ (s : State) (i : Instr) (onHit : Seq),
    (s.core.seq = .dispatch .p0 ∧ (∃ a b, i = .dispatch a b) ∧ onHit = .dispatch .p1) ∨
    (s.core.seq = .pumpOnce (.disp .p0) ∧ i = .pumpOnce ∧ onHit = .pumpOnce (.disp .p1)) ∨
    (s.core.seq = .pumpForever (.disp .p0) ∧ i = .pumpForever ∧ onHit = .pumpForever (.disp .p1)) →
    ∃ t, exec i s = .next t ∧
      (t.core.seq = onHit ↔ (eptLookup s.core.ept (s.core.rxHeader.extractLsb' 0 8)).isSome = true) ∧
      (∀ g, eptLookup s.core.ept (s.core.rxHeader.extractLsb' 0 8) = some g →
        t.ports.epReq.map EpReq.handle = some g) ∧
      ∀ d h : Word64, h.extractLsb' 0 8 = s.core.rxHeader.extractLsb' 0 8 →
        ∃ u, exec i { s with core.rxData := d, core.rxHeader := h } = .next u ∧ u.core.seq = t.core.seq ∧
          u.ports.epReq.map EpReq.handle = t.ports.epReq.map EpReq.handle

/-- R221: acceptance, the seven phases and the completions of PUMP_ONCE. In the closed form bit 17 is R249 (the spec's decision
D13), the two words and the removal are R254 and R255 (D18; notes/assumptions/31.md); in the open form the values are the
responder's (12.md). That the status is read once is R222 (D27). A completion on an empty outbox or after the unknown report is
a step of its own (35.md). -/
def Obligations.PumpOnceEventsInOrder : Prop :=
  ∀ s : State, s.params.wf = true →
    (s.core.seq = .idle → exec .pumpOnce s = .next { s with
      core.seq := .pumpOnce (.recv .v0), ports.events := s.ports.events ++ [.accept .pumpOnce] }) ∧
    (s.core.seq = .pumpOnce (.recv .v0) →
      ReadsOutboxStatus .pumpOnce s (.ending .pumpOnceIdle) (.pumpOnce (.recv .v1))) ∧
    (s.core.seq = .pumpOnce (.recv .v1) → ReadsOutboxData .pumpOnce s (.pumpOnce (.recv .v2))) ∧
    (s.core.seq = .pumpOnce (.recv .v2) → ReadsOutboxHeader .pumpOnce s (.pumpOnce (.recv .v3))) ∧
    (s.core.seq = .pumpOnce (.recv .v3) → exec .pumpOnce s = .next { s with
      core.seq     := .pumpOnce (.disp .p0)
      ports.events := s.ports.events ++
        [.trace ⟨.rx, s.core.rxHeader.extractLsb' 0 8, ⟨s.core.rxData, s.core.rxHeader⟩⟩] }) ∧
    (s.core.seq = .pumpOnce (.disp .p0) →
      LooksUpEndpoint .pumpOnce s (.pumpOnce (.disp .p1)) (.pumpOnce (.disp .p2))) ∧
    (s.core.seq = .pumpOnce (.disp .p1) →
      TakesEndpointAnswer .pumpOnce s .idle [.complete .handled none] (.pumpOnce (.disp .p2))) ∧
    (s.core.seq = .pumpOnce (.disp .p2) → ReportsUnknown .pumpOnce s .pumpOnceUnhandled) ∧
    (s.core.seq = .ending .pumpOnceIdle → Completes .pumpOnce s .idle none) ∧
    (s.core.seq = .ending .pumpOnceUnhandled → Completes .pumpOnce s .unhandled none)

/-- R226 (the spec's decision D29): acceptance, the seven phases and the completion of PUMP_FOREVER: an empty outbox and a
handled frame go back to `V0` without a completion; only an unhandled frame completes. The switch `PUMP_STOP_ON_IDLE` is off,
as on this hardware. The closed form rests on R249, R254 and R255 (D13, D18; notes/assumptions/31.md), the open form on 12.md;
the completion is a step of its own (35.md). -/
def Obligations.PumpForeverEventsInOrder : Prop :=
  ∀ s : State, s.params.wf = true → s.params.pumpStopOnIdle = false →
    (s.core.seq = .idle → exec .pumpForever s = .next { s with
      core.seq := .pumpForever (.recv .v0), ports.events := s.ports.events ++ [.accept .pumpForever] }) ∧
    (s.core.seq = .pumpForever (.recv .v0) →
      ReadsOutboxStatus .pumpForever s (.pumpForever (.recv .v0)) (.pumpForever (.recv .v1))) ∧
    (s.core.seq = .pumpForever (.recv .v1) → ReadsOutboxData .pumpForever s (.pumpForever (.recv .v2))) ∧
    (s.core.seq = .pumpForever (.recv .v2) → ReadsOutboxHeader .pumpForever s (.pumpForever (.recv .v3))) ∧
    (s.core.seq = .pumpForever (.recv .v3) → exec .pumpForever s = .next { s with
      core.seq     := .pumpForever (.disp .p0)
      ports.events := s.ports.events ++
        [.trace ⟨.rx, s.core.rxHeader.extractLsb' 0 8, ⟨s.core.rxData, s.core.rxHeader⟩⟩] }) ∧
    (s.core.seq = .pumpForever (.disp .p0) →
      LooksUpEndpoint .pumpForever s (.pumpForever (.disp .p1)) (.pumpForever (.disp .p2))) ∧
    (s.core.seq = .pumpForever (.disp .p1) →
      TakesEndpointAnswer .pumpForever s (.pumpForever (.recv .v0)) [] (.pumpForever (.disp .p2))) ∧
    (s.core.seq = .pumpForever (.disp .p2) → ReportsUnknown .pumpForever s .pumpForeverUnhandled) ∧
    (s.core.seq = .ending .pumpForeverUnhandled → Completes .pumpForever s .unhandled none)

/-- R227 (the spec's decision D29): under the switch `PUMP_STOP_ON_IDLE` of the losing reading, `V0` on an empty outbox goes on
to a completion with `IDLE` (notes/assumptions/25.md, 35.md). -/
def Obligations.PumpForeverUnderTheSwitchStopsOnIdle : Prop :=
  ∀ s : State, s.params.wf = true → s.params.pumpStopOnIdle = true →
    (s.core.seq = .pumpForever (.recv .v0) →
      ReadsOutboxStatus .pumpForever s (.ending .pumpForeverIdle) (.pumpForever (.recv .v1))) ∧
    (s.core.seq = .ending .pumpForeverIdle → Completes .pumpForever s .idle none)

/-- R236: acceptance and `A0` of ADD_EP. The entry of `id` holds the handle, over whatever was there, no other entry
changes, and the command completes with `DONE`; no bus, endpoint or trace event; and a dispatch that meets this table
with a frame whose `header[7:0]` is `id` hits and calls the handle. Between acceptance and `A0` the two operands stand
in the sequencer, which is the model's choice (notes/assumptions/10.md). -/
def Obligations.AddEpWritesOneEntry : Prop :=
  ∀ (s : State) (i : Ident) (h : Handle),
    (s.core.seq = .idle → exec (.addEp i h) s = .next { s with
      core.seq := .addEp i h, ports.events := s.ports.events ++ [.accept (.addEp i h)] }) ∧
    (s.core.seq = .addEp i h → ∃ table,
      exec (.addEp i h) s = .next { s with
        core.seq := .idle, core.ept := table, ports.events := s.ports.events ++ [.complete .done none] } ∧
      (∀ j, eptLookup table j = if j = i then some h else eptLookup s.core.ept j) ∧
      ∀ (u : State) (d hd : Word64), u.core.ept = table → u.core.seq = .dispatch .p0 →
        u.core.rxHeader.extractLsb' 0 8 = i → ∃ t, exec (.dispatch d hd) u = .next t ∧ t.core.seq = .dispatch .p1 ∧
          t.ports.epReq = some ⟨h, u.core.rxHeader, u.core.rxData⟩)

/-- R236 and R86 (the spec's decision D21): a dispatch that follows an ADD_EP with nothing between them calls the handle
just registered: two commands offered to an idle core, the second a DISPATCH of a frame whose `header[7:0]` is the
identifier. Under the model's switch `strictHost` the two are commands HOST may offer (notes/assumptions/36.md). -/
def Obligations.DispatchSeesTheLatestRegistration : Prop :=
  ∀ (s : State) (i : Ident) (h : Handle) (d hd : Word64) (rest : List PortWord), s.params.wf = true →
    h.toNat < 2 ^ s.params.epHandleW → hd.extractLsb' 0 8 = i → s.core.seq = .idle → s.ports.moves = [] →
    s.ports.requests = encode s.params (.addEp i h) :: encode s.params (.dispatch d hd) :: rest →
    s.taken [encode s.params (.addEp i h), encode s.params (.dispatch d hd)] →
    ∃ t, Host.Core.run Sys2Proof.core 4 s = .next t ∧ t.core.seq = .dispatch .p1 ∧
      t.ports.epReq = some ⟨h, hd, d⟩ ∧ t.peer = s.peer ∧ t.ports.requests = rest ∧
      t.ports.events = s.ports.events ++ [.accept (.addEp i h), .complete .done none, .accept (.dispatch d hd),
        .epCall ⟨h, hd, d⟩]

/-- R240 (d) and (e): registrations under different identifiers give the same table in either order; of two under one
identifier the last wins. -/
def Obligations.RegistrationOrderLeavesNoMark : Prop :=
  ∀ (table : List (Ident × Handle)) (i j : Ident) (a b : Handle), eptSorted table = true →
    (i ≠ j → eptInsert (eptInsert table i a) j b = eptInsert (eptInsert table j b) i a) ∧
    eptInsert (eptInsert table i a) i b = eptInsert table i b

/-! ### The four primitives of the Register Interface -/

/-- R151: READ32 of a control register returns its value and changes no register; in the closed form bits 16 and 17 are
the flags of its queue (R249, the spec's decisions D13 and D18). A read of `CPU_CONTROL` is refused in either form (R79,
R261, U2; notes/assumptions/28.md). -/
def Obligations.Read32ReturnsTheControlRegister : Prop :=
  ∀ s : State, s.params.wf = true →
    (∃ (v : Word32) (t : State), exec (.read32 (s.params.base + 0x8110)) s = .next t ∧
      s.Becomes t s.core s.peer [.memRead (s.params.base + 0x8110) 4 (v.setWidth 64)] ∧
      t.ports.rdata.extractLsb' 0 32 = v ∧
      (s.params.openForm = false → v[16] = decide (s.peer.inQ.length = s.params.inboxDepth) ∧
        v[17] = decide (s.peer.inQ.length = 0))) ∧
    (∃ (v : Word32) (t : State), exec (.read32 (s.params.base + 0x8114)) s = .next t ∧
      s.Becomes t s.core s.peer [.memRead (s.params.base + 0x8114) 4 (v.setWidth 64)] ∧
      t.ports.rdata.extractLsb' 0 32 = v ∧
      (s.params.openForm = false → v[16] = decide (s.peer.outQ.length = s.params.outboxDepth) ∧
        v[17] = decide (s.peer.outQ.length = 0))) ∧
    exec (.read32 (s.params.base + 0x0044)) s = .refused (.unreadable .cpuControl)

/-- R152 and R248 (the spec's decision D40): WRITE32 of `CPU_CONTROL` deposits all 32 bits (notes/assumptions/30.md),
and a value with bit 4 set starts the coprocessor; a write of a control register is refused in either form (R80, R261,
U16; notes/assumptions/28.md). -/
def Obligations.Write32DepositsCpuControl : Prop :=
  ∀ (s : State) (v : Word32), s.params.wf = true →
    (s.params.openForm = false → exec (.write32 (s.params.base + 0x0044) v) s = .next { s with
      peer.cpuControl := v
      peer.started    := s.peer.started || v[4]
      ports.events    := s.ports.events ++ [.memWrite (s.params.base + 0x0044) 4 (v.setWidth 64)] }) ∧
    exec (.write32 (s.params.base + 0x8110) v) s = .refused (.unwritable .inboxCtrl) ∧
    exec (.write32 (s.params.base + 0x8114) v) s = .refused (.unwritable .outboxCtrl)

/-- R153 with R254, R255 and R259: READ64 of `OUTBOX0` returns the head's data and changes no register; of `OUTBOX1` the
head's header, and the frame leaves the outbox (the spec's decision D18); on an empty outbox each returns some value and
changes nothing (D42; notes/assumptions/14.md). A read of the inbox pair is refused in either form (R79, R261, U2). -/
def Obligations.Read64OfTheOutboxConsumesOnTheHeader : Prop :=
  ∀ s : State, s.params.wf = true →
    (s.params.openForm = false → ∃ (v : Word64) (t : State), exec (.read64 (s.params.base + 0x8830)) s = .next t ∧
      s.Becomes t s.core s.peer [.memRead (s.params.base + 0x8830) 8 v] ∧ t.ports.rdata = v ∧
      ∀ f rest, s.peer.outQ = f :: rest → v = f.data) ∧
    (s.params.openForm = false → ∃ (v : Word64) (t : State), exec (.read64 (s.params.base + 0x8838)) s = .next t ∧
      s.Becomes t s.core { s.peer with outQ := s.peer.outQ.tail } [.memRead (s.params.base + 0x8838) 8 v] ∧
      t.ports.rdata = v ∧ ∀ f rest, s.peer.outQ = f :: rest → v = f.header) ∧
    exec (.read64 (s.params.base + 0x8800)) s = .refused (.unreadable .inbox0) ∧
    exec (.read64 (s.params.base + 0x8808)) s = .refused (.unreadable .inbox1)

/-- R154 with R250 and R251: WRITE64 of `INBOX0` latches the value and changes nothing else; of `INBOX1` commits the
frame of the latch and the value at the tail of the inbox, where there is room (the spec's decision D19). A write of the
outbox pair is refused in either form (R80, R261, U16). -/
def Obligations.Write64OfTheInboxCommitsOnTheHeader : Prop :=
  ∀ (s : State) (v : Word64), s.params.wf = true →
    (s.params.openForm = false → exec (.write64 (s.params.base + 0x8800) v) s = .next { s with
      peer.inStage := v
      ports.events := s.ports.events ++ [.memWrite (s.params.base + 0x8800) 8 v] }) ∧
    (s.params.openForm = false → s.peer.inQ.length < s.params.inboxDepth →
      exec (.write64 (s.params.base + 0x8808) v) s = .next { s with
        peer.inQ     := s.peer.inQ ++ [⟨s.peer.inStage, v⟩]
        ports.events := s.ports.events ++ [.memWrite (s.params.base + 0x8808) 8 v] }) ∧
    exec (.write64 (s.params.base + 0x8830) v) s = .refused (.unwritable .outbox0) ∧
    exec (.write64 (s.params.base + 0x8838) v) s = .refused (.unwritable .outbox1)

/-- R155 and R156: the two field accessors, over all four primitives. A field of a register of either width: a field read makes
the one read of the register at its width, and answers with bits `hi:lo` of the value, unsigned; a read-modify-write makes
that read, then a write at that width of the value with bits `hi:lo` replaced by the low bits of the new value and every
other bit kept; it stops where a transaction of its own does. The two are not atomic: whatever value the first has given, and
on any state that PEER has made of the machine meanwhile, the second transaction is that write there. Which registers are
read and written is R79, R80 and R261 (notes/assumptions/28.md). -/
def Obligations.FieldAccessorsActAtTheRegistersWidth : Prop :=
  ∀ (s : State) (f : RegField) (value : Word64), s.params.wf = true → f.wf = true →
    let a := regAddr s.params f.reg
    let n := regWidth f.reg
    let load := exec (if n = 4 then .read32 a else .read64 a)
    let store := fun (x : Word64) => exec (if n = 4 then .write32 a (x.setWidth 32) else .write64 a x)
    (∀ e, load s = .refused e → fieldRead f s = .refused e ∧ fieldModify f value s = .refused e) ∧
    (∀ t, load s = .next t → ∃ v x : Word64,
      t.ports.events = s.ports.events ++ [.memRead a n v] ∧
      (∀ k, x.getLsbD k = (decide (k ≤ f.hi - f.lo) && v.getLsbD (f.lo + k))) ∧
      fieldRead f s = .next (x, t) ∧
      fieldModify f value s = fieldWriteBack f value v t) ∧
    (∀ (v : Word64) (u : State), u.params = s.params → ∃ y : Word64,
      (∀ k, k < 8 * n → y.getLsbD k = if f.lo ≤ k ∧ k ≤ f.hi then value.getLsbD (k - f.lo) else v.getLsbD k) ∧
      fieldWriteBack f value v u = store y u)

/-- R245: in the open form a read of a register that is read returns whatever it returns, the responder's value where it has
put one on the bus, and a write of one that is written has no known effect behind it, but that `started` says whether a write
with `RUN` 1 has gone out; otherwise the bus port alone moves. How the model carries the open form is its choice
(notes/assumptions/12.md). The other reads and writes are refused in this form too, as the four statements above say. -/
def Obligations.OpenFormReadsWhatTheResponderGives : Prop :=
  ∀ s : State, s.params.wf = true → s.params.openForm = true →
    (∃ x : Word64, (∀ y, s.ports.response = some y → x = y) ∧
      (∀ r ∈ [Reg.inboxCtrl, Reg.outboxCtrl], exec (.read32 (regAddr s.params r)) s = .next { s with
        ports.response := none, ports.rdata := x, ports.draws := s.ports.draws + 1
        ports.events   := s.ports.events ++ [.memRead (regAddr s.params r) 4 ((x.extractLsb' 0 32).setWidth 64)] }) ∧
      (∀ r ∈ [Reg.outbox0, Reg.outbox1], exec (.read64 (regAddr s.params r)) s = .next { s with
        ports.response := none, ports.rdata := x, ports.draws := s.ports.draws + 1
        ports.events   := s.ports.events ++ [.memRead (regAddr s.params r) 8 x] })) ∧
    (∀ v, exec (.write32 (s.params.base + 0x0044) v) s = .next { s with
      peer.started := s.peer.started || v[4]
      ports.events := s.ports.events ++ [.memWrite (s.params.base + 0x0044) 4 (v.setWidth 64)] }) ∧
    (∀ r ∈ [Reg.inbox0, Reg.inbox1], ∀ v, exec (.write64 (regAddr s.params r) v) s = .next { s with
      ports.events := s.ports.events ++ [.memWrite (regAddr s.params r) 8 v] })

/-- R73, R76 and R77 (the spec's decisions D16 and D17; notes/assumptions/28.md): an access is answered only at the address of
one of the seven registers and at its own width; an access anywhere else, misaligned or at another width is refused. -/
def Obligations.OnlyTheSevenRegistersAnswer : Prop :=
  ∀ (s : State) (a : Nat),
    ((¬ ∃ r, regWidth r = 4 ∧ a = regAddr s.params r) →
      (∃ e, exec (.read32 a) s = .refused e) ∧ ∀ v, ∃ e, exec (.write32 a v) s = .refused e) ∧
    ((¬ ∃ r, regWidth r = 8 ∧ a = regAddr s.params r) →
      (∃ e, exec (.read64 a) s = .refused e) ∧ ∀ v, ∃ e, exec (.write64 a v) s = .refused e)

/-- R249 and R39 (the spec's decision D13): with depths of at least 1 the two flags of a control register are never both
1. -/
def Obligations.FullAndEmptyAreExclusive : Prop :=
  ∀ s : State, s.params.wf = true →
    ¬ (inboxFull s = true ∧ inboxEmpty s = true) ∧ ¬ (outboxFull s = true ∧ outboxEmpty s = true)

/-! ### The other agents -/

/-- R252: ACCEPT takes the head frame of the inbox to the tail of `DELIVERED`; on an empty inbox there is no such step
and nothing changes. -/
def Obligations.AcceptDeliversTheHeadFrame : Prop :=
  ∀ s : State, s.params.wf = true → nextMove s = .accept →
    (∀ f rest, s.peer.inQ = f :: rest → step s = .next { s with
      peer.inQ := rest, peer.delivered := s.peer.delivered ++ [f], ports.moves := s.ports.moves.tail }) ∧
    (s.peer.inQ = [] → step s = .next { s with ports.moves := s.ports.moves.tail })

/-- R253 and R257: POST puts any frame at the tail of the outbox where there is room; on a full outbox there is no such
step and nothing changes. -/
def Obligations.PostAppendsToTheOutbox : Prop :=
  ∀ (s : State) (f : Frame), s.params.wf = true → nextMove s = .post f →
    (s.peer.outQ.length < s.params.outboxDepth → step s = .next { s with
      peer.outQ := s.peer.outQ ++ [f], ports.moves := s.ports.moves.tail }) ∧
    (¬ s.peer.outQ.length < s.params.outboxDepth → step s = .next { s with ports.moves := s.ports.moves.tail })

/-- R246 (the spec's decision D20): a step of PEER, of an endpoint or of the bus responder leaves the core and the event
log as they were. -/
def Obligations.OtherAgentsNeverTouchTheCore : Prop :=
  ∀ s t : State, step s = .next t → nextMove s ≠ .core → nextMove s ≠ .coreReset →
    t.core = s.core ∧ t.params = s.params ∧ t.ports.events = s.ports.events ∧
      t.ports.requests = s.ports.requests

/-- R209 (the spec's decision D32) and U13: with no answer and nothing else moving, a dispatch waits for ever in `P1`.
-/
def Obligations.SilentEndpointHoldsTheCore : Prop :=
  ∀ (n : Nat) (s : State), s.params.wf = true → s.core.seq.awaitsAnswer = true → s.ports.epAnswer = none →
    s.ports.moves = [] → Host.Core.run Sys2Proof.core n s = .next s

/-! ### Rules about the whole machine -/

/-- The invariant (R7, R26, R27, R42, R204): from every state that meets it, every step answers a state that meets it.
-/
def Obligations.EveryStepKeepsTheInvariant : Prop :=
  ∀ s t : State, s.Inv → step s = .next t → t.Inv

/-- R88 (derived, the spec says): while the core holds `EMPTY = 0` or the data word of a frame, that frame stays at the
head of the outbox. R88 takes R31 as its premise, that the core is the only agent of the host side on the registers. Here
no such premise stands: software beside the core, where the model takes its words at all, is given a move between commands
only, which is the model's choice (notes/assumptions/3.md), and so never while the core holds a frame. -/
def Obligations.EveryStepKeepsTheOutboxCoherent : Prop :=
  ∀ s t : State, s.Inv → s.OutboxCoherent → nextMove s ≠ .peerReset → step s = .next t → t.OutboxCoherent

/-- R89 (derived, the spec says): with no poll bound, no software beside the core and no reset of the core, the inbox
has room outside the poll of a SEND. -/
def Obligations.EveryStepKeepsTheInboxRoom : Prop :=
  ∀ s t : State, s.Inv → s.InboxRoom → s.onlyCommands = true → nextMove s ≠ .coreReset → step s = .next t →
    t.InboxRoom ∧ t.onlyCommands = true

/-- Under the premises of R89 the machine never stops: every step is answered, for any schedule of the other agents, any
commands of HOST, and any endpoints; under the model's switch `strictHost` (notes/assumptions/36.md), any commands that HOST
may offer. -/
def Obligations.NoRunUnderThePremisesStops : Prop :=
  ∀ (n : Nat) (s : State), s.Inv → s.InboxRoom → s.onlyCommands = true → .coreReset ∉ s.ports.moves →
    (s.params.strictHost = true → s.DutiesHeld) →
    ∃ t, Host.Core.run Sys2Proof.core n s = .next t ∧ t.Inv ∧ t.InboxRoom

/-- R90 (derived, the spec says) and R252: the frames PEER has taken, followed by those in the inbox, change only by one
frame appended at the end, the one in the transmit registers of the SEND that commits it, both words whole. -/
def Obligations.SentFramesArriveInOrderAndUnchanged : Prop :=
  ∀ s t : State, s.params.openForm = false → s.Staged → s.onlyCommands = true → nextMove s ≠ .peerReset →
    step s = .next t →
    t.Staged ∧
    (t.peer.delivered ++ t.peer.inQ = s.peer.delivered ++ s.peer.inQ ∨
      s.core.seq = .send .s2 ∧
        t.peer.delivered ++ t.peer.inQ = s.peer.delivered ++ s.peer.inQ ++ [⟨s.core.txData, s.core.txHeader⟩])

/-- R256: the outbox changes only by a frame posted at its tail, or by its head leaving in the very step that reads
`OUTBOX1` with that frame's header. PEER's own reset (R44), which empties it, is left out. -/
def Obligations.OutboxIsFirstInFirstOut : Prop :=
  ∀ s t : State, nextMove s ≠ .peerReset → step s = .next t →
    t.peer.outQ = s.peer.outQ ∨
    (∃ f, nextMove s = .post f ∧ t.peer.outQ = s.peer.outQ ++ [f]) ∨
    (∃ f, nextMove s = .core ∧ s.peer.outQ = f :: t.peer.outQ ∧
      t.ports.events = s.ports.events ++ [.memRead (s.params.base + 0x8838) 8 f.header])

/-- R28: only ADD_EP writes the Endpoint Table, and only reset empties it. -/
def Obligations.OnlyAddEpWritesTheTable : Prop :=
  ∀ s t : State, step s = .next t → t.core.ept ≠ s.core.ept →
    nextMove s = .coreReset ∨ (nextMove s = .core ∧ ∃ i h, s.core.seq = .addEp i h)

/-- R29, R172 and R320 (the spec's decision D38): `booted` is set by the completion of BOOT and cleared by reset alone.
-/
def Obligations.BootedFollowsBootAndReset : Prop :=
  ∀ s t : State, step s = .next t → t.core.booted ≠ s.core.booted →
    (t.core.booted = true ∧ nextMove s = .core ∧ s.core.seq = .ending .boot) ∨
    (t.core.booted = false ∧ nextMove s = .coreReset)

/-- R325, R330 and R349: where HOST holds only commands in the order it must offer them, BOOT before any send, receive,
dispatch or pump and once, every step keeps it so: no such command ever runs before BOOT has completed, and no second
BOOT runs. A reset of the core is left out of this, since it clears `booted`. Where the model's switch `strictHost` is on
(notes/assumptions/36.md) the same holds of the command in progress whatever HOST offers and whatever is reset, since the
machine refuses what HOST must not offer; and no BOOT is taken while the coprocessor is started (R322, U17). -/
def Obligations.HostDutiesStayMet : Prop :=
  ∀ s t : State, step s = .next t →
    (s.DutiesHeld → nextMove s ≠ .coreReset → t.DutiesHeld) ∧
    (s.params.strictHost = true → s.core.ordered = true → t.core.ordered = true) ∧
    (s.params.strictHost = true → s.peer.started = true → t.core.seq = .boot .b0 → s.core.seq = .boot .b0)

/-- R22 (the spec's decision D24): the core does not test `booted`: an event of any instruction is the same whatever its
value, but that BOOT's completion sets it. -/
def Obligations.CoreNeverTestsBooted : Prop :=
  ∀ (i : Instr) (s t : State) (b : Bool), exec i s = .next t →
    ∃ b', exec i { s with core.booted := b } = .next { t with core.booted := b' } ∧
      (b' = b ∨ b' = t.core.booted ∧ s.core.seq = .ending .boot)

/-- R21 and R22 (the spec's decisions D31 and D33): `seq.op` changes only from or to idle, and with it the source's
state: a command is followed by no other without the core having been idle. -/
def Obligations.OperationChangesThroughIdle : Prop :=
  ∀ s t : State, step s = .next t →
    (t.core.seq.op = s.core.seq.op ∨ s.core.seq = .idle ∨ t.core.seq = .idle) ∧
    (t.core.sourceState ≠ s.core.sourceState → s.core.seq = .idle ∨ t.core.seq = .idle)

/-- R25 and R23 (whose phases are the spec's decision D33): each event of a command advances its phase in the order of
R23 or completes it; the only moves that do not are the poll of SEND, which stays in `S3`, the loop of PUMP_FOREVER,
which returns to `V0`, and the wait for an endpoint's answer, in which nothing happens. -/
def Obligations.PhasesOnlyMoveForward : Prop :=
  ∀ (s t : State) (i : Instr), s.core.current = some i → exec i s = .next t →
    t.core.seq = .idle ∨
    t.core.seq.op = s.core.seq.op ∧
      (s.core.seq.rank < t.core.seq.rank ∨
        (s.core.seq = .send .s3 ∧ t.core.seq = .send .s3) ∨
        t.core.seq = .pumpForever (.recv .v0) ∨
        (s.core.seq.awaitsAnswer = true ∧ s.ports.epAnswer = none ∧ t = s))

/-- R21 (the spec's decision D31): while a command runs no second command is taken from HOST, and an idle core takes at
most one. -/
def Obligations.CommandPortIsClosedWhileBusy : Prop :=
  ∀ s t : State, step s = .next t →
    (s.core.seq ≠ .idle → t.ports.requests = s.ports.requests) ∧
    (t.ports.requests = s.ports.requests ∨ t.ports.requests = s.ports.requests.tail)

/-- R10 and R132 (the spec's decisions D6 and D8): a step only appends to the event log, at most one event, so that PEER may
step between any two events (R246, D20); the parameters never change, and every trace event appended carries
`ep = header[7:0]`. -/
def Obligations.StepsOnlyAppendEvents : Prop :=
  ∀ s t : State, step s = .next t → t.params = s.params ∧
    ∃ added, t.ports.events = s.ports.events ++ added ∧ added.length ≤ 1 ∧
      ∀ k e f, Event.trace ⟨k, e, f⟩ ∈ added → e = f.header.extractLsb' 0 8

/-- R129 (derived, the spec says) and R128 (its decision D3): from a state that meets the invariant, the command in progress
completes only with a status of its row, with a frame in the completion word exactly for `FRAME`, and a completion leaves the
core idle. -/
def Obligations.CompletionStatusesAreThoseOfTheCommand : Prop :=
  ∀ (s t : State) (i : Instr), s.Inv → s.core.current = some i → exec i s = .next t →
    ∃ added, t.ports.events = s.ports.events ++ added ∧
      (t.core.seq = .idle ↔ ∃ st f, Event.complete st f ∈ added) ∧
      ∀ st f, Event.complete st f ∈ added → statusAllowed s.params i st = true ∧ (f.isSome = true ↔ st = .frame)

/-- R182, R190 and vector 2.3, for every number of blocked polls: on a one-frame inbox, a SEND offered to an idle core
polls `k` times in vain, PEER accepts, the next poll shows room, and the completion follows; PEER has exactly the frame sent.
The completion is a step of its own (notes/assumptions/35.md), and under the model's switch `strictHost` the SEND is one HOST
may offer (36.md). -/
def Obligations.SendCompletesWhenPeerAccepts : Prop :=
  ∀ (k : Nat) (s : State) (d h : Word64) (rest : List PortWord), s.params.wf = true →
    s.params.openForm = false → s.params.inboxDepth = 1 → s.params.sendPollBound = none →
    s.core.seq = .idle → s.peer.inQ = [] → s.ports.requests = encode s.params (.send d h) :: rest →
    s.taken [encode s.params (.send d h)] →
    s.ports.moves = List.replicate (4 + k) Move.core ++ [.accept, .core, .core] →
    ∃ t, Host.Core.run Sys2Proof.core (k + 7) s = .next t ∧
      t.core = { s.core with txData := d, txHeader := h, polls := k + 1 } ∧
      t.peer = { s.peer with inStage := d, delivered := s.peer.delivered ++ [⟨d, h⟩] } ∧
      t.params = s.params ∧ t.ports.requests = rest ∧ t.ports.moves = [] ∧
      t.ports.events.getLast? = some (.complete .done none)

/-- R185 (the spec's decision D26), R188, R282 and U12: while PEER never accepts, a blocked SEND without a bound polls
for ever: after any number of steps it is still in `S3`, its frame still in the inbox. -/
def Obligations.SendBlocksWithoutBound : Prop :=
  ∀ (n : Nat) (s : State), s.params.wf = true → s.params.openForm = false → s.params.sendPollBound = none →
    s.core.seq = .send .s3 → s.peer.inQ.length = s.params.inboxDepth → s.ports.moves = [] →
    ∃ t, Host.Core.run Sys2Proof.core n s = .next t ∧
      t.core = { s.core with polls := s.core.polls + n } ∧ t.peer = s.peer ∧
      t.ports.requests = s.ports.requests

/-- R227 (the spec's decision D29), R228 and R230 (e): PUMP_FOREVER on an empty outbox goes round without end: after any
number of steps it is at `V0`, and its traffic is reads of `OUTBOX_CTRL` alone. -/
def Obligations.PumpForeverIdlesWithoutEnd : Prop :=
  ∀ (n : Nat) (s : State), s.params.wf = true → s.params.openForm = false → s.params.pumpStopOnIdle = false →
    s.core.seq = .pumpForever (.recv .v0) → s.peer.outQ = [] → s.ports.moves = [] →
    ∃ t, Host.Core.run Sys2Proof.core n s = .next t ∧ t.core = s.core ∧ t.peer = s.peer ∧
      ∃ added, t.ports.events = s.ports.events ++ added ∧ added.length = n ∧
        ∀ e ∈ added, ∃ v, e = .memRead (s.params.base + 0x8114) 4 v

/-- R136 and the equivalence of vector 2.6: on a non-empty outbox, PUMP_ONCE shows on the bus, the Endpoint port and the
trace exactly what RECV followed by DISPATCH of the frame returned shows, and leaves the core and PEER the same, whether
the frame is handled, refused or unknown. Each run is long enough for its case, and an idle core with nothing offered
does nothing in the steps left over. Under the model's switch `strictHost` the core has booted (notes/assumptions/36.md). -/
def Obligations.PumpOnceIsRecvThenDispatch : Prop :=
  ∀ (s : State) (f : Frame) (queue : List Frame) (b : Bool), s.params.wf = true → s.params.openForm = false →
    (s.params.strictHost = true → s.core.booted = true) → s.core.seq = .idle → s.peer.outQ = f :: queue →
    ∃ t u, Host.Core.run Sys2Proof.core 10 { s with
        ports.requests := [encode s.params .pumpOnce]
        ports.moves    := List.replicate 6 Move.core ++ [.answer b, .core, .core, .core] } = .next t ∧
      Host.Core.run Sys2Proof.core 12 { s with
        ports.requests := [encode s.params .recv, encode s.params (.dispatch f.data f.header)]
        ports.moves    := List.replicate 8 Move.core ++ [.answer b, .core, .core, .core] } = .next u ∧
      t.traffic = u.traffic ∧ t.core = u.core ∧ t.peer = u.peer ∧ t.core.seq = .idle
end

