-- ==== Sys2Proof/Laws/Fields.lean ====
section
/-! SUPPORT. The laws of the small definitions: register values and their flag bits, fields of words, the Endpoint
Table. -/

namespace Sys2Proof

/-! ### Fields of the command word -/

theorem toNat_cmdWord (op : BitVec 4) (a1 a0 : Word64) :
    (cmdWord op a1 a0).toNat = op.toNat * 2 ^ 128 + a1.toNat * 2 ^ 64 + a0.toNat := by
  have h : (cmdWord op a1 a0).toNat = ((op ++ a1 ++ a0 : BitVec (4 + 64 + 64))).toNat := rfl
  rw [h, BitVec.toNat_append, BitVec.toNat_append, ← Nat.shiftLeft_add_eq_or_of_lt (by omega),
    ← Nat.shiftLeft_add_eq_or_of_lt (by omega), Nat.shiftLeft_eq, Nat.shiftLeft_eq]
  ring

@[simp] theorem cmdOp_cmdWord (op : BitVec 4) (a1 a0 : Word64) : cmdOp (cmdWord op a1 a0) = op := by
  apply BitVec.eq_of_toNat_eq
  simp only [cmdOp, BitVec.extractLsb'_toNat, toNat_cmdWord, Nat.shiftRight_eq_div_pow]
  omega

@[simp] theorem cmdArg1_cmdWord (op : BitVec 4) (a1 a0 : Word64) : cmdArg1 (cmdWord op a1 a0) = a1 := by
  apply BitVec.eq_of_toNat_eq
  simp only [cmdArg1, BitVec.extractLsb'_toNat, toNat_cmdWord, Nat.shiftRight_eq_div_pow]
  omega

@[simp] theorem cmdArg0_cmdWord (op : BitVec 4) (a1 a0 : Word64) : cmdArg0 (cmdWord op a1 a0) = a0 := by
  apply BitVec.eq_of_toNat_eq
  simp only [cmdArg0, BitVec.extractLsb'_toNat, toNat_cmdWord, Nat.shiftRight_eq_div_pow]
  omega

end Sys2Proof

namespace Sys2Proof.Machine

/-! ### Register values and flags -/

theorem toNat_word (v : CtrlValue) :
    v.word.toNat = v.rest.toNat / 2 ^ 18 * 2 ^ 18 + v.empty.toNat * 2 ^ 17 + v.full.toNat * 2 ^ 16
      + v.rest.toNat % 2 ^ 16 := by
  have h : v.word.toNat = ((v.rest.extractLsb' 18 14 ++ BitVec.ofBool v.empty ++ BitVec.ofBool v.full
      ++ v.rest.extractLsb' 0 16 : BitVec (14 + 1 + 1 + 16))).toNat := rfl
  have he : v.empty.toNat < 2 := by cases v.empty <;> decide
  have hf : v.full.toNat < 2 := by cases v.full <;> decide
  rw [h, BitVec.toNat_append, BitVec.toNat_append, BitVec.toNat_append,
    ← Nat.shiftLeft_add_eq_or_of_lt (BitVec.isLt _), ← Nat.shiftLeft_add_eq_or_of_lt (BitVec.isLt _),
    ← Nat.shiftLeft_add_eq_or_of_lt (BitVec.isLt _)]
  simp only [Nat.shiftLeft_eq, BitVec.extractLsb'_toNat, Nat.shiftRight_eq_div_pow, BitVec.toNat_ofBool]
  omega

/-- Bit 16 of a register value is its `FULL` flag (R116, R117). -/
theorem word_bit16 (v : CtrlValue) : v.word.getLsbD 16 = v.full := by
  rw [BitVec.getLsbD, Nat.testBit_eq_decide_div_mod_eq, toNat_word]
  cases h : v.full <;> cases v.empty <;> simp <;> omega

/-- Bit 17 of a register value is its `EMPTY` flag (R116, R117). -/
theorem word_bit17 (v : CtrlValue) : v.word.getLsbD 17 = v.empty := by
  rw [BitVec.getLsbD, Nat.testBit_eq_decide_div_mod_eq, toNat_word]
  cases h : v.empty <;> cases v.full <;> simp <;> omega

/-- `FULL`, as `v[16]` (R120). -/
@[simp] theorem word_at16 (v : CtrlValue) : v.word[16] = v.full := by
  rw [← word_bit16 v]; rfl

/-- `EMPTY`, as `v[17]` (R120). -/
@[simp] theorem word_at17 (v : CtrlValue) : v.word[17] = v.empty := by
  rw [← word_bit17 v]; rfl

/-- Taking a value apart loses nothing. -/
@[simp] theorem word_ofWord (w : Word32) : (CtrlValue.ofWord w).word = w := by
  apply BitVec.eq_of_toNat_eq
  rw [toNat_word]
  simp only [CtrlValue.ofWord, BitVec.getLsbD, Nat.testBit_eq_decide_div_mod_eq]
  have bit (n : Nat) : (decide (n % 2 = 1)).toNat = n % 2 := by
    rcases Nat.mod_two_eq_zero_or_one n with h | h <;> rw [h] <;> rfl
  rw [bit, bit]
  omega

@[simp] theorem ofWord_full (w : Word32) : (CtrlValue.ofWord w).full = w[16] := rfl
@[simp] theorem ofWord_empty (w : Word32) : (CtrlValue.ofWord w).empty = w[17] := rfl
@[simp] theorem inboxCtrlValue_full (s : State) (d : Word32) : (inboxCtrlValue s d).full = inboxFull s := rfl
@[simp] theorem inboxCtrlValue_empty (s : State) (d : Word32) : (inboxCtrlValue s d).empty = inboxEmpty s := rfl
@[simp] theorem outboxCtrlValue_full (s : State) (d : Word32) : (outboxCtrlValue s d).full = outboxFull s := rfl
@[simp] theorem outboxCtrlValue_empty (s : State) (d : Word32) : (outboxCtrlValue s d).empty = outboxEmpty s := rfl

/-- The two constants of BOOT raise and clear `RUN` (R122). -/
@[simp] theorem runBit_runSet : runBit runSet = true := by decide
@[simp] theorem runBit_runClear : runBit runClear = false := by decide

/-- The rendering of `EP` as the low byte of the header. -/
theorem toNat_epOf (h : Word64) : (epOf h).toNat = h.toNat % 256 := by
  simp [epOf, BitVec.extractLsb'_toNat]

/-! ### Field extraction -/

/-- Bit by bit: an extracted field is bits `hi:lo` taken down to bit 0, every bit above it 0 (R120). -/
theorem getLsbD_fieldExtract {n : Nat} (v : BitVec n) {hi lo : Nat} (h : lo ≤ hi) (hn : hi < n) (k : Nat) :
    (fieldExtract v hi lo).getLsbD k = (decide (k ≤ hi - lo) && v.getLsbD (lo + k)) := by
  simp only [fieldExtract, ← Nat.shiftRight_eq_div_pow, BitVec.getLsbD]
  by_cases hk : k ≤ hi - lo
  · simp [hk, show k < n by omega, show k < hi - lo + 1 by omega]
  · simp [hk, show ¬ k < hi - lo + 1 by omega]

/-- A field of one bit is that bit. -/
theorem fieldExtract_bit (v : Word64) {k : Nat} (hk : k < 64) :
    fieldExtract v k k = if v.getLsbD k then 1 else 0 := by
  apply BitVec.eq_of_getLsbD_eq
  intro j hj
  rw [getLsbD_fieldExtract v (Nat.le_refl k) hk]
  cases j <;> cases v.getLsbD k <;> simp

/-! ### The Endpoint Table -/

@[simp] theorem eptLookup_nil (id : Ident) : eptLookup [] id = none := rfl

/-- Read after write: the entry written, and every other entry as before (R236). -/
theorem eptLookup_insert (t : List (Ident × Handle)) (i j : Ident) (h : Handle) :
    eptLookup (eptInsert t i h) j = if i = j then some h else eptLookup t j := by
  induction t with
  | nil => rfl
  | cons e rest ih =>
    obtain ⟨k, g⟩ := e
    simp only [eptInsert]
    split
    · rfl
    · split
      · rename_i hk
        subst hk
        simp only [eptLookup]
        split <;> rfl
      · rename_i hk
        simp only [eptLookup, ih]
        split
        · rename_i hkj
          subst hkj
          simp [hk]
        · rfl

theorem eptSorted_tail {e : Ident × Handle} {t : List (Ident × Handle)} (h : eptSorted (e :: t) = true) :
    eptSorted t = true := by
  cases t with
  | nil => rfl
  | cons f t => simp [eptSorted] at h; exact h.2

/-- A sorted table headed by an identifier: every other identifier in it is greater. -/
theorem eptSorted_cons {j : Ident} {g : Handle} {t : List (Ident × Handle)} :
    eptSorted ((j, g) :: t) = true ↔ (∀ e ∈ t, j.toNat < e.1.toNat) ∧ eptSorted t = true := by
  induction t generalizing j g with
  | nil => simp [eptSorted]
  | cons e rest ih =>
    obtain ⟨k, f⟩ := e
    simp only [eptSorted, Bool.and_eq_true, decide_eq_true_eq, List.mem_cons, forall_eq_or_imp]
    constructor
    · rintro ⟨hjk, hs⟩
      exact ⟨⟨hjk, fun e he => hjk.trans ((ih.mp hs).1 e he)⟩, hs⟩
    · rintro ⟨⟨hjk, -⟩, hs⟩
      exact ⟨hjk, hs⟩

theorem mem_eptInsert {t : List (Ident × Handle)} {i : Ident} {h : Handle} {e : Ident × Handle}
    (he : e ∈ eptInsert t i h) : e = (i, h) ∨ e ∈ t := by
  induction t with
  | nil => simpa [eptInsert] using he
  | cons a rest ih =>
    obtain ⟨j, g⟩ := a
    simp only [eptInsert] at he
    split at he
    · simpa using he
    · split at he
      · rcases List.mem_cons.mp he with h | h
        · exact .inl h
        · exact .inr (List.mem_cons_of_mem _ h)
      · rcases List.mem_cons.mp he with h | h
        · exact .inr (h ▸ List.mem_cons_self)
        · exact (ih h).imp id (List.mem_cons_of_mem _)

/-- Registration keeps the canonical form. -/
theorem eptSorted_insert {t : List (Ident × Handle)} (i : Ident) (h : Handle) (ht : eptSorted t = true) :
    eptSorted (eptInsert t i h) = true := by
  induction t with
  | nil => rfl
  | cons e rest ih =>
    obtain ⟨j, g⟩ := e
    obtain ⟨hlt, hrest⟩ := eptSorted_cons.mp ht
    simp only [eptInsert]
    split
    · rename_i hij
      simp [eptSorted, hij, ht]
    · split
      · rename_i hij
        subst hij
        exact eptSorted_cons.mpr ⟨hlt, hrest⟩
      · rename_i hij hne
        have hji : j.toNat < i.toNat := by
          have : i.toNat ≠ j.toNat := fun hn => hne (BitVec.eq_of_toNat_eq hn)
          omega
        refine eptSorted_cons.mpr ⟨fun e he => ?_, ih hrest⟩
        rcases mem_eptInsert he with rfl | he
        · exact hji
        · exact hlt e he

/-- Registration of a handle that fits keeps every handle fitting. -/
theorem eptHandlesFit_insert {w : Nat} {t : List (Ident × Handle)} (i : Ident) {h : Handle}
    (ht : eptHandlesFit w t = true) (hh : h.toNat < 2 ^ w) : eptHandlesFit w (eptInsert t i h) = true := by
  simp only [eptHandlesFit, List.all_eq_true, decide_eq_true_eq] at ht ⊢
  intro e he
  rcases mem_eptInsert he with rfl | he
  · exact hh
  · exact ht e he

/-- A valid entry's handle fits. -/
theorem eptLookup_fits {w : Nat} {t : List (Ident × Handle)} {i : Ident} {h : Handle}
    (ht : eptHandlesFit w t = true) (hl : eptLookup t i = some h) : h.toNat < 2 ^ w := by
  induction t with
  | nil => simp at hl
  | cons e rest ih =>
    obtain ⟨j, g⟩ := e
    simp only [eptHandlesFit, List.all_cons, Bool.and_eq_true, decide_eq_true_eq] at ht
    simp only [eptLookup] at hl
    split at hl
    · cases hl; exact ht.1
    · exact ih ht.2 hl

end Sys2Proof.Machine
end

