-- ==== Sys2Proof/Laws/State.lean ====
section
/-! SUPPORT. One lemma per field per named update of the state, each true by rfl, so that no proof unfolds a record
update. A group of fields an update leaves alone has one lemma for the group. -/

namespace Sys2Proof.Machine

variable (s : State)

/-! ### `State.emit` -/

@[simp] theorem State.emit_params (e : Event) : (s.emit e).params = s.params := rfl
@[simp] theorem State.emit_peer (e : Event) : (s.emit e).peer = s.peer := rfl
@[simp] theorem State.emit_core (e : Event) : (s.emit e).core = s.core := rfl
@[simp] theorem State.emit_ports_requests (e : Event) : (s.emit e).ports.requests = s.ports.requests := rfl
@[simp] theorem State.emit_ports_moves (e : Event) : (s.emit e).ports.moves = s.ports.moves := rfl
@[simp] theorem State.emit_ports_epReq (e : Event) : (s.emit e).ports.epReq = s.ports.epReq := rfl
@[simp] theorem State.emit_ports_epAnswer (e : Event) : (s.emit e).ports.epAnswer = s.ports.epAnswer := rfl
@[simp] theorem State.emit_ports_response (e : Event) : (s.emit e).ports.response = s.ports.response := rfl
@[simp] theorem State.emit_ports_rdata (e : Event) : (s.emit e).ports.rdata = s.ports.rdata := rfl
@[simp] theorem State.emit_ports_events (e : Event) : (s.emit e).ports.events = s.ports.events ++ [e] := rfl
@[simp] theorem State.emit_ports_draws (e : Event) : (s.emit e).ports.draws = s.ports.draws := rfl

/-! ### `State.goto` -/

@[simp] theorem State.goto_params (q : Seq) : (s.goto q).params = s.params := rfl
@[simp] theorem State.goto_peer (q : Seq) : (s.goto q).peer = s.peer := rfl
@[simp] theorem State.goto_core_booted (q : Seq) : (s.goto q).core.booted = s.core.booted := rfl
@[simp] theorem State.goto_core_seq (q : Seq) : (s.goto q).core.seq = q := rfl
@[simp] theorem State.goto_core_txData (q : Seq) : (s.goto q).core.txData = s.core.txData := rfl
@[simp] theorem State.goto_core_txHeader (q : Seq) : (s.goto q).core.txHeader = s.core.txHeader := rfl
@[simp] theorem State.goto_core_rxData (q : Seq) : (s.goto q).core.rxData = s.core.rxData := rfl
@[simp] theorem State.goto_core_rxHeader (q : Seq) : (s.goto q).core.rxHeader = s.core.rxHeader := rfl
@[simp] theorem State.goto_core_hnd (q : Seq) : (s.goto q).core.hnd = s.core.hnd := rfl
@[simp] theorem State.goto_core_polls (q : Seq) : (s.goto q).core.polls = s.core.polls := rfl
@[simp] theorem State.goto_core_ept (q : Seq) : (s.goto q).core.ept = s.core.ept := rfl
@[simp] theorem State.goto_ports_requests (q : Seq) : (s.goto q).ports.requests = s.ports.requests := rfl
@[simp] theorem State.goto_ports_moves (q : Seq) : (s.goto q).ports.moves = s.ports.moves := rfl
@[simp] theorem State.goto_ports_epReq (q : Seq) : (s.goto q).ports.epReq = s.ports.epReq := rfl
@[simp] theorem State.goto_ports_epAnswer (q : Seq) : (s.goto q).ports.epAnswer = s.ports.epAnswer := rfl
@[simp] theorem State.goto_ports_response (q : Seq) : (s.goto q).ports.response = s.ports.response := rfl
@[simp] theorem State.goto_ports_rdata (q : Seq) : (s.goto q).ports.rdata = s.ports.rdata := rfl
@[simp] theorem State.goto_ports_events (q : Seq) : (s.goto q).ports.events = s.ports.events := rfl
@[simp] theorem State.goto_ports_draws (q : Seq) : (s.goto q).ports.draws = s.ports.draws := rfl
theorem State.goto_core (q : Seq) : (s.goto q).core = { s.core with seq := q } := rfl

/-! ### `State.accept` -/

@[simp] theorem State.accept_params (i : Instr) (q : Seq) : (s.accept i q).params = s.params := rfl
@[simp] theorem State.accept_peer (i : Instr) (q : Seq) : (s.accept i q).peer = s.peer := rfl
@[simp] theorem State.accept_core_booted (i : Instr) (q : Seq) : (s.accept i q).core.booted = s.core.booted := rfl
@[simp] theorem State.accept_core_seq (i : Instr) (q : Seq) : (s.accept i q).core.seq = q := rfl
@[simp] theorem State.accept_core_txData (i : Instr) (q : Seq) : (s.accept i q).core.txData = s.core.txData := rfl
@[simp] theorem State.accept_core_txHeader (i : Instr) (q : Seq) : (s.accept i q).core.txHeader = s.core.txHeader := rfl
@[simp] theorem State.accept_core_rxData (i : Instr) (q : Seq) : (s.accept i q).core.rxData = s.core.rxData := rfl
@[simp] theorem State.accept_core_rxHeader (i : Instr) (q : Seq) : (s.accept i q).core.rxHeader = s.core.rxHeader := rfl
@[simp] theorem State.accept_core_hnd (i : Instr) (q : Seq) : (s.accept i q).core.hnd = s.core.hnd := rfl
@[simp] theorem State.accept_core_polls (i : Instr) (q : Seq) : (s.accept i q).core.polls = s.core.polls := rfl
@[simp] theorem State.accept_core_ept (i : Instr) (q : Seq) : (s.accept i q).core.ept = s.core.ept := rfl
@[simp] theorem State.accept_ports_requests (i : Instr) (q : Seq) : (s.accept i q).ports.requests = s.ports.requests := rfl
@[simp] theorem State.accept_ports_moves (i : Instr) (q : Seq) : (s.accept i q).ports.moves = s.ports.moves := rfl
@[simp] theorem State.accept_ports_epReq (i : Instr) (q : Seq) : (s.accept i q).ports.epReq = s.ports.epReq := rfl
@[simp] theorem State.accept_ports_epAnswer (i : Instr) (q : Seq) : (s.accept i q).ports.epAnswer = s.ports.epAnswer := rfl
@[simp] theorem State.accept_ports_response (i : Instr) (q : Seq) : (s.accept i q).ports.response = s.ports.response := rfl
@[simp] theorem State.accept_ports_rdata (i : Instr) (q : Seq) : (s.accept i q).ports.rdata = s.ports.rdata := rfl
@[simp] theorem State.accept_ports_events (i : Instr) (q : Seq) : (s.accept i q).ports.events = s.ports.events ++ [.accept i] := rfl
@[simp] theorem State.accept_ports_draws (i : Instr) (q : Seq) : (s.accept i q).ports.draws = s.ports.draws := rfl
theorem State.accept_core (i : Instr) (q : Seq) : (s.accept i q).core = { s.core with seq := q } := rfl

/-! ### `State.complete` -/

@[simp] theorem State.complete_params (st : Status) (f : Option Frame) : (s.complete st f).params = s.params := rfl
@[simp] theorem State.complete_peer (st : Status) (f : Option Frame) : (s.complete st f).peer = s.peer := rfl
@[simp] theorem State.complete_core_booted (st : Status) (f : Option Frame) : (s.complete st f).core.booted = s.core.booted := rfl
@[simp] theorem State.complete_core_seq (st : Status) (f : Option Frame) : (s.complete st f).core.seq = .idle := rfl
@[simp] theorem State.complete_core_txData (st : Status) (f : Option Frame) : (s.complete st f).core.txData = s.core.txData := rfl
@[simp] theorem State.complete_core_txHeader (st : Status) (f : Option Frame) : (s.complete st f).core.txHeader = s.core.txHeader := rfl
@[simp] theorem State.complete_core_rxData (st : Status) (f : Option Frame) : (s.complete st f).core.rxData = s.core.rxData := rfl
@[simp] theorem State.complete_core_rxHeader (st : Status) (f : Option Frame) : (s.complete st f).core.rxHeader = s.core.rxHeader := rfl
@[simp] theorem State.complete_core_hnd (st : Status) (f : Option Frame) : (s.complete st f).core.hnd = s.core.hnd := rfl
@[simp] theorem State.complete_core_polls (st : Status) (f : Option Frame) : (s.complete st f).core.polls = s.core.polls := rfl
@[simp] theorem State.complete_core_ept (st : Status) (f : Option Frame) : (s.complete st f).core.ept = s.core.ept := rfl
@[simp] theorem State.complete_ports_requests (st : Status) (f : Option Frame) : (s.complete st f).ports.requests = s.ports.requests := rfl
@[simp] theorem State.complete_ports_moves (st : Status) (f : Option Frame) : (s.complete st f).ports.moves = s.ports.moves := rfl
@[simp] theorem State.complete_ports_epReq (st : Status) (f : Option Frame) : (s.complete st f).ports.epReq = s.ports.epReq := rfl
@[simp] theorem State.complete_ports_epAnswer (st : Status) (f : Option Frame) : (s.complete st f).ports.epAnswer = s.ports.epAnswer := rfl
@[simp] theorem State.complete_ports_response (st : Status) (f : Option Frame) : (s.complete st f).ports.response = s.ports.response := rfl
@[simp] theorem State.complete_ports_rdata (st : Status) (f : Option Frame) : (s.complete st f).ports.rdata = s.ports.rdata := rfl
@[simp] theorem State.complete_ports_events (st : Status) (f : Option Frame) : (s.complete st f).ports.events = s.ports.events ++ [.complete st f] := rfl
@[simp] theorem State.complete_ports_draws (st : Status) (f : Option Frame) : (s.complete st f).ports.draws = s.ports.draws := rfl
theorem State.complete_core (st : Status) (f : Option Frame) : (s.complete st f).core = { s.core with seq := .idle } := rfl

/-! ### `State.traced` -/

@[simp] theorem State.traced_params (k : TraceKind) (f : Frame) : (s.traced k f).params = s.params := rfl
@[simp] theorem State.traced_peer (k : TraceKind) (f : Frame) : (s.traced k f).peer = s.peer := rfl
@[simp] theorem State.traced_core (k : TraceKind) (f : Frame) : (s.traced k f).core = s.core := rfl
@[simp] theorem State.traced_ports_requests (k : TraceKind) (f : Frame) : (s.traced k f).ports.requests = s.ports.requests := rfl
@[simp] theorem State.traced_ports_moves (k : TraceKind) (f : Frame) : (s.traced k f).ports.moves = s.ports.moves := rfl
@[simp] theorem State.traced_ports_epReq (k : TraceKind) (f : Frame) : (s.traced k f).ports.epReq = s.ports.epReq := rfl
@[simp] theorem State.traced_ports_epAnswer (k : TraceKind) (f : Frame) : (s.traced k f).ports.epAnswer = s.ports.epAnswer := rfl
@[simp] theorem State.traced_ports_response (k : TraceKind) (f : Frame) : (s.traced k f).ports.response = s.ports.response := rfl
@[simp] theorem State.traced_ports_rdata (k : TraceKind) (f : Frame) : (s.traced k f).ports.rdata = s.ports.rdata := rfl
@[simp] theorem State.traced_ports_events (k : TraceKind) (f : Frame) : (s.traced k f).ports.events = s.ports.events ++ [.trace ⟨k, epOf f.header, f⟩] := rfl
@[simp] theorem State.traced_ports_draws (k : TraceKind) (f : Frame) : (s.traced k f).ports.draws = s.ports.draws := rfl

/-! ### `State.advanceDraws` -/

@[simp] theorem State.advanceDraws_params (n : Nat) : (s.advanceDraws n).params = s.params := rfl
@[simp] theorem State.advanceDraws_peer (n : Nat) : (s.advanceDraws n).peer = s.peer := rfl
@[simp] theorem State.advanceDraws_core (n : Nat) : (s.advanceDraws n).core = s.core := rfl
@[simp] theorem State.advanceDraws_ports_requests (n : Nat) : (s.advanceDraws n).ports.requests = s.ports.requests := rfl
@[simp] theorem State.advanceDraws_ports_moves (n : Nat) : (s.advanceDraws n).ports.moves = s.ports.moves := rfl
@[simp] theorem State.advanceDraws_ports_epReq (n : Nat) : (s.advanceDraws n).ports.epReq = s.ports.epReq := rfl
@[simp] theorem State.advanceDraws_ports_epAnswer (n : Nat) : (s.advanceDraws n).ports.epAnswer = s.ports.epAnswer := rfl
@[simp] theorem State.advanceDraws_ports_response (n : Nat) : (s.advanceDraws n).ports.response = s.ports.response := rfl
@[simp] theorem State.advanceDraws_ports_rdata (n : Nat) : (s.advanceDraws n).ports.rdata = s.ports.rdata := rfl
@[simp] theorem State.advanceDraws_ports_events (n : Nat) : (s.advanceDraws n).ports.events = s.ports.events := rfl
@[simp] theorem State.advanceDraws_ports_draws (n : Nat) : (s.advanceDraws n).ports.draws = s.ports.draws + n := rfl

/-! ### `State.readDone` -/

@[simp] theorem State.readDone_params (a w : Nat) (v d : Word64) : (s.readDone a w v d).params = s.params := rfl
@[simp] theorem State.readDone_peer (a w : Nat) (v d : Word64) : (s.readDone a w v d).peer = s.peer := rfl
@[simp] theorem State.readDone_core (a w : Nat) (v d : Word64) : (s.readDone a w v d).core = s.core := rfl
@[simp] theorem State.readDone_ports_requests (a w : Nat) (v d : Word64) : (s.readDone a w v d).ports.requests = s.ports.requests := rfl
@[simp] theorem State.readDone_ports_moves (a w : Nat) (v d : Word64) : (s.readDone a w v d).ports.moves = s.ports.moves := rfl
@[simp] theorem State.readDone_ports_epReq (a w : Nat) (v d : Word64) : (s.readDone a w v d).ports.epReq = s.ports.epReq := rfl
@[simp] theorem State.readDone_ports_epAnswer (a w : Nat) (v d : Word64) : (s.readDone a w v d).ports.epAnswer = s.ports.epAnswer := rfl
@[simp] theorem State.readDone_ports_response (a w : Nat) (v d : Word64) : (s.readDone a w v d).ports.response = s.ports.response := rfl
@[simp] theorem State.readDone_ports_rdata (a w : Nat) (v d : Word64) : (s.readDone a w v d).ports.rdata = d := rfl
@[simp] theorem State.readDone_ports_events (a w : Nat) (v d : Word64) : (s.readDone a w v d).ports.events = s.ports.events ++ [.memRead a w v] := rfl
@[simp] theorem State.readDone_ports_draws (a w : Nat) (v d : Word64) : (s.readDone a w v d).ports.draws = s.ports.draws := rfl

/-! ### `finish` -/

@[simp] theorem finish_params (e : Ending) : (finish e s).params = s.params := rfl
@[simp] theorem finish_peer (e : Ending) : (finish e s).peer = s.peer := rfl
@[simp] theorem finish_core_booted (e : Ending) : (finish e s).core.booted = s.core.booted := rfl
@[simp] theorem finish_core_seq (e : Ending) : (finish e s).core.seq = .idle := rfl
@[simp] theorem finish_core_txData (e : Ending) : (finish e s).core.txData = s.core.txData := rfl
@[simp] theorem finish_core_txHeader (e : Ending) : (finish e s).core.txHeader = s.core.txHeader := rfl
@[simp] theorem finish_core_rxData (e : Ending) : (finish e s).core.rxData = s.core.rxData := rfl
@[simp] theorem finish_core_rxHeader (e : Ending) : (finish e s).core.rxHeader = s.core.rxHeader := rfl
@[simp] theorem finish_core_hnd (e : Ending) : (finish e s).core.hnd = s.core.hnd := rfl
@[simp] theorem finish_core_polls (e : Ending) : (finish e s).core.polls = s.core.polls := rfl
@[simp] theorem finish_core_ept (e : Ending) : (finish e s).core.ept = s.core.ept := rfl
@[simp] theorem finish_ports_requests (e : Ending) : (finish e s).ports.requests = s.ports.requests := rfl
@[simp] theorem finish_ports_moves (e : Ending) : (finish e s).ports.moves = s.ports.moves := rfl
@[simp] theorem finish_ports_epReq (e : Ending) : (finish e s).ports.epReq = s.ports.epReq := rfl
@[simp] theorem finish_ports_epAnswer (e : Ending) : (finish e s).ports.epAnswer = s.ports.epAnswer := rfl
@[simp] theorem finish_ports_response (e : Ending) : (finish e s).ports.response = s.ports.response := rfl
@[simp] theorem finish_ports_rdata (e : Ending) : (finish e s).ports.rdata = s.ports.rdata := rfl
@[simp] theorem finish_ports_events (e : Ending) : (finish e s).ports.events = s.ports.events ++ [.complete e.status (endingFrame e s)] := rfl
@[simp] theorem finish_ports_draws (e : Ending) : (finish e s).ports.draws = s.ports.draws := rfl
theorem finish_core (e : Ending) : (finish e s).core = { s.core with seq := .idle } := rfl

/-! ### `State.openTaken` -/

@[simp] theorem State.openTaken_params : (s.openTaken).params = s.params := rfl
@[simp] theorem State.openTaken_peer : (s.openTaken).peer = s.peer := rfl
@[simp] theorem State.openTaken_core : (s.openTaken).core = s.core := rfl
@[simp] theorem State.openTaken_ports_requests : (s.openTaken).ports.requests = s.ports.requests := rfl
@[simp] theorem State.openTaken_ports_moves : (s.openTaken).ports.moves = s.ports.moves := rfl
@[simp] theorem State.openTaken_ports_epReq : (s.openTaken).ports.epReq = s.ports.epReq := rfl
@[simp] theorem State.openTaken_ports_epAnswer : (s.openTaken).ports.epAnswer = s.ports.epAnswer := rfl
@[simp] theorem State.openTaken_ports_response : (s.openTaken).ports.response = none := rfl
@[simp] theorem State.openTaken_ports_rdata : (s.openTaken).ports.rdata = s.ports.rdata := rfl
@[simp] theorem State.openTaken_ports_events : (s.openTaken).ports.events = s.ports.events := rfl
@[simp] theorem State.openTaken_ports_draws : (s.openTaken).ports.draws = s.ports.draws + 1 := rfl

end Sys2Proof.Machine
end

