-- ==== Sys2Proof/Laws/Bus.lean ====
section
/-! SUPPORT. What each operation on the Register Interface can do, said once: its answer for each register, and, of any
answer, what it leaves alone. -/

namespace Sys2Proof.Machine

/-! ### `andThen` -/

@[simp] theorem andThen_next {α β : Type} (a : α) (f : α → Host.Outcome β Fault Refusal) :
    andThen (.next a) f = f a := rfl
@[simp] theorem andThen_refused {α β : Type} (r : Refusal) (f : α → Host.Outcome β Fault Refusal) :
    andThen (.refused r) f = .refused r := rfl
@[simp] theorem andThen_fault {α β : Type} (r : Fault) (f : α → Host.Outcome β Fault Refusal) :
    andThen (.fault r) f = .fault r := rfl

/-- A composite answers a next state only through a next state of its first part. -/
theorem andThen_eq_next {α β : Type} {x : Host.Outcome α Fault Refusal} {f : α → Host.Outcome β Fault Refusal} {b : β}
    (h : andThen x f = .next b) : ∃ a, x = .next a ∧ f a = .next b := by
  cases x with
  | next a => exact ⟨a, rfl, h⟩
  | fault r => cases r
  | refused r => cases h

/-! ### Where the registers are -/

/-- The parameters' constraints, one by one. -/
theorem wf_iff (p : Params) : p.wf = true ↔ p.base % 8 = 0 ∧ 16 ≤ p.addrW ∧ p.base + 0x8840 ≤ 2 ^ p.addrW ∧
    1 ≤ p.epHandleW ∧ p.epHandleW ≤ 64 ∧ 1 ≤ p.inboxDepth ∧ 1 ≤ p.outboxDepth ∧
    Params.boundOk p.sendPollBound = true := by
  simp [Params.wf, and_assoc]

/-- Every register answers at its own address and width. -/
theorem resolve_reg {p : Params} (h : p.wf = true) (r : Reg) : resolve p (regAddr p r) (regWidth r) = .ok r := by
  have hb := ((wf_iff p).mp h).1
  cases r <;> simp [resolve, regAt, allRegs, regAddr, regOffset, regWidth] <;> omega

theorem resolve_cpuControl {p : Params} (h : p.wf = true) : resolve p (regAddr p .cpuControl) 4 = .ok .cpuControl :=
  resolve_reg h .cpuControl
theorem resolve_inboxCtrl {p : Params} (h : p.wf = true) : resolve p (regAddr p .inboxCtrl) 4 = .ok .inboxCtrl :=
  resolve_reg h .inboxCtrl
theorem resolve_outboxCtrl {p : Params} (h : p.wf = true) : resolve p (regAddr p .outboxCtrl) 4 = .ok .outboxCtrl :=
  resolve_reg h .outboxCtrl
theorem resolve_inbox0 {p : Params} (h : p.wf = true) : resolve p (regAddr p .inbox0) 8 = .ok .inbox0 :=
  resolve_reg h .inbox0
theorem resolve_inbox1 {p : Params} (h : p.wf = true) : resolve p (regAddr p .inbox1) 8 = .ok .inbox1 :=
  resolve_reg h .inbox1
theorem resolve_outbox0 {p : Params} (h : p.wf = true) : resolve p (regAddr p .outbox0) 8 = .ok .outbox0 :=
  resolve_reg h .outbox0
theorem resolve_outbox1 {p : Params} (h : p.wf = true) : resolve p (regAddr p .outbox1) 8 = .ok .outbox1 :=
  resolve_reg h .outbox1

/-- An access that names a register names it at its own address and width. -/
theorem resolve_ok {p : Params} {a w : Nat} {r : Reg} (h : resolve p a w = .ok r) : regAddr p r = a ∧ regWidth r = w := by
  unfold resolve at h
  split at h
  · cases h
  · split at h
    · rename_i q hq
      cases h
      simpa [regAt] using List.find?_some hq
    · split at h <;> cases h

/-! ### Reads -/

/-- What a read of a control register answers, in either form: a value whose flag bits are those of the queue in the
closed form, and a state in which only the bus port has moved. -/
theorem busRead32_ctrl {s : State} (h : s.params.wf = true) (r : Reg) (hr : r = .inboxCtrl ∨ r = .outboxCtrl) :
    ∃ v t, busRead32 (regAddr s.params r) s = .next (v, t) ∧
      t.params = s.params ∧ t.core = s.core ∧ t.peer = s.peer ∧
      t.ports.requests = s.ports.requests ∧ t.ports.moves = s.ports.moves ∧
      t.ports.epReq = s.ports.epReq ∧ t.ports.epAnswer = s.ports.epAnswer ∧
      t.ports.events = s.ports.events ++ [.memRead (regAddr s.params r) 4 (v.word.setWidth 64)] ∧
      (s.params.openForm = true → v = CtrlValue.ofWord (s.openValue.extractLsb' 0 32)) ∧
      (s.params.openForm = false → r = .inboxCtrl → v.full = inboxFull s ∧ v.empty = inboxEmpty s) ∧
      (s.params.openForm = false → r = .outboxCtrl → v.full = outboxFull s ∧ v.empty = outboxEmpty s) := by
  rcases hr with rfl | rfl
  · rw [busRead32, resolve_inboxCtrl h]
    cases ho : s.params.openForm <;> simp [closedRead32, regReadable]
  · rw [busRead32, resolve_outboxCtrl h]
    cases ho : s.params.openForm <;> simp [closedRead32, regReadable]

/-- The status read of the receive part, in the closed form: the answer is whether the outbox is empty. -/
theorem readOutboxEmpty_closed {s : State} (h : s.params.wf = true) (ho : s.params.openForm = false) :
    ∃ v : Word32, v[17] = outboxEmpty s ∧ v[16] = outboxFull s ∧
      readOutboxEmpty s = .next (outboxEmpty s,
        (s.advanceDraws 1).readDone (regAddr s.params .outboxCtrl) 4 (v.setWidth 64)
          (s.drawn.extractLsb' 32 32 ++ v)) := by
  refine ⟨(outboxCtrlValue s (s.drawn.extractLsb' 0 32)).word, by simp, by simp, ?_⟩
  rw [readOutboxEmpty, busRead32, resolve_outboxCtrl h]
  simp [ho, closedRead32, regReadable]

/-- A read of `OUTBOX0` with a frame there returns the head's data and changes only the bus port (R254). -/
theorem busRead64_outbox0 {s : State} (h : s.params.wf = true) (ho : s.params.openForm = false) :
    busRead64 (regAddr s.params .outbox0) s = .next ((outboxHead s).data,
      (s.advanceDraws 1).readDone (regAddr s.params .outbox0) 8 (outboxHead s).data (outboxHead s).data) := by
  rw [busRead64, resolve_outbox0 h]
  simp [ho, closedRead64, regReadable]

/-- A read of `OUTBOX1` returns the head's header and removes the frame (R255). -/
theorem busRead64_outbox1 {s : State} (h : s.params.wf = true) (ho : s.params.openForm = false) :
    busRead64 (regAddr s.params .outbox1) s = .next ((outboxHead s).header,
      { (s.advanceDraws 1).readDone (regAddr s.params .outbox1) 8 (outboxHead s).header (outboxHead s).header with
        peer.outQ := s.peer.outQ.tail }) := by
  rw [busRead64, resolve_outbox1 h]
  simp [ho, closedRead64, regReadable]

/-- In the open form a 64-bit read that is answered returns what the responder has put there (R245). -/
theorem busRead64_open {s : State} (h : s.params.wf = true) (ho : s.params.openForm = true) (r : Reg)
    (hr : regWidth r = 8) (hread : regReadable r = true) :
    busRead64 (regAddr s.params r) s = .next (s.openValue,
      s.openTaken.readDone (regAddr s.params r) 8 s.openValue s.openValue) := by
  rw [busRead64, ← hr, resolve_reg h]
  simp [ho, hr, hread]

/-- The head of a non-empty outbox. -/
theorem outboxHead_cons {s : State} {f : Frame} {rest : List Frame} (h : s.peer.outQ = f :: rest) :
    outboxHead s = f := by
  simp [outboxHead, h]

/-- Of any 32-bit read that answers: nothing but the bus port has moved. -/
theorem busRead32_frame {a : Nat} {s t : State} {v : CtrlValue} (h : busRead32 a s = .next (v, t)) :
    t.params = s.params ∧ t.core = s.core ∧ t.peer = s.peer ∧ t.ports.requests = s.ports.requests ∧
      t.ports.moves = s.ports.moves ∧ t.ports.epReq = s.ports.epReq ∧ t.ports.epAnswer = s.ports.epAnswer ∧
      t.ports.events = s.ports.events ++ [.memRead a 4 (v.word.setWidth 64)] := by
  unfold busRead32 at h
  split at h
  · cases h
  · split at h
    · cases h
    split at h
    · cases h; simp
    · rename_i r _ _ _
      cases r <;> simp [closedRead32] at h <;> obtain ⟨rfl, rfl⟩ := h <;> simp

/-- Of any 64-bit read that answers: nothing but the bus port has moved, and the outbox when it lost its head. -/
theorem busRead64_frame {a : Nat} {s t : State} {v : Word64} (h : busRead64 a s = .next (v, t)) :
    t.params = s.params ∧ t.core = s.core ∧ t.ports.requests = s.ports.requests ∧
      t.ports.moves = s.ports.moves ∧ t.ports.epReq = s.ports.epReq ∧ t.ports.epAnswer = s.ports.epAnswer ∧
      t.ports.events = s.ports.events ++ [.memRead a 8 v] ∧
      (t.peer = s.peer ∨
        t.peer = { s.peer with outQ := s.peer.outQ.tail } ∧ s.params.openForm = false ∧
          regAddr s.params .outbox1 = a) := by
  unfold busRead64 at h
  split at h
  · cases h
  · rename_i r hr
    split at h
    · cases h
    split at h
    · cases h; simp
    · rename_i ho
      have ha := (resolve_ok hr).1
      cases r <;> simp [closedRead64] at h <;> obtain ⟨rfl, rfl⟩ := h <;> simp_all

/-! ### The core's two field reads (R155) -/

/-- The status read of the receive part is a field read of `OUTBOX_CTRL.EMPTY`. -/
theorem fieldRead_outboxEmpty {s t : State} {b : Bool} (h : readOutboxEmpty s = .next (b, t)) :
    fieldRead outboxEmptyField s = .next (if b then 1 else 0, t) := by
  obtain ⟨⟨v, u⟩, hu, he⟩ := andThen_eq_next h
  cases he
  simp [fieldRead, readReg, outboxEmptyField, regWidth, hu, fieldExtract_bit]

/-- The poll of SEND is a field read of `INBOX_CTRL.FULL`. -/
theorem fieldRead_inboxFull {s t : State} {v : CtrlValue}
    (h : busRead32 (regAddr s.params .inboxCtrl) s = .next (v, t)) :
    fieldRead inboxFullField s = .next (if v.full then 1 else 0, t) := by
  simp [fieldRead, readReg, inboxFullField, regWidth, h, fieldExtract_bit]

/-! ### Writes -/

/-- A write of `CPU_CONTROL` (R152, R248). -/
theorem busWrite32_cpuControl {s : State} (h : s.params.wf = true) (v : Word32) :
    busWrite32 (regAddr s.params .cpuControl) v s = .next
      { s.emit (.memWrite (regAddr s.params .cpuControl) 4 (v.setWidth 64)) with
        peer := writeCpuControl s.params.openForm v s.peer } := by
  rw [busWrite32, resolve_cpuControl h]

/-- A write of `INBOX0` latches (R250). -/
theorem busWrite64_inbox0 {s : State} (h : s.params.wf = true) (v : Word64) :
    busWrite64 (regAddr s.params .inbox0) v s = .next
      { s.emit (.memWrite (regAddr s.params .inbox0) 8 v) with
        peer := if s.params.openForm then s.peer else { s.peer with inStage := v } } := by
  rw [busWrite64, resolve_inbox0 h]
  cases ho : s.params.openForm <;> simp [State.emit]

/-- A write of `INBOX1` commits the staged frame where there is room (R251). -/
theorem busWrite64_inbox1 {s : State} (h : s.params.wf = true) (v : Word64)
    (hroom : s.params.openForm = false → s.peer.inQ.length < s.params.inboxDepth) :
    busWrite64 (regAddr s.params .inbox1) v s = .next
      { s.emit (.memWrite (regAddr s.params .inbox1) 8 v) with
        peer := if s.params.openForm then s.peer
          else { s.peer with inQ := s.peer.inQ ++ [⟨s.peer.inStage, v⟩] } } := by
  rw [busWrite64, resolve_inbox1 h]
  cases ho : s.params.openForm <;> simp_all [State.emit]

/-- A write of `INBOX1` onto a full inbox has no step in the closed form (R258). -/
theorem busWrite64_inbox1_full {s : State} (h : s.params.wf = true) (v : Word64) (ho : s.params.openForm = false)
    (hfull : ¬ s.peer.inQ.length < s.params.inboxDepth) :
    busWrite64 (regAddr s.params .inbox1) v s = .refused .inboxOverflow := by
  rw [busWrite64, resolve_inbox1 h]
  simp [ho, hfull]

/-- Of any 32-bit write that answers: one event, and at most `CPU_CONTROL` and `started` changed. -/
theorem busWrite32_frame {a : Nat} {v : Word32} {s t : State} (h : busWrite32 a v s = .next t) :
    t.params = s.params ∧ t.core = s.core ∧
      t.ports = { s.ports with events := s.ports.events ++ [.memWrite a 4 (v.setWidth 64)] } ∧
      (t.peer = s.peer ∨ t.peer = writeCpuControl s.params.openForm v s.peer) := by
  unfold busWrite32 at h
  split at h
  · cases h
  · split at h
    · cases h; simp [State.emit]
    · cases h

/-- Of any 64-bit write that answers: one event, and at most the latch or the tail of the inbox changed. -/
theorem busWrite64_frame {a : Nat} {v : Word64} {s t : State} (h : busWrite64 a v s = .next t) :
    t.params = s.params ∧ t.core = s.core ∧
      t.ports = { s.ports with events := s.ports.events ++ [.memWrite a 8 v] } ∧
      (t.peer = s.peer ∨ t.peer = { s.peer with inStage := v } ∨
        s.peer.inQ.length < s.params.inboxDepth ∧
          t.peer = { s.peer with inQ := s.peer.inQ ++ [⟨s.peer.inStage, v⟩] }) := by
  unfold busWrite64 at h
  split at h
  · cases h
  · split at h
    · cases h; split <;> simp [State.emit]
    · split at h
      · cases h; simp [State.emit]
      · split at h
        · rename_i hl
          cases h
          simp [State.emit, hl]
        · cases h
    · cases h

end Sys2Proof.Machine
end

