-- ==== Sys2Proof/Laws/Step.lean ====
section
/-! SUPPORT. What one step can do, said once: whose move it is, and, when it is the core's, which instruction runs and on
which state. Every invariant is derived from these. -/

namespace Sys2Proof.Machine

/-- The state a step's move acts on: the move taken off the schedule. -/
def State.popMove (s : State) : State := { s with ports.moves := s.ports.moves.tail }

@[simp] theorem popMove_params (s : State) : s.popMove.params = s.params := rfl
@[simp] theorem popMove_core (s : State) : s.popMove.core = s.core := rfl
@[simp] theorem popMove_peer (s : State) : s.popMove.peer = s.peer := rfl
@[simp] theorem popMove_requests (s : State) : s.popMove.ports.requests = s.ports.requests := rfl
@[simp] theorem popMove_moves (s : State) : s.popMove.ports.moves = s.ports.moves.tail := rfl
@[simp] theorem popMove_epReq (s : State) : s.popMove.ports.epReq = s.ports.epReq := rfl
@[simp] theorem popMove_epAnswer (s : State) : s.popMove.ports.epAnswer = s.ports.epAnswer := rfl
@[simp] theorem popMove_response (s : State) : s.popMove.ports.response = s.ports.response := rfl
@[simp] theorem popMove_rdata (s : State) : s.popMove.ports.rdata = s.ports.rdata := rfl
@[simp] theorem popMove_events (s : State) : s.popMove.ports.events = s.ports.events := rfl
@[simp] theorem popMove_draws (s : State) : s.popMove.ports.draws = s.ports.draws := rfl

/-- The state an idle core's instruction runs on: its word taken. -/
def State.popRequest (s : State) : State := { s with ports.requests := s.ports.requests.tail }

@[simp] theorem popRequest_params (s : State) : s.popRequest.params = s.params := rfl
@[simp] theorem popRequest_core (s : State) : s.popRequest.core = s.core := rfl
@[simp] theorem popRequest_peer (s : State) : s.popRequest.peer = s.peer := rfl
@[simp] theorem popRequest_requests (s : State) : s.popRequest.ports.requests = s.ports.requests.tail := rfl
@[simp] theorem popRequest_moves (s : State) : s.popRequest.ports.moves = s.ports.moves := rfl
@[simp] theorem popRequest_epReq (s : State) : s.popRequest.ports.epReq = s.ports.epReq := rfl
@[simp] theorem popRequest_epAnswer (s : State) : s.popRequest.ports.epAnswer = s.ports.epAnswer := rfl
@[simp] theorem popRequest_events (s : State) : s.popRequest.ports.events = s.ports.events := rfl

/-- With legal parameters a step is the next move, taken off the schedule. -/
theorem step_of_wf {s : State} (h : s.params.wf = true) : step s = takeMove (nextMove s) s.popMove := by
  simp [step, h, moveOnce, State.popMove]

/-- A step that answers: the parameters are legal, and exactly one agent has moved. -/
theorem step_cases {s t : State} (h : step s = .next t) :
    s.params.wf = true ∧
    ((nextMove s = .core ∧ coreMove s.popMove = .next t) ∨
      (nextMove s = .accept ∧ t = peerAccept s.popMove) ∨
      (∃ f, nextMove s = .post f ∧ t = peerPost f s.popMove) ∨
      (∃ b, nextMove s = .answer b ∧ t = endpointAnswer b s.popMove) ∨
      (∃ v, nextMove s = .respond v ∧ t = busRespond v s.popMove) ∨
      (nextMove s = .coreReset ∧ t = coreReset s.popMove) ∨
      (nextMove s = .peerReset ∧ t = peerReset s.popMove)) := by
  cases hp : s.params.wf
  · simp [step, hp] at h
  · refine ⟨rfl, ?_⟩
    rw [step_of_wf hp] at h
    cases hm : nextMove s <;> simp only [hm, takeMove] at h
    · exact .inl ⟨rfl, h⟩
    · cases h; exact .inr (.inl ⟨rfl, rfl⟩)
    · cases h; exact .inr (.inr (.inl ⟨_, rfl, rfl⟩))
    · cases h; exact .inr (.inr (.inr (.inl ⟨_, rfl, rfl⟩)))
    · cases h; exact .inr (.inr (.inr (.inr (.inl ⟨_, rfl, rfl⟩))))
    · cases h; exact .inr (.inr (.inr (.inr (.inr (.inl ⟨rfl, rfl⟩)))))
    · cases h; exact .inr (.inr (.inr (.inr (.inr (.inr ⟨rfl, rfl⟩)))))

/-- Whether a word is refused depends on the parameters and on `booted` alone. -/
@[simp] theorem refusedWord_popMove (s : State) (w : PortWord) : refusedWord s.popMove w = refusedWord s w := rfl

/-- With the switch off no word is refused. -/
theorem refusedWord_off {s : State} (h : s.params.strictHost = false) (w : PortWord) : refusedWord s w = none := by
  simp [refusedWord, h]

/-- The core's move on a command in progress. -/
theorem coreMove_busy {s : State} {i : Instr} (h : s.core.current = some i) : coreMove s = exec i s := by
  simp [coreMove, h]

/-- The core's move when it is idle and no word is offered. -/
theorem coreMove_nothing {s : State} (hs : s.core.seq = .idle) (hr : s.ports.requests = []) : coreMove s = .next s := by
  simp [coreMove, CoreState.current, hs, hr]

/-- The core's move when it is idle and takes a word. -/
theorem coreMove_takes {s : State} {w : PortWord} {rest : List PortWord} {i : Instr} (hs : s.core.seq = .idle)
    (hr : s.ports.requests = w :: rest) (hf : refusedWord s w = none) (hd : decodePort s.params w = .ok i) :
    coreMove s = exec i { s with ports.requests := rest } := by
  simp [coreMove, CoreState.current, hs, hr, hf, hd]

/-- The core's move when it is idle and takes a reserved command. -/
theorem coreMove_reserved {s : State} {w : PortWord} {rest : List PortWord} {op : BitVec 4} (hs : s.core.seq = .idle)
    (hr : s.ports.requests = w :: rest) (hf : refusedWord s w = none)
    (hd : decodePort s.params w = .error (.reservedOpcode op)) :
    coreMove s = .next (illegalCommand op { s with ports.requests := rest }) := by
  simp [coreMove, CoreState.current, hs, hr, hf, hd]

/-- The core's move when it is idle and the word is one the machine refuses. -/
theorem coreMove_refuses {s : State} {w : PortWord} {rest : List PortWord} {e : Refusal} (hs : s.core.seq = .idle)
    (hr : s.ports.requests = w :: rest) (hf : refusedWord s w = some e) : coreMove s = .refused e := by
  simp [coreMove, CoreState.current, hs, hr, hf]

/-- The core's move at the completion of a reserved command. -/
theorem coreMove_reservedDone {s : State} {op : BitVec 4} (hs : s.core.seq = .ending (.reserved op)) :
    coreMove s = .next (finish (.reserved op) s) := by
  simp [coreMove, CoreState.current, CoreState.endingInstr, hs]

/-- A sequencer with no instruction to go on with is idle, or at the completion of a reserved command. -/
theorem current_none {c : CoreState} (h : c.current = none) : c.seq = .idle ∨ ∃ op, c.seq = .ending (.reserved op) := by
  unfold CoreState.current at h
  split at h <;> simp_all
  rename_i e he
  cases e <;> simp_all [CoreState.endingInstr]

/-- A move of the core that answers: the command in progress, the completion of a reserved command, nothing, the first
word's instruction, or the acceptance of a reserved command. A word taken is one the machine does not refuse. -/
theorem coreMove_cases {s t : State} (h : coreMove s = .next t) :
    (∃ i, s.core.current = some i ∧ exec i s = .next t) ∨
    (∃ op, s.core.seq = .ending (.reserved op) ∧ t = finish (.reserved op) s) ∨
    (s.core.seq = .idle ∧ s.ports.requests = [] ∧ t = s) ∨
    (∃ r rest i, s.core.seq = .idle ∧ s.ports.requests = r :: rest ∧ refusedWord s r = none ∧
      decodePort s.params r = .ok i ∧ exec i s.popRequest = .next t) ∨
    (∃ r rest op, s.core.seq = .idle ∧ s.ports.requests = r :: rest ∧ refusedWord s r = none ∧
      decodePort s.params r = .error (.reservedOpcode op) ∧ t = illegalCommand op s.popRequest) := by
  cases hc : s.core.current with
  | some i => exact .inl ⟨i, rfl, by simpa [coreMove, hc] using h⟩
  | none =>
    rcases current_none hc with hs | ⟨op, hs⟩
    · cases hr : s.ports.requests with
      | nil =>
        simp only [coreMove, hc, hs, hr] at h
        cases h
        exact .inr (.inr (.inl ⟨hs, rfl, rfl⟩))
      | cons r rest =>
        cases hw : refusedWord s r with
        | some e => simp [coreMove, hc, hs, hr, hw] at h
        | none =>
          simp only [coreMove, hc, hs, hr, hw] at h
          split at h
          · rename_i i hd
            exact .inr (.inr (.inr (.inl ⟨r, rest, i, hs, rfl, hw, hd, by simpa [State.popRequest, hr] using h⟩)))
          · rename_i op hd
            cases h
            exact .inr (.inr (.inr (.inr ⟨r, rest, op, hs, rfl, hw, hd, by simp [State.popRequest, hr]⟩)))
    · simp only [coreMove, hc, hs] at h
      cases h
      exact .inr (.inl ⟨op, hs, rfl⟩)

/-- A command word decodes to a command, never to a bus primitive. -/
theorem decodeCmd_isCommand {p : Params} {w : BitVec 132} {i : Instr} (h : decodeCmd p w = .ok i) :
    i = .boot ∨ (∃ d hd, i = .send d hd) ∨ i = .recv ∨ (∃ d hd, i = .dispatch d hd) ∨ i = .pumpOnce ∨
      i = .pumpForever ∨ (∃ id hd, i = .addEp id hd ∧ hd = handleOf p (cmdArg1 w)) := by
  unfold decodeCmd at h
  split at h <;> cases h <;> simp

/-- A command word is no command exactly when its opcode is reserved (R125, R127). -/
theorem decodeCmd_reserved {p : Params} {w : BitVec 132} {op : BitVec 4} :
    decodeCmd p w = .error (.reservedOpcode op) ↔ op = cmdOp w ∧ (cmdOp w = 0x0 ∨ 0x8 ≤ (cmdOp w).toNat) := by
  have h0 : cmdOp w = 0x0 ↔ (cmdOp w).toNat = 0 := BitVec.toNat_inj.symm
  have hl := (cmdOp w).isLt
  unfold decodeCmd
  rw [h0]
  split
  all_goals simp only [reduceCtorEq, false_iff, Except.error.injEq, DecodeError.reservedOpcode.injEq, not_and]
  all_goals first
    | exact fun _ => by omega
    | (simp only [imp_false] at *
       exact ⟨fun h => ⟨h.symm, by omega⟩, fun h => h.1.symm⟩)

/-- A decoded handle fits its width (R126). -/
theorem handleOf_fits {p : Params} (a : Word64) : (handleOf p a).toNat < 2 ^ p.epHandleW := by
  simp only [handleOf, BitVec.toNat_ofNat]
  exact lt_of_le_of_lt (Nat.mod_le _ _) (Nat.mod_lt _ (by positivity))

end Sys2Proof.Machine
end

