-- ==== Sys2Proof/Laws/Events.lean ====
section
/-! SUPPORT. What one event of a command can do, said once for all phases: the parts shared by RECV, DISPATCH and the
pumps, then the inversion of an event (`CommandEvent`), of an idle core's instruction, and of a step (`OneStep`). -/

namespace Sys2Proof.Machine

/-! ### The receive part -/

/-- Of a status read that answers: only the bus port has moved, and in the closed form the answer is the outbox's. -/
theorem readOutboxEmpty_frame {s t : State} {b : Bool} (h : readOutboxEmpty s = .next (b, t)) :
    t.params = s.params ∧ t.core = s.core ∧ t.peer = s.peer ∧ t.ports.requests = s.ports.requests ∧
      t.ports.moves = s.ports.moves ∧ t.ports.epReq = s.ports.epReq ∧ t.ports.epAnswer = s.ports.epAnswer ∧
      (∃ v, t.ports.events = s.ports.events ++ [.memRead (regAddr s.params .outboxCtrl) 4 v]) ∧
      (s.params.wf = true → s.params.openForm = false → b = outboxEmpty s) := by
  obtain ⟨⟨v, u⟩, hb, he⟩ := andThen_eq_next h
  cases he
  obtain ⟨h1, h2, h3, h4, h5, h6, h7, h8⟩ := busRead32_frame hb
  refine ⟨h1, h2, h3, h4, h5, h6, h7, ⟨_, h8⟩, fun hw ho => ?_⟩
  obtain ⟨v', -, -, hx⟩ := readOutboxEmpty_closed hw ho
  rw [hx] at h
  simpa using (congrArg Prod.fst (Host.Outcome.next.inj h)).symm

/-- Of the read of `OUTBOX0` that answers: `RX_DATA` and the phase change, and in the closed form the word is the
head's. -/
theorem loadRxData_frame {s t : State} {q : Seq} (h : loadRxData q s = .next t) :
    ∃ v, t.params = s.params ∧ t.core = { s.core with rxData := v, seq := q } ∧ t.peer = s.peer ∧
      t.ports.requests = s.ports.requests ∧ t.ports.moves = s.ports.moves ∧ t.ports.epReq = s.ports.epReq ∧
      t.ports.epAnswer = s.ports.epAnswer ∧
      t.ports.events = s.ports.events ++ [.memRead (regAddr s.params .outbox0) 8 v] ∧
      (s.params.wf = true → s.params.openForm = false → v = (outboxHead s).data) := by
  obtain ⟨⟨v, u⟩, hb, he⟩ := andThen_eq_next h
  simp only at he; cases he
  obtain ⟨h1, h2, h4, h5, h6, h7, h8, h3⟩ := busRead64_frame hb
  refine ⟨v, h1, by simp [State.goto_core, h2], ?_, h4, h5, h6, h7, h8, fun hw ho => ?_⟩
  · rcases h3 with h3 | ⟨-, -, h3⟩
    · simpa using h3
    · simp [regAddr, regOffset] at h3
  · rw [busRead64_outbox0 hw ho] at hb; cases hb; rfl

/-- Of a 64-bit read that names `OUTBOX1`: in the closed form the head's header is returned and the head leaves. -/
theorem busRead64_outbox1_inv {a : Nat} {s t : State} {v : Word64} (hb : busRead64 a s = .next (v, t))
    (ha : a = regAddr s.params .outbox1) :
    t.peer = (if s.params.openForm = true then s.peer else { s.peer with outQ := s.peer.outQ.tail }) ∧
      (s.params.openForm = false → v = (outboxHead s).header) := by
  unfold busRead64 at hb
  split at hb
  · cases hb
  · rename_i r hr
    have hr' : r = .outbox1 := by
      have := (resolve_ok hr).1
      subst ha
      cases r <;> simp [regAddr, regOffset] at this
      rfl
    subst hr'
    simp only [regReadable, Bool.not_true, Bool.false_eq_true, if_false] at hb
    split at hb
    · rename_i ho; cases hb; simp [ho]
    · rename_i ho; simp [closedRead64] at hb; obtain ⟨rfl, rfl⟩ := hb; simp [ho]

/-- Of the read of `OUTBOX1` that answers: `RX_HEADER` and the phase change, and the head has left the outbox of the
closed form. -/
theorem loadRxHeader_frame {s t : State} {q : Seq} (h : loadRxHeader q s = .next t) :
    ∃ v, t.params = s.params ∧ t.core = { s.core with rxHeader := v, seq := q } ∧
      t.peer = (if s.params.openForm = true then s.peer else { s.peer with outQ := s.peer.outQ.tail }) ∧
      t.ports.requests = s.ports.requests ∧ t.ports.moves = s.ports.moves ∧ t.ports.epReq = s.ports.epReq ∧
      t.ports.epAnswer = s.ports.epAnswer ∧
      t.ports.events = s.ports.events ++ [.memRead (regAddr s.params .outbox1) 8 v] ∧
      (s.params.openForm = false → v = (outboxHead s).header) := by
  obtain ⟨⟨v, u⟩, hb, he⟩ := andThen_eq_next h
  simp only at he; cases he
  obtain ⟨h1, h2, h4, h5, h6, h7, h8, -⟩ := busRead64_frame hb
  obtain ⟨hp, hv⟩ := busRead64_outbox1_inv hb rfl
  exact ⟨v, h1, by simp [State.goto_core, h2], by simpa using hp, h4, h5, h6, h7, h8, hv⟩

/-! ### An event of the command in progress -/

/-- From the state before an event of the command in progress to the state after it, one constructor per phase; a phase
that several commands share says which of them runs and where it leads. -/
inductive CommandEvent (s : State) : State → Prop
  | b0 (t : State) (hs : s.core.seq = .boot .b0)
      (hw : busWrite32 (regAddr s.params .cpuControl) runSet s = .next t) : CommandEvent s (t.goto (.boot .b1))
  | b1 (t : State) (hs : s.core.seq = .boot .b1)
      (hw : busWrite32 (regAddr s.params .cpuControl) runClear s = .next t) :
      CommandEvent s (t.goto (.ending .boot))
  | s0 (hs : s.core.seq = .send .s0) : CommandEvent s ((s.traced .tx s.txFrame).goto (.send .s1))
  | s1 (t : State) (hs : s.core.seq = .send .s1)
      (hw : busWrite64 (regAddr s.params .inbox0) s.core.txData s = .next t) : CommandEvent s (t.goto (.send .s2))
  | s2 (t : State) (hs : s.core.seq = .send .s2)
      (hw : busWrite64 (regAddr s.params .inbox1) s.core.txHeader s = .next t) : CommandEvent s (t.goto (.send .s3))
  | s3 (v : CtrlValue) (t : State) (hs : s.core.seq = .send .s3)
      (hr : busRead32 (regAddr s.params .inboxCtrl) s = .next (v, t)) :
      CommandEvent s (if v.full then
        if pollGoesOn s.params.sendPollBound (s.core.polls + 1) then { t with core.polls := s.core.polls + 1 }
        else State.goto { t with core.polls := s.core.polls + 1 } (.ending .sendTimeout)
        else State.goto { t with core.polls := s.core.polls + 1 } (.ending .sendDone))
  | v0 (b : Bool) (t : State) (q whenEmpty : Seq)
      (hs : (s.core.seq = .recv .v0 ∧ q = .recv .v1 ∧ whenEmpty = .ending .recvNoMessage) ∨
        (s.core.seq = .pumpOnce (.recv .v0) ∧ q = .pumpOnce (.recv .v1) ∧ whenEmpty = .ending .pumpOnceIdle) ∨
        (s.core.seq = .pumpForever (.recv .v0) ∧ q = .pumpForever (.recv .v1) ∧ whenEmpty = pumpIdle s.params))
      (hr : readOutboxEmpty s = .next (b, t)) : CommandEvent s (t.goto (if b then whenEmpty else q))
  | v1 (t : State) (q : Seq)
      (hs : (s.core.seq = .recv .v1 ∧ q = .recv .v2) ∨
        (s.core.seq = .pumpOnce (.recv .v1) ∧ q = .pumpOnce (.recv .v2)) ∨
        (s.core.seq = .pumpForever (.recv .v1) ∧ q = .pumpForever (.recv .v2)))
      (hr : loadRxData q s = .next t) : CommandEvent s t
  | v2 (t : State) (q : Seq)
      (hs : (s.core.seq = .recv .v2 ∧ q = .recv .v3) ∨
        (s.core.seq = .pumpOnce (.recv .v2) ∧ q = .pumpOnce (.recv .v3)) ∨
        (s.core.seq = .pumpForever (.recv .v2) ∧ q = .pumpForever (.recv .v3)))
      (hr : loadRxHeader q s = .next t) : CommandEvent s t
  | v3 (q : Seq)
      (hs : (s.core.seq = .recv .v3 ∧ q = .ending .recvFrame) ∨
        (s.core.seq = .pumpOnce (.recv .v3) ∧ q = .pumpOnce (.disp .p0)) ∨
        (s.core.seq = .pumpForever (.recv .v3) ∧ q = .pumpForever (.disp .p0))) :
      CommandEvent s ((s.traced .rx s.rxFrame).goto q)
  | p0 (onHit onMiss : Seq)
      (hs : (s.core.seq = .dispatch .p0 ∧ onHit = .dispatch .p1 ∧ onMiss = .dispatch .p2) ∨
        (s.core.seq = .pumpOnce (.disp .p0) ∧ onHit = .pumpOnce (.disp .p1) ∧ onMiss = .pumpOnce (.disp .p2)) ∨
        (s.core.seq = .pumpForever (.disp .p0) ∧ onHit = .pumpForever (.disp .p1) ∧
          onMiss = .pumpForever (.disp .p2))) :
      CommandEvent s (lookupEndpoint onHit onMiss s)
  | p1 (onRefused : Seq) (whenHandled : State → State)
      (hs : (s.core.seq = .dispatch .p1 ∧ onRefused = .dispatch .p2 ∧
          whenHandled = fun t => t.complete .handled none) ∨
        (s.core.seq = .pumpOnce (.disp .p1) ∧ onRefused = .pumpOnce (.disp .p2) ∧
          whenHandled = fun t => t.complete .handled none) ∨
        (s.core.seq = .pumpForever (.disp .p1) ∧ onRefused = .pumpForever (.disp .p2) ∧ whenHandled = nextRound)) :
      CommandEvent s (takeAnswer whenHandled onRefused s)
  | p2 (e : Ending)
      (hs : (s.core.seq = .dispatch .p2 ∧ e = .dispatchUnhandled) ∨
        (s.core.seq = .pumpOnce (.disp .p2) ∧ e = .pumpOnceUnhandled) ∨
        (s.core.seq = .pumpForever (.disp .p2) ∧ e = .pumpForeverUnhandled)) : CommandEvent s (reportUnknown e s)
  | a0 (i : Ident) (h : Handle) (hs : s.core.seq = .addEp i h) :
      CommandEvent s (State.complete { s with core.ept := eptInsert s.core.ept i h } .done none)
  | bootDone (hs : s.core.seq = .ending .boot) : CommandEvent s (finish .boot { s with core.booted := true })
  | done (e : Ending) (hs : s.core.seq = .ending e) (hb : e ≠ .boot) (hr : ∀ op, e ≠ .reserved op) :
      CommandEvent s (finish e s)

/-- An event of the command in progress that answers is one of those. -/
theorem commandEvent_of_exec {s t : State} {i : Instr} (hi : s.core.current = some i) (h : exec i s = .next t) :
    CommandEvent s t := by
  cases hs : s.core.seq with
  | idle => simp [CoreState.current, hs] at hi
  | boot p =>
    simp [CoreState.current, hs] at hi; subst hi
    cases p <;> simp only [exec, execBoot, hs] at h <;> obtain ⟨u, hu, h⟩ := andThen_eq_next h <;> cases h
    · exact .b0 _ hs hu
    · exact .b1 _ hs hu
  | send p =>
    simp [CoreState.current, hs] at hi; subst hi
    cases p <;> simp only [exec, execSend, hs] at h
    · cases h; exact .s0 hs
    · obtain ⟨u, hu, h⟩ := andThen_eq_next h; cases h; exact .s1 _ hs hu
    · obtain ⟨u, hu, h⟩ := andThen_eq_next h; cases h; exact .s2 _ hs hu
    · obtain ⟨⟨v, u⟩, hu, h⟩ := andThen_eq_next h; cases h; exact .s3 _ _ hs hu
  | recv p =>
    simp [CoreState.current, hs] at hi; subst hi
    cases p <;> simp only [exec, execRecv, hs] at h
    · obtain ⟨⟨v, u⟩, hu, h⟩ := andThen_eq_next h; cases h; exact .v0 _ _ _ _ (.inl ⟨hs, rfl, rfl⟩) hu
    · exact .v1 _ _ (.inl ⟨hs, rfl⟩) h
    · exact .v2 _ _ (.inl ⟨hs, rfl⟩) h
    · cases h; exact .v3 _ (.inl ⟨hs, rfl⟩)
  | dispatch p =>
    simp [CoreState.current, hs] at hi; subst hi
    cases p <;> simp only [exec, execDispatch, hs] at h <;> cases h
    · exact .p0 _ _ (.inl ⟨hs, rfl, rfl⟩)
    · exact .p1 _ _ (.inl ⟨hs, rfl, rfl⟩)
    · exact .p2 _ (.inl ⟨hs, rfl⟩)
  | pumpOnce p =>
    simp [CoreState.current, hs] at hi; subst hi
    cases p with
    | recv p =>
      cases p <;> simp only [exec, execPumpOnce, hs] at h
      · obtain ⟨⟨v, u⟩, hu, h⟩ := andThen_eq_next h; cases h
        exact .v0 _ _ _ _ (.inr (.inl ⟨hs, rfl, rfl⟩)) hu
      · exact .v1 _ _ (.inr (.inl ⟨hs, rfl⟩)) h
      · exact .v2 _ _ (.inr (.inl ⟨hs, rfl⟩)) h
      · cases h; exact .v3 _ (.inr (.inl ⟨hs, rfl⟩))
    | disp p =>
      cases p <;> simp only [exec, execPumpOnce, hs] at h <;> cases h
      · exact .p0 _ _ (.inr (.inl ⟨hs, rfl, rfl⟩))
      · exact .p1 _ _ (.inr (.inl ⟨hs, rfl, rfl⟩))
      · exact .p2 _ (.inr (.inl ⟨hs, rfl⟩))
  | pumpForever p =>
    simp [CoreState.current, hs] at hi; subst hi
    cases p with
    | recv p =>
      cases p <;> simp only [exec, execPumpForever, hs] at h
      · obtain ⟨⟨v, u⟩, hu, h⟩ := andThen_eq_next h; cases h
        exact .v0 _ _ _ _ (.inr (.inr ⟨hs, rfl, rfl⟩)) hu
      · exact .v1 _ _ (.inr (.inr ⟨hs, rfl⟩)) h
      · exact .v2 _ _ (.inr (.inr ⟨hs, rfl⟩)) h
      · cases h; exact .v3 _ (.inr (.inr ⟨hs, rfl⟩))
    | disp p =>
      cases p <;> simp only [exec, execPumpForever, hs] at h <;> cases h
      · exact .p0 _ _ (.inr (.inr ⟨hs, rfl, rfl⟩))
      · exact .p1 _ _ (.inr (.inr ⟨hs, rfl, rfl⟩))
      · exact .p2 _ (.inr (.inr ⟨hs, rfl⟩))
  | addEp i h' =>
    simp [CoreState.current, hs] at hi; subst hi
    simp only [exec, execAddEp, hs] at h; cases h
    exact .a0 _ _ hs
  | ending e =>
    cases e <;> simp [CoreState.current, CoreState.endingInstr, hs] at hi <;> subst hi <;>
      simp only [exec, execBoot, execSend, execRecv, execDispatch, execPumpOnce, execPumpForever, hs] at h <;> cases h
    · exact .bootDone hs
    all_goals exact .done _ hs (by simp) (by simp)

/-! ### An instruction an idle core starts on -/

/-- What is true of the first phase of every command but SEND and DISPATCH, whose acceptance also loads registers. -/
structure FirstPhase (i : Instr) (q : Seq) : Prop where
  op       : q.op = commandOp i
  busy     : q ≠ .idle
  noSend   : ∀ p, q ≠ .send p
  noAnswer : q.awaitsAnswer = false
  noHead   : q.holdsHead = false
  noData   : q.holdsData = false
  noEnding : ∀ e, q ≠ .ending e
  handle   : ∀ w, Seq.handleFits w q = true ∨ ∃ id h, i = .addEp id h ∧ q = .addEp id h

/-- An instruction that answers on an idle core: an acceptance, or one bus transaction. -/
theorem exec_idle_cases {s t : State} {i : Instr} (hs : s.core.seq = .idle) (h : exec i s = .next t) :
    (∃ q, t = s.accept i q ∧ FirstPhase i q) ∨
    (∃ d hd, i = .send d hd ∧ t = acceptSend d hd s) ∨ (∃ d hd, i = .dispatch d hd ∧ t = acceptDispatch d hd s) ∨
    (∃ a v, i = .read32 a ∧ busRead32 a s = .next (v, t)) ∨ (∃ a v, i = .read64 a ∧ busRead64 a s = .next (v, t)) ∨
    (∃ a v, i = .write32 a v ∧ busWrite32 a v s = .next t) ∨
    (∃ a v, i = .write64 a v ∧ busWrite64 a v s = .next t) := by
  cases i <;>
    simp only [exec, execBoot, execSend, execRecv, execDispatch, execPumpOnce, execPumpForever, execAddEp, hs] at h
  all_goals try cases h
  · exact .inl ⟨_, rfl, by constructor <;> simp [Seq.op, commandOp, Seq.awaitsAnswer, Seq.holdsHead, Seq.holdsData, Seq.handleFits]⟩
  · exact .inr (.inl ⟨_, _, rfl, rfl⟩)
  · exact .inl ⟨_, rfl, by constructor <;> simp [Seq.op, commandOp, Seq.awaitsAnswer, Seq.holdsHead, Seq.holdsData, Seq.handleFits]⟩
  · exact .inr (.inr (.inl ⟨_, _, rfl, rfl⟩))
  · exact .inl ⟨_, rfl, by constructor <;> simp [Seq.op, commandOp, Seq.awaitsAnswer, Seq.holdsHead, Seq.holdsData, Seq.handleFits]⟩
  · exact .inl ⟨_, rfl, by constructor <;> simp [Seq.op, commandOp, Seq.awaitsAnswer, Seq.holdsHead, Seq.holdsData, Seq.handleFits]⟩
  · exact .inl ⟨_, rfl, by constructor <;> simp [Seq.op, commandOp, Seq.awaitsAnswer, Seq.holdsHead, Seq.holdsData, Seq.handleFits]⟩
  · obtain ⟨⟨v, u⟩, hu, h⟩ := andThen_eq_next h; cases h; exact .inr (.inr (.inr (.inl ⟨_, _, rfl, hu⟩)))
  · exact .inr (.inr (.inr (.inr (.inr (.inl ⟨_, _, rfl, h⟩)))))
  · obtain ⟨⟨v, u⟩, hu, h⟩ := andThen_eq_next h; cases h; exact .inr (.inr (.inr (.inr (.inl ⟨_, _, rfl, hu⟩))))
  · exact .inr (.inr (.inr (.inr (.inr (.inr ⟨_, _, rfl, h⟩)))))

/-! ### A step -/

/-- Everything one step can do. `popMove` takes the move off the schedule, `popRequest` the word off HOST's list. -/
inductive OneStep (s : State) : State → Prop
  | event (t : State) (hm : nextMove s = .core) (he : CommandEvent s.popMove t) : OneStep s t
  | reservedDone (op : BitVec 4) (hm : nextMove s = .core) (hs : s.core.seq = .ending (.reserved op)) :
      OneStep s (finish (.reserved op) s.popMove)
  | nothing (hm : nextMove s = .core) (hs : s.core.seq = .idle) (hr : s.ports.requests = []) : OneStep s s.popMove
  | reserved (op : BitVec 4) (r : PortWord) (rest : List PortWord) (hm : nextMove s = .core) (hs : s.core.seq = .idle)
      (hr : s.ports.requests = r :: rest) (hw : refusedWord s r = none)
      (hd : decodePort s.params r = .error (.reservedOpcode op)) : OneStep s (illegalCommand op s.popMove.popRequest)
  | acceptance (i : Instr) (q : Seq) (r : PortWord) (rest : List PortWord) (hm : nextMove s = .core)
      (hs : s.core.seq = .idle) (hr : s.ports.requests = r :: rest) (hw : refusedWord s r = none)
      (hd : decodePort s.params r = .ok i) (hq : FirstPhase i q) : OneStep s (s.popMove.popRequest.accept i q)
  | acceptanceOfSend (d h : Word64) (r : PortWord) (rest : List PortWord) (hm : nextMove s = .core)
      (hs : s.core.seq = .idle) (hr : s.ports.requests = r :: rest) (hw : refusedWord s r = none)
      (hd : decodePort s.params r = .ok (.send d h)) :
      OneStep s (acceptSend d h s.popMove.popRequest)
  | acceptanceOfDispatch (d h : Word64) (r : PortWord) (rest : List PortWord) (hm : nextMove s = .core)
      (hs : s.core.seq = .idle) (hr : s.ports.requests = r :: rest) (hw : refusedWord s r = none)
      (hd : decodePort s.params r = .ok (.dispatch d h)) :
      OneStep s (acceptDispatch d h s.popMove.popRequest)
  | transaction (t : State) (w : Nat) (rest : List PortWord) (hm : nextMove s = .core) (hs : s.core.seq = .idle)
      (hr : s.ports.requests = .bus w :: rest) (hw : refusedWord s (.bus w) = none)
      (hb : (∃ a v, busRead32 a s.popMove.popRequest = .next (v, t)) ∨
        (∃ a v, busRead64 a s.popMove.popRequest = .next (v, t)) ∨
        (∃ a v, busWrite32 a v s.popMove.popRequest = .next t) ∨
        (∃ a v, busWrite64 a v s.popMove.popRequest = .next t)) : OneStep s t
  | peerAccepts (hm : nextMove s = .accept) : OneStep s (peerAccept s.popMove)
  | peerPosts (f : Frame) (hm : nextMove s = .post f) : OneStep s (peerPost f s.popMove)
  | endpointAnswers (b : Bool) (hm : nextMove s = .answer b) : OneStep s (endpointAnswer b s.popMove)
  | responderResponds (v : Word64) (hm : nextMove s = .respond v) : OneStep s (busRespond v s.popMove)
  | coreResets (hm : nextMove s = .coreReset) : OneStep s (coreReset s.popMove)
  | peerResets (hm : nextMove s = .peerReset) : OneStep s (peerReset s.popMove)

/-- A step that answers is one of those. -/
theorem oneStep_of_step {s t : State} (h : step s = .next t) : s.params.wf = true ∧ OneStep s t := by
  obtain ⟨hw, h⟩ := step_cases h
  refine ⟨hw, ?_⟩
  rcases h with ⟨hm, h⟩ | ⟨hm, rfl⟩ | ⟨f, hm, rfl⟩ | ⟨f, hm, rfl⟩ | ⟨f, hm, rfl⟩ | ⟨hm, rfl⟩ | ⟨hm, rfl⟩
  · rcases coreMove_cases h with
      ⟨i, hi, he⟩ | ⟨op, hs, rfl⟩ | ⟨hs, hr, rfl⟩ | ⟨r, rest, i, hs, hr, hf, hd, he⟩ |
      ⟨r, rest, op, hs, hr, hf, hd, rfl⟩
    · exact .event _ hm (commandEvent_of_exec hi he)
    · exact .reservedDone op hm hs
    · exact .nothing hm hs hr
    · rcases exec_idle_cases (s := s.popMove.popRequest) hs he with
        ⟨q, rfl, hq⟩ | ⟨d, hd', rfl, rfl⟩ | ⟨d, hd', rfl, rfl⟩ | ⟨a, v, rfl, hx⟩ | ⟨a, v, rfl, hx⟩ | ⟨a, v, rfl, hx⟩ |
        ⟨a, v, rfl, hx⟩
      · exact .acceptance i q r rest hm hs hr hf hd hq
      · exact .acceptanceOfSend d hd' r rest hm hs hr hf hd
      · exact .acceptanceOfDispatch d hd' r rest hm hs hr hf hd
      all_goals
        cases r with
        | cmd w => simpa using decodeCmd_isCommand hd
        | bus w =>
          refine .transaction _ w rest hm hs hr hf ?_
          first
            | exact .inl ⟨_, _, hx⟩
            | exact .inr (.inl ⟨_, _, hx⟩)
            | exact .inr (.inr (.inl ⟨_, _, hx⟩))
            | exact .inr (.inr (.inr ⟨_, _, hx⟩))
    · exact .reserved op r rest hm hs hr hf hd
  · exact .peerAccepts hm
  · exact .peerPosts _ hm
  · exact .endpointAnswers _ hm
  · exact .responderResponds _ hm
  · exact .coreResets hm
  · exact .peerResets hm

/-! ### HOST's duties (R349) -/

/-- A word that decodes and that HOST may offer is a command: BOOT only when neither `booted` nor `started`, any but BOOT
and ADD_EP only when `booted`. -/
theorem hostMisuse_none {p : Params} {booted started : Bool} {w : PortWord} {i : Instr}
    (hm : hostMisuse p booted started w = none) (hd : decodePort p w = .ok i) :
    (commandOp i = some 0x1 → booted = false ∧ started = false) ∧
    (commandOp i ≠ some 0x1 → commandOp i ≠ some 0x7 → booted = true) ∧
    isBootWord p w = decide (commandOp i = some 0x1) := by
  cases w with
  | bus w => cases hm
  | cmd w =>
    have hb : isBootWord p (.cmd w) = decide (commandOp i = some 0x1) := by
      unfold isBootWord; rw [hd]; cases i <;> simp [commandOp]
    have hd' : decodeCmd p w = .ok i := hd
    simp only [hostMisuse, hd'] at hm
    split at hm
    · cases hm
    · refine ⟨?_, ?_, hb⟩ <;> cases i <;> simp_all [commandOp]

/-- Once booted, whether the coprocessor is started refuses nothing more. -/
theorem hostMisuse_booted (p : Params) (a b : Bool) (w : PortWord) : hostMisuse p true a w = hostMisuse p true b w := by
  simp only [hostMisuse, Bool.true_or]

/-- With the coprocessor not started no other word is refused. -/
theorem hostMisuse_unstarted {p : Params} {booted started : Bool} {w : PortWord}
    (h : hostMisuse p booted started w = none) : hostMisuse p booted false w = none := by
  cases started with
  | false => exact h
  | true =>
    cases w with
    | bus w => exact h
    | cmd w =>
      simp only [hostMisuse] at h ⊢
      split at h
      · exact h
      · split at h
        · cases h
        · rename_i i _ _
          cases i <;> simp_all

theorem hostDuties_booted (p : Params) (a b : Bool) (ws : List PortWord) :
    hostDuties p true a ws = hostDuties p true b ws := by
  induction ws with
  | nil => rfl
  | cons w rest ih => simp only [hostDuties, Bool.true_or, ih, hostMisuse_booted p a b]

theorem hostDuties_unstarted {p : Params} {booted started : Bool} {ws : List PortWord}
    (h : hostDuties p booted started ws = true) : hostDuties p booted false ws = true := by
  induction ws generalizing booted with
  | nil => rfl
  | cons w rest ih =>
    simp only [hostDuties, Bool.and_eq_true, Option.isNone_iff_eq_none] at h ⊢
    exact ⟨hostMisuse_unstarted h.1, ih h.2⟩

/-- No event of a command but one of BOOT changes whether the coprocessor is started. -/
theorem CommandEvent.started {s t : State} (h : CommandEvent s t) :
    t.peer.started = s.peer.started ∨ s.core.seq.op = some 0x1 := by
  cases h with
  | b0 u hs hw => exact .inr (by rw [hs]; rfl)
  | b1 u hs hw => exact .inr (by rw [hs]; rfl)
  | s0 hs => exact .inl rfl
  | s1 u hs hw =>
    obtain ⟨-, -, -, h | h | ⟨-, h⟩⟩ := busWrite64_frame hw <;> exact .inl (by simp [h])
  | s2 u hs hw =>
    obtain ⟨-, -, -, h | h | ⟨-, h⟩⟩ := busWrite64_frame hw <;> exact .inl (by simp [h])
  | s3 v u hs hr =>
    have h := (busRead32_frame hr).2.2.1
    left
    split
    · split <;> simp [h]
    · simp [h]
  | v0 b u q e hs hr => exact .inl (by simp [(readOutboxEmpty_frame hr).2.2.1])
  | v1 u q hs hr =>
    obtain ⟨v, -, -, h, -⟩ := loadRxData_frame hr
    exact .inl (by rw [h])
  | v2 u q hs hr =>
    obtain ⟨v, -, -, h, -⟩ := loadRxHeader_frame hr
    exact .inl (by rw [h]; split <;> rfl)
  | v3 q hs => exact .inl rfl
  | p0 q1 q2 hs => left; unfold lookupEndpoint; split <;> rfl
  | p1 q g hs =>
    left
    unfold takeAnswer
    split
    · rfl
    all_goals rcases hs with ⟨-, -, rfl⟩ | ⟨-, -, rfl⟩ | ⟨-, -, rfl⟩ <;> rfl
  | p2 e hs => exact .inl rfl
  | a0 i h hs => exact .inl rfl
  | bootDone hs => exact .inl rfl
  | done e hs hb hr => exact .inl rfl

/-! ### Runs -/

/-- A run whose first step answers goes on from there. -/
theorem run_next {n : Nat} {s t : State} (h : step s = .next t) :
    Host.Core.run Sys2Proof.core (n + 1) s = Host.Core.run Sys2Proof.core n t := by
  have h' : Sys2Proof.core.step s = .next t := h
  simp only [Host.Core.run, h']

end Sys2Proof.Machine
end

