-- ==== Sys2Proof/Tests/Slice0.lean ====
section
/-! SUPPORT. The model's own tests: ill-formed terms that the well-formedness check refuses, words written out from the
spec's encodings (30_encoding.md, 95_test_vectors.md), single steps of the spec's worked examples, and for every
obligation with hypotheses concrete terms that meet them. Expected values are the spec's. -/

open Sys2Proof Sys2Proof.Machine

namespace Sys2Proof.Tests

/-! ### Small states -/

/-- The reset state with the sequencer at `q`. -/
def at_ (q : Seq) : State := { State.reset with core.seq := q }

/-- The same with the open form of R245 and a value on the bus. -/
def openAt (q : Seq) (v : Word64) : State :=
  { at_ q with params.openForm := true, ports.response := some v }

/-- The same with the two queues given; depths as in R7's defaults (1). -/
def queued (q : Seq) (inQ outQ : List Frame) : State :=
  { at_ q with peer.inQ := inQ, peer.outQ := outQ }

/-- The same with both depths 2. -/
def deep (q : Seq) (inQ outQ : List Frame) : State :=
  { queued q inQ outQ with params.inboxDepth := 2, params.outboxDepth := 2 }

/-- The same with a poll bound and a count of polls, the inbox full. -/
def bounded (n polls : Nat) : State :=
  { queued (.send .s3) [⟨0x1, 0x20⟩] [] with params.sendPollBound := some n, core.polls := polls }

/-- The reset state with HOST's duties lifted, words offered and moves scheduled. -/
def offered (ws : List PortWord) (ms : List Move) : State :=
  { State.reset with params.strictHost := false, ports.requests := ws, ports.moves := ms }

/-- The reset state as it is, `strictHost` on, booted or not, with words offered. -/
def strict (booted : Bool) (ws : List PortWord) : State :=
  { State.reset with core.booted := booted, ports.requests := ws }

/-- The table of vectors 2.5: `EPT[0x00] = 0x06`, `EPT[0x20] = 0x05`, `EPT[0xFF] = 0x05`. -/
def table25 : List (Ident × Handle) := [(0x00, 0x06), (0x20, 0x05), (0xFF, 0x05)]

/-- A dispatch phase with that table and a frame in the receive registers. -/
def dispatching (q : Seq) (data header : Word64) : State :=
  { at_ q with core.ept := table25, core.rxData := data, core.rxHeader := header }

/-- Phase `P1` with the request out and an answer, if any. -/
def answered (q : Seq) (a : Option Bool) : State :=
  { dispatching q 0xdead 0x20 with ports.epReq := some ⟨0x05, 0x20, 0xdead⟩, ports.epAnswer := a }

/-- The events of the next state. -/
def eventsOf (x : Result) : Option (List Event) := (nextOf x).map (fun t => t.ports.events)

/-- The sequencer of the next state. -/
def seqOf (x : Result) : Option Seq := (nextOf x).map (fun t => t.core.seq)

/-- The refusal, where the outcome is one. -/
def refusalOf (x : Result) : Option Refusal :=
  match x with
  | .next _    => none
  | .fault _   => none
  | .refused r => some r

/-! ### Well-formedness: one ill-formed term for each check (R126, R151 to R154, R7) -/

theorem test_wf_handle_too_wide : (Instr.addEp 0x20 0x100).wf Params.default = false := by decide
theorem test_wf_handle_widest : (Instr.addEp 0x20 0xFF).wf Params.default = true := by decide
theorem test_wf_read32_misaligned : (Instr.read32 0x8112).wf Params.default = false := by decide
theorem test_wf_write32_misaligned : (Instr.write32 0x0045 0x10).wf Params.default = false := by decide
theorem test_wf_read64_misaligned : (Instr.read64 0x8834).wf Params.default = false := by decide
theorem test_wf_write64_misaligned : (Instr.write64 0x8804 0x1).wf Params.default = false := by decide
theorem test_wf_address_too_wide : (Instr.read32 (2 ^ 64)).wf Params.default = false := by decide
theorem test_wf_params_default : Params.default.wf = true := by decide
theorem test_wf_params_base_misaligned : { Params.default with base := 4 }.wf = false := by decide
theorem test_wf_params_base_highest : { Params.default with base := 0xFFFFFFFFFFFF77C0 }.wf = true := by decide
theorem test_wf_params_base_too_high : { Params.default with base := 0xFFFFFFFFFFFF77C8 }.wf = false := by decide
theorem test_wf_params_addrW : { Params.default with addrW := 15 }.wf = false := by decide
theorem test_wf_params_handleW : { Params.default with epHandleW := 65 }.wf = false := by decide
theorem test_wf_params_handleW_zero : { Params.default with epHandleW := 0 }.wf = false := by decide
theorem test_wf_params_inboxDepth : { Params.default with inboxDepth := 0 }.wf = false := by decide
theorem test_wf_params_outboxDepth : { Params.default with outboxDepth := 0 }.wf = false := by decide
theorem test_wf_params_bound_zero : { Params.default with sendPollBound := some 0 }.wf = false := by decide
theorem test_wf_layout : (HeaderLayout.mk 40 44 48 52).wf = true := by decide
theorem test_wf_layout_on_ep : (HeaderLayout.mk 7 44 48 52).wf = false := by decide
theorem test_wf_layout_overlap : (HeaderLayout.mk 40 43 48 52).wf = false := by decide
theorem test_wf_layout_too_high : (HeaderLayout.mk 61 44 48 52).wf = false := by decide
theorem test_wf_parameters_refused : refusalOf (step { State.reset with params.base := 4 }) = some .parameters := by decide

/-! ### Decoding: the words of the spec (vectors 2.2 to 2.9, S1, S8, programs P1 to P5; bus words of 2.1) -/

theorem test_decode_boot : decodeTableWord 132 0x1_0000000000000000_0000000000000000 = some .boot := by decide
theorem test_decode_send : decodeTableWord 132 0x2_FEDCBA98765432AB_0123456789ABCDEF =
    some (.send 0x0123456789ABCDEF 0xFEDCBA98765432AB) := by decide
theorem test_decode_send_all_ones : decodeTableWord 132 0x2_FFFFFFFFFFFFFFFF_FFFFFFFFFFFFFFFF =
    some (.send 0xFFFFFFFFFFFFFFFF 0xFFFFFFFFFFFFFFFF) := by decide
theorem test_decode_recv : decodeTableWord 132 0x3_0000000000000000_0000000000000000 = some .recv := by decide
theorem test_decode_dispatch : decodeTableWord 132 0x4_ABCD000000000120_0000000000000001 =
    some (.dispatch 0x1 0xABCD000000000120) := by decide
theorem test_decode_pumpOnce : decodeTableWord 132 0x5_0000000000000000_0000000000000000 = some .pumpOnce := by decide
theorem test_decode_pumpForever :
    decodeTableWord 132 0x6_0000000000000000_0000000000000000 = some .pumpForever := by decide
theorem test_decode_addEp : decodeTableWord 132 0x7_00000000000000FF_0000000000000000 = some (.addEp 0x00 0xFF) := by
  decide
/-- `arg0[8]` set: "the core registers 0x20" (vector 2.8, last row). -/
theorem test_decode_addEp_reserved_bit :
    decodeTableWord 132 0x7_0000000000000001_0000000000000120 = some (.addEp 0x20 0x01) := by decide
theorem test_decode_reserved_0 : decodeTableWord 132 0x0_0000000000000000_0000000000000000 = none := by decide
theorem test_decode_reserved_8 : decodeTableWord 132 0x8_0000000000000000_0000000000000000 = none := by decide
theorem test_decode_reserved_F : decodeTableWord 132 0xF_0000000000000000_0000000000000000 = none := by decide
theorem test_decode_read32 : decodeTableWord 130 0x0_0000000000008110_0000000000000000 = some (.read32 0x8110) := by
  decide
theorem test_decode_write32 : decodeTableWord 130 0x1_0000000000000044_0000000000000010 =
    some (.write32 0x0044 0x10) := by decide
theorem test_decode_read64 : decodeTableWord 130 0x2_0000000000008838_0000000000000000 = some (.read64 0x8838) := by
  decide
theorem test_decode_write64 : decodeTableWord 130 0x3_0000000000008808_0000000000000020 =
    some (.write64 0x8808 0x20) := by decide
theorem test_encode_send : encode Params.default (.send 0x1 0x20) = .cmd 0x2_0000000000000020_0000000000000001 := by
  decide
theorem test_encode_write32 :
    encode Params.default (.write32 0x0044 0x10) = .bus 0x1_0000000000000044_0000000000000010 := by decide

/-! ### Fields and the register map (vectors 2.1, S10) -/

theorem test_field_full : (CtrlValue.ofWord 0x00010002).full = true ∧ (CtrlValue.ofWord 0xFFFEFFFF).full = false := by
  decide
theorem test_field_empty : (CtrlValue.ofWord 0x00030000).empty = true ∧ (CtrlValue.ofWord 0xFFFDFFFF).empty = false := by
  decide
theorem test_field_word : (CtrlValue.mk true false 0).word = 0x00010000 ∧ (CtrlValue.mk false true 0).word = 0x00020000 := by
  decide
theorem test_field_ep : epOf 0xABCD000000000120 = 0x20 ∧ epOf 0xFFFFFFFFFFFFFF00 = 0x00 := by decide
theorem test_field_insert : fieldInsert (0xDEADBEEF : Word32) 4 4 1 = 0xDEADBEFF ∧
    fieldInsert (0xDEADBEFF : Word32) 4 4 0 = 0xDEADBEEF ∧ fieldInsert (0 : Word32) 4 4 1 = 0x10 := by decide
theorem test_field_extract : fieldExtract (0x00020000 : Word32) 17 17 = 1 ∧ fieldExtract (0x00020000 : Word32) 16 16 = 0 := by
  decide
theorem test_map_highest_base :
    allRegs.map (regAddr { Params.default with base := 0xFFFFFFFFFFFF77C0 }) =
      [0xFFFFFFFFFFFF7804, 0xFFFFFFFFFFFFF8D0, 0xFFFFFFFFFFFFF8D4, 0xFFFFFFFFFFFFFFC0, 0xFFFFFFFFFFFFFFC8,
        0xFFFFFFFFFFFFFFF0, 0xFFFFFFFFFFFFFFF8] := by decide
/-- R119: every named field lies within its register; `RUN` at 4 and `ENABLE` at 1. -/
theorem test_named_fields : (namedFields ⟨40, 44, 48, 52⟩).all RegField.wf = true ∧
    runField = ⟨.cpuControl, 4, 4⟩ ∧ enableField = ⟨.inboxCtrl, 1, 1⟩ := by decide
/-- R155 at 64 bits: one read of `OUTBOX1`, `EP` of the head's header, and the frame leaves. -/
theorem test_field_read64 :
    (match fieldRead (epField .outbox1) (queued .idle [] [⟨0xdead, 0xABCD000000000120⟩]) with
      | .next (x, t) => some (x, t.peer.outQ, t.ports.events)
      | _            => none) = some (0x20, [], [.memRead 0x8838 8 0xABCD000000000120]) := by decide
/-- R156 at 64 bits, the second transaction: `EP` of the value given replaced, the rest of it written back. -/
theorem test_field_write_back64 :
    eventsOf (fieldWriteBack (epField .inbox1) 0x21 0xABCD000000000120 (at_ .idle)) =
      some [.memWrite 0x8808 8 0xABCD000000000121] := by decide
/-- R156 at 32 bits, vectors 2.1: `RUN` set in 0xDEADBEEF. -/
theorem test_field_write_back32 :
    eventsOf (fieldWriteBack runField 1 0xDEADBEEF (at_ .idle)) = some [.memWrite 0x44 4 0xDEADBEFF] := by decide
/-- R261 in the open form: a read of `CPU_CONTROL` and of `INBOX1`, a write of `OUTBOX_CTRL` and of `OUTBOX1`. -/
theorem test_open_form_refuses :
    refusalOf (exec (.read32 0x44) (openAt .idle 0)) = some (.unreadable .cpuControl) ∧
    refusalOf (exec (.read64 0x8808) (openAt .idle 0)) = some (.unreadable .inbox1) ∧
    refusalOf (exec (.write32 0x8114 0) (openAt .idle 0)) = some (.unwritable .outboxCtrl) ∧
    refusalOf (exec (.write64 0x8838 0) (openAt .idle 0)) = some (.unwritable .outbox1) := by decide
theorem test_header_fields : inptrOf ⟨40, 44, 48, 52⟩ 0x0000500000000020 = 0x0 ∧
    outptrOf ⟨40, 44, 48, 52⟩ 0x0000500000000020 = 0x5 := by decide

/-! ### Single steps of the worked examples -/

theorem test_boot_first_write : eventsOf (exec .boot (at_ (.boot .b0))) = some [.memWrite 0x44 4 0x10] := by decide
theorem test_boot_second_write :
    (nextOf (exec .boot (at_ (.boot .b1)))).map (fun t => (t.core.booted, t.core.seq, t.ports.events)) =
      some (false, .ending .boot, [.memWrite 0x44 4 0x0]) := by decide
theorem test_boot_completion :
    (nextOf (exec .boot (at_ (.ending .boot)))).map (fun t => (t.core.booted, t.core.seq, t.ports.events)) =
      some (true, .idle, [.complete .done none]) := by decide
/-- Corner frame of vectors 2.3: the staging latch's word and the header, both whole. -/
theorem test_send_commit :
    (nextOf (exec (.send 0 0) { at_ (.send .s2) with
      core.txHeader := 0xFFFFFFFFFFFFFFFF, peer.inStage := 0xFFFFFFFFFFFFFFFF })).map (fun t => t.peer.inQ) =
      some [⟨0xFFFFFFFFFFFFFFFF, 0xFFFFFFFFFFFFFFFF⟩] := by decide
/-- Vectors 2.3: with a bound of 3 the third blocked read gives `TIMEOUT`. -/
theorem test_send_timeout :
    seqOf (exec (.send 0 0) (bounded 3 2)) = some (.ending .sendTimeout) ∧
    eventsOf (exec (.send 0 0) (at_ (.ending .sendTimeout))) = some [.complete .timeout none] := by decide
/-- S2: an empty outbox gives the no-message sentinel and leaves PEER as it was. -/
theorem test_recv_empty :
    (nextOf (exec .recv (at_ (.recv .v0)))).map
      (fun t => (t.core, t.peer == Mailbox.reset)) =
      some ({ CoreState.reset with seq := .ending .recvNoMessage }, true) := by decide
/-- Vectors 2.4: the frame is returned whole, after a step of its own for the trace. -/
theorem test_recv_frame :
    eventsOf (exec .recv (dispatching (.ending .recvFrame) 0xdead 0x20)) =
      some [.complete .frame (some ⟨0xdead, 0x20⟩)] := by decide
/-- Vectors 2.4: the second read takes the head's header and the frame leaves. -/
theorem test_recv_consumes :
    (nextOf (exec .recv (deep (.recv .v2) [] [⟨0xA, 0x20⟩, ⟨0xB, 0x21⟩]))).map
      (fun t => (t.core.rxHeader, t.peer.outQ)) = some (0x20, [⟨0xB, 0x21⟩]) := by decide
/-- Vectors 2.5, row 4: bits 63:8 of the header take no part in the lookup and go to the endpoint whole. -/
theorem test_dispatch_hit : eventsOf (exec (.dispatch 0 0) (dispatching (.dispatch .p0) 0x1 0xABCD000000000120)) =
    some [.epCall ⟨0x05, 0xABCD000000000120, 0x1⟩] := by decide
theorem test_dispatch_miss : (nextOf (exec (.dispatch 0 0) (dispatching (.dispatch .p0) 0xbeef 0x21))).map
    (fun t => (t.core.seq, t.ports.events)) = some (.dispatch .p2, []) := by decide
theorem test_pumpOnce_idle :
    seqOf (exec .pumpOnce (at_ (.pumpOnce (.recv .v0)))) = some (.ending .pumpOnceIdle) ∧
    eventsOf (exec .pumpOnce (at_ (.ending .pumpOnceIdle))) = some [.complete .idle none] := by decide
theorem test_pumpOnce_handled :
    (nextOf (exec .pumpOnce (answered (.pumpOnce (.disp .p1)) (some true)))).map
      (fun t => (t.core.hnd, t.ports.events)) = some (true, [.complete .handled none]) := by decide
theorem test_pumpForever_idles :
    seqOf (exec .pumpForever (at_ (.pumpForever (.recv .v0)))) = some (.pumpForever (.recv .v0)) := by decide
theorem test_pumpForever_unhandled :
    eventsOf (exec .pumpForever (dispatching (.pumpForever (.disp .p2)) 0x1 0x21)) =
      some [.trace ⟨.unknown, 0x21, ⟨0x1, 0x21⟩⟩] ∧
    eventsOf (exec .pumpForever (at_ (.ending .pumpForeverUnhandled))) = some [.complete .unhandled none] := by decide
/-- Vectors 2.8, row 2: a second registration replaces the first. -/
theorem test_addEp_overwrites :
    (nextOf (exec (.addEp 0x20 0x02) { at_ (.addEp 0x20 0x02) with core.ept := [(0x20, 0x01)] })).map
      (fun t => t.core.ept) = some [(0x20, 0x02)] := by decide
theorem test_read32_completes :
    (nextOf (exec (.read32 0x8110) (queued .idle [⟨0x1, 0x20⟩] []))).map (fun t => t.peer.inQ) =
      some [⟨0x1, 0x20⟩] := by decide
theorem test_read32_flags : inboxFull (queued .idle [⟨0x1, 0x20⟩] []) = true ∧
    inboxFull (deep .idle [⟨0x1, 0x20⟩] []) = false ∧ inboxEmpty (deep .idle [⟨0x1, 0x20⟩] []) = false := by decide
theorem test_write32_run :
    (nextOf (exec (.write32 0x44 0x10) State.reset)).map (fun t => (t.peer.cpuControl, t.peer.started)) =
      some (0x10, true) := by decide
theorem test_read64_head :
    (nextOf (exec (.read64 0x8830) (queued .idle [] [⟨0xdead, 0x20⟩]))).map
      (fun t => (t.ports.rdata, t.peer.outQ)) = some (0xdead, [⟨0xdead, 0x20⟩]) := by decide
theorem test_write64_latch :
    (nextOf (exec (.write64 0x8800 0x1) State.reset)).map (fun t => (t.peer.inStage, t.peer.inQ)) = some (0x1, []) := by
  decide
theorem test_refuse_hole : refusalOf (exec (.read32 0x8118) State.reset) = some (.unmapped 0x8118) := by decide
theorem test_refuse_width : refusalOf (exec (.read64 0x8110) State.reset) = some (.accessWidth 0x8110 8) := by decide
/-- Vectors 2.9: a reserved opcode completes at once: acceptance, then the completion. -/
theorem test_reserved_opcode :
    (nextOf (step (offered [.cmd 0x9_0000000000000020_000000000000dead] []))).map
      (fun t => (eventsOf (step t), seqOf (step t))) =
      some (some [.acceptReserved 0x9, .complete .illegalCmd none], some .idle) := by decide
theorem test_boot_after_reset :
    seqOf (step (State.reset.withFetchWord 132 0x1_0000000000000000_0000000000000000)) = some (.boot .b0) := by decide
theorem test_bus_after_reset :
    eventsOf (step (State.reset.withFetchWord 130 0x1_0000000000000044_0000000000000010)) =
      some [.memWrite 0x44 4 0x10] := by decide

/-- R349 and R322 from the reset state: a send before BOOT, a second BOOT, a BOOT after a reset of the core that left the
coprocessor started, a registration before BOOT. -/
theorem test_strict_host :
    refusalOf (step (strict false [encode Params.default (.send 0x1 0x20)])) = some .beforeBoot ∧
    refusalOf (step (strict true [encode Params.default .boot])) = some .secondBoot ∧
    refusalOf (step (coreReset { strict true [encode Params.default .boot] with peer.started := true })) =
      some .secondBoot ∧
    seqOf (step (strict false [encode Params.default (.addEp 0x20 0x01)])) = some (.addEp 0x20 0x01) := by decide

/-! ### Witnesses: for each obligation with hypotheses, terms that meet them all, one for each clause -/

/-- A step answers a next state. -/
theorem next_of_isSome {x : Result} (h : (nextOf x).isSome = true) : ∃ t, x = .next t := by
  cases x with
  | next t    => exact ⟨t, rfl⟩
  | fault r   => cases r
  | refused r => cases h

theorem witness_CoreResetAbandonsTheCommand :
    let s := { bounded 3 2 with ports.moves := [.coreReset] }
    s.params.wf = true ∧ nextMove s = .coreReset := by decide

theorem witness_PeerResetLeavesTheCore :
    let s := { queued (.recv .v1) [] [⟨0xdead, 0x20⟩] with ports.moves := [.peerReset] }
    s.params.wf = true ∧ nextMove s = .peerReset := by decide

theorem witness_DecodeGivesBackEveryEncodedInstruction :
    Params.default.wf = true ∧
    [Instr.boot, .send 0x0 0xFFFFFFFFFFFFFFFF, .recv, .dispatch 0xdead 0x20, .pumpOnce, .pumpForever, .addEp 0xFF 0xFF,
      .read32 0xFFFFFFFFFFFFFFFC, .write32 0x44 0x10, .read64 0xFFFFFFFFFFFFFFF8, .write64 0x8808 0x20].all
        (fun i => i.wf Params.default) = true := by decide

theorem witness_DecodedOperandsLieInTheirRanges :
    Params.default.wf = true ∧
    decodePort Params.default (.cmd 0x7_FFFFFFFFFFFFFFFF_FFFFFFFFFFFFFF20) = .ok (.addEp 0x20 0xFF) ∧
    decodePort Params.default (.bus 0x2_FFFFFFFFFFFFFFFF_0000000000000000) = .ok (.read64 0xFFFFFFFFFFFFFFFF) := by decide

theorem witness_FieldInsertionReplacesTheFieldAlone :
    0 ≤ 31 ∧ 31 < 32 ∧ 4 ≤ 4 ∧ (fieldInsert (0 : Word32) 31 0 0xFFFFFFFF).getLsbD 31 = true := by decide

theorem witness_StepRunsTheDecodedInstruction :
    let busy := { at_ (.ending .boot) with ports.moves := [.core, .accept] }
    let offering := offered [.cmd 0x1_0000000000000000_0000000000000000] []
    busy.params.wf = true ∧ nextMove busy = .core ∧ busy.core.current = some .boot ∧
    offering.params.wf = true ∧ nextMove offering = .core ∧ offering.core.seq = .idle ∧
    offering.ports.requests = .cmd 0x1_0000000000000000_0000000000000000 :: [] ∧
    refusedWord offering (.cmd 0x1_0000000000000000_0000000000000000) = none ∧
    decodePort offering.params (.cmd 0x1_0000000000000000_0000000000000000) = .ok .boot ∧
    refusedWord (strict true []) (.cmd 0x1_0000000000000000_0000000000000000) = some .secondBoot ∧
    nextMove (strict true []) = .core ∧ nextMove State.reset = .core ∧ State.reset.core.seq = .idle ∧ State.reset.ports.requests = [] := by decide

theorem witness_PlacedWordIsRunNext :
    State.reset.params.wf = true ∧ State.reset.params.strictHost = true ∧
    decodePort State.reset.params (tablePort 132 0x2_0000000000000020_0000000000000001) = .ok (.send 0x1 0x20) ∧
    decodePort State.reset.params (tablePort 130 0x3_0000000000008808_0000000000000020) = .ok (.write64 0x8808 0x20) := by
  decide

theorem witness_ReservedOpcodeCompletesWithIllegalCmd :
    let s0 := offered [.cmd 0x0_0000000000000000_0000000000000000] []
    let s8 := offered [.cmd 0x8_0000000000000000_0000000000000000] []
    let e := at_ (.ending (.reserved 0x9))
    s0.params.wf = true ∧ nextMove s0 = .core ∧ s0.core.seq = .idle ∧ s0.params.strictHost = false ∧
    e.params.wf = true ∧ nextMove e = .core ∧ e.core.seq = .ending (.reserved 0x9) ∧
    cmdOp 0x0_0000000000000000_0000000000000000 = 0x0 ∧
    nextMove s8 = .core ∧ s8.core.seq = .idle ∧ 0x8 ≤ (cmdOp 0x8_0000000000000000_0000000000000000).toNat ∧
    0x8 ≤ (cmdOp 0xF_0000000000000000_0000000000000000).toNat := by decide

/-- One word for each duty: a bus word, opcodes 0x0, 0x8 and 0xF, a set operand bit, a second BOOT after a BOOT and
after a reset of the core, a send before BOOT. -/
theorem witness_MisuseIsRefusedUnderTheSwitch :
    let s := strict true [encode Params.default .boot]
    let u := strict false [encode Params.default (.send 0x1 0x20)]
    s.params.wf = true ∧ s.params.strictHost = true ∧ nextMove s = .core ∧ s.core.seq = .idle ∧ s.core.booted = true ∧
    u.params.wf = true ∧ u.core.booted = false ∧
    refusalOf (step (strict true [.bus 0x0_0000000000008110_0000000000000000])) = some .hostOnRegisters ∧
    refusalOf (step (strict true [.cmd 0x0_0000000000000000_0000000000000000])) = some (.reservedCommand 0x0) ∧
    refusalOf (step (strict true [.cmd 0x8_0000000000000000_0000000000000000])) = some (.reservedCommand 0x8) ∧
    refusalOf (step (strict true [.cmd 0xF_0000000000000000_0000000000000000])) = some (.reservedCommand 0xF) ∧
    refusalOf (step (strict true [.cmd 0x7_0000000000000001_0000000000000120])) = some .reservedOperandBits ∧
    refusalOf (step s) = some .secondBoot ∧
    refusalOf (step { strict false [encode Params.default .boot] with peer.started := true }) = some .secondBoot ∧
    refusalOf (step u) = some .beforeBoot := by decide

theorem witness_CommandOfferedWhileAnotherRunsWaits :
    (at_ (.send .s3)).core.current = some (.send 0 0) ∧ commandOp .boot = some 0x1 ∧
    commandOp (.send 0 0) = some 0x2 ∧ (0x1 : BitVec 4) ≠ 0x2 := by decide

theorem witness_BootEventsInOrder :
    State.reset.params.wf = true ∧ State.reset.core.seq = .idle ∧ (at_ (.boot .b0)).core.seq = .boot .b0 ∧
    (openAt (.boot .b1) 0).params.wf = true ∧ (openAt (.boot .b1) 0).core.seq = .boot .b1 ∧
    (at_ (.ending .boot)).core.seq = .ending .boot := by decide

theorem witness_BootRunsToCompletion :
    let w := PortWord.cmd 0x1_0000000000000000_0000000000000000
    (offered [w] []).params.wf = true ∧ (offered [w] []).core.seq = .idle ∧ (offered [w] []).ports.moves = [] ∧
    decodePort (offered [w] []).params w = .ok .boot ∧ (offered [w] []).taken [w] ∧ (strict false [w]).taken [w] :=
  ⟨by decide, by decide, by decide, by decide, fun _ => by decide, fun _ => by decide⟩

theorem witness_SendEventsInOrder :
    let last := deep (.send .s2) [⟨0x1, 0x20⟩] []
    State.reset.core.seq = .idle ∧ (at_ (.send .s0)).core.seq = .send .s0 ∧ (at_ (.send .s1)).core.seq = .send .s1 ∧
    last.params.wf = true ∧ last.core.seq = .send .s2 ∧ last.peer.inQ.length < last.params.inboxDepth ∧
    (openAt (.send .s2) 0).params.wf = true ∧ (openAt (.send .s2) 0).params.openForm = true := by decide

/-- The poll at its bound, one below it, without a bound, and in the open form. -/
theorem witness_SendEventsInOrder_poll :
    (bounded 3 2).params.wf = true ∧ (bounded 3 2).core.seq = .send .s3 ∧
    (bounded 3 2).peer.inQ.length = (bounded 3 2).params.inboxDepth ∧
    (bounded 3 2).params.sendPollBound = some ((bounded 3 2).core.polls + 1) ∧
    (∀ n, (bounded 3 1).params.sendPollBound = some n → (bounded 3 1).core.polls + 1 < n) ∧
    (at_ (.send .s3)).params.sendPollBound = none ∧
    (openAt (.send .s3) 0x00010002).ports.response = some 0x00010002 ∧
    (at_ (.ending .sendDone)).core.seq = .ending .sendDone ∧
    (bounded 3 3).params.sendPollBound = some 3 := by
  refine ⟨by decide, by decide, by decide, by decide, ?_, by decide, by decide, by decide, by decide⟩
  intro n h
  cases h
  decide

theorem witness_WriteOntoFullInboxIsRefused :
    let s := queued (.send .s2) [⟨0x1, 0x20⟩] []
    s.params.wf = true ∧ s.params.openForm = false ∧ s.peer.inQ.length = s.params.inboxDepth ∧
    s.core.seq = .send .s2 := by decide

theorem witness_RecvEventsInOrder :
    (at_ (.recv .v0)).params.wf = true ∧ (at_ (.recv .v0)).core.seq = .recv .v0 ∧ (at_ (.recv .v0)).peer.outQ = [] ∧
    (queued (.recv .v1) [] [⟨0xdead, 0x20⟩]).peer.outQ = ⟨0xdead, 0x20⟩ :: [] ∧
    (deep (.recv .v2) [] [⟨0xA, 0x20⟩, ⟨0xB, 0x21⟩]).core.seq = .recv .v2 ∧ (at_ (.recv .v3)).core.seq = .recv .v3 ∧
    (openAt (.recv .v0) 0xFFFDFFFF).params.openForm = true ∧
    (at_ (.ending .recvNoMessage)).core.seq = .ending .recvNoMessage ∧
    (at_ (.ending .recvFrame)).core.seq = .ending .recvFrame := by decide

theorem witness_RecvRunsToCompletion :
    let w := PortWord.cmd 0x3_0000000000000000_0000000000000000
    let empty := offered [w] []
    let one := { empty with peer.outQ := [⟨0xdead, 0x20⟩] }
    empty.params.wf = true ∧ empty.params.openForm = false ∧ empty.core.seq = .idle ∧ empty.ports.moves = [] ∧
    decodePort empty.params w = .ok .recv ∧ empty.peer.outQ = [] ∧ one.peer.outQ = ⟨0xdead, 0x20⟩ :: [] ∧
    empty.taken [w] ∧ (strict true [w]).taken [w] :=
  ⟨by decide, by decide, by decide, by decide, by decide, by decide, by decide, (fun h => by cases h), fun _ => by decide⟩

theorem witness_DispatchEventsInOrder :
    State.reset.core.seq = .idle ∧
    eptLookup table25 ((0x0 : Word64).extractLsb' 0 8) = some 0x06 ∧
    eptLookup table25 ((0xFF : Word64).extractLsb' 0 8) = some 0x05 ∧
    eptLookup table25 ((0x21 : Word64).extractLsb' 0 8) = none ∧
    (dispatching (.dispatch .p0) 0x2 0x0).core.seq = .dispatch .p0 ∧
    (answered (.dispatch .p1) (some false)).ports.epAnswer = some false ∧
    (answered (.dispatch .p1) none).ports.epAnswer = none ∧
    (dispatching (.dispatch .p2) 0xbeef 0x21).core.seq = .dispatch .p2 ∧
    (at_ (.ending .dispatchUnhandled)).core.seq = .ending .dispatchUnhandled := by decide

/-- A hit and a miss, in each of the three commands. -/
theorem witness_LookupKeyIsTheEndpointFieldAlone :
    (dispatching (.dispatch .p0) 0xdead 0x20).core.seq = .dispatch .p0 ∧
    (dispatching (.pumpOnce (.disp .p0)) 0xdead 0x21).core.seq = .pumpOnce (.disp .p0) ∧
    (dispatching (.pumpForever (.disp .p0)) 0xdead 0xFF).core.seq = .pumpForever (.disp .p0) ∧
    eptLookup table25 ((0x20 : Word64).extractLsb' 0 8) = some 0x05 ∧
    eptLookup table25 ((0x21 : Word64).extractLsb' 0 8) = none ∧
    (0xABCD000000000120 : Word64).extractLsb' 0 8 = (0x20 : Word64).extractLsb' 0 8 := by decide

/-- Every phase of a pump, its frame at the head of the outbox or in the receive registers, in a dispatch with a hit, a
miss, an answer and none. -/
theorem witness_PumpOnceEventsInOrder :
    let q := fun v => queued (.pumpOnce (.recv v)) [] [⟨0xdead, 0x20⟩]
    State.reset.core.seq = .idle ∧ (q .v0).params.wf = true ∧ (q .v0).core.seq = .pumpOnce (.recv .v0) ∧
    (q .v1).core.seq = .pumpOnce (.recv .v1) ∧ (q .v2).core.seq = .pumpOnce (.recv .v2) ∧
    (q .v3).core.seq = .pumpOnce (.recv .v3) ∧
    (dispatching (.pumpOnce (.disp .p0)) 0xdead 0x20).core.seq = .pumpOnce (.disp .p0) ∧
    eptLookup table25 ((0x20 : Word64).extractLsb' 0 8) = some 0x05 ∧
    eptLookup table25 ((0x21 : Word64).extractLsb' 0 8) = none ∧
    (answered (.pumpOnce (.disp .p1)) (some true)).ports.epAnswer = some true ∧
    (answered (.pumpOnce (.disp .p1)) none).ports.epAnswer = none ∧
    (dispatching (.pumpOnce (.disp .p2)) 0xbeef 0x21).core.seq = .pumpOnce (.disp .p2) ∧
    (at_ (.ending .pumpOnceIdle)).core.seq = .ending .pumpOnceIdle ∧
    (at_ (.ending .pumpOnceUnhandled)).core.seq = .ending .pumpOnceUnhandled := by decide

theorem witness_PumpForeverEventsInOrder :
    let q := fun v => queued (.pumpForever (.recv v)) [] [⟨0x1, 0x21⟩]
    (q .v0).params.wf = true ∧ (q .v0).params.pumpStopOnIdle = false ∧ (at_ (.pumpForever (.recv .v0))).peer.outQ = [] ∧
    (q .v0).core.seq = .pumpForever (.recv .v0) ∧ (q .v1).core.seq = .pumpForever (.recv .v1) ∧
    (q .v2).core.seq = .pumpForever (.recv .v2) ∧ (q .v3).core.seq = .pumpForever (.recv .v3) ∧
    (dispatching (.pumpForever (.disp .p0)) 0x1 0x21).core.seq = .pumpForever (.disp .p0) ∧
    (answered (.pumpForever (.disp .p1)) (some true)).core.seq = .pumpForever (.disp .p1) ∧
    (answered (.pumpForever (.disp .p1)) (some false)).ports.epAnswer = some false ∧
    (dispatching (.pumpForever (.disp .p2)) 0x1 0x21).core.seq = .pumpForever (.disp .p2) ∧
    (at_ (.ending .pumpForeverUnhandled)).core.seq = .ending .pumpForeverUnhandled := by decide

theorem witness_PumpForeverUnderTheSwitchStopsOnIdle :
    let s := { at_ (.pumpForever (.recv .v0)) with params.pumpStopOnIdle := true }
    let e := { at_ (.ending .pumpForeverIdle) with params.pumpStopOnIdle := true }
    s.params.wf = true ∧ s.params.pumpStopOnIdle = true ∧ s.core.seq = .pumpForever (.recv .v0) ∧
    e.params.wf = true ∧ e.params.pumpStopOnIdle = true ∧ e.core.seq = .ending .pumpForeverIdle := by decide

theorem witness_AddEpWritesOneEntry :
    let u := { dispatching (.dispatch .p0) 0x3 0xFF with core.ept := eptInsert table25 0xFF 0x00 }
    State.reset.core.seq = .idle ∧ (at_ (.addEp 0xFF 0x00)).core.seq = .addEp 0xFF 0x00 ∧
    u.core.ept = eptInsert table25 0xFF 0x00 ∧ u.core.seq = .dispatch .p0 ∧
    u.core.rxHeader.extractLsb' 0 8 = 0xFF := by decide

theorem witness_DispatchSeesTheLatestRegistration :
    let s := { offered [encode Params.default (.addEp 0x20 0xFF), encode Params.default (.dispatch 0xdead 0x120)] [] with
      core.ept := [(0x20, 0x01)] }
    s.params.wf = true ∧ (0xFF : Handle).toNat < 2 ^ s.params.epHandleW ∧ (0x120 : Word64).extractLsb' 0 8 = 0x20 ∧
    s.core.seq = .idle ∧ s.ports.moves = [] ∧
    s.taken [encode s.params (.addEp 0x20 0xFF), encode s.params (.dispatch 0xdead 0x120)] ∧
    (strict true []).taken [encode s.params (.addEp 0x20 0xFF), encode s.params (.dispatch 0xdead 0x120)] :=
  ⟨by decide, by decide, by decide, by decide, by decide, (fun h => by cases h), fun _ => by decide⟩

theorem witness_RegistrationOrderLeavesNoMark :
    eptSorted table25 = true ∧ (0x20 : Ident) ≠ 0x21 ∧ eptSorted [] = true := by decide

theorem witness_Read32ReturnsTheControlRegister :
    (queued .idle [⟨0x1, 0x20⟩] []).params.wf = true ∧ (queued .idle [⟨0x1, 0x20⟩] []).params.openForm = false ∧
    (openAt .idle 0x00030000).params.wf = true := by decide

theorem witness_Write32DepositsCpuControl :
    State.reset.params.wf = true ∧ State.reset.params.openForm = false := by decide

theorem witness_Read64OfTheOutboxConsumesOnTheHeader :
    let s := deep .idle [] [⟨0xA, 0x20⟩, ⟨0xB, 0x21⟩]
    s.params.wf = true ∧ s.params.openForm = false ∧ s.peer.outQ = ⟨0xA, 0x20⟩ :: [⟨0xB, 0x21⟩] := by decide

theorem witness_Write64OfTheInboxCommitsOnTheHeader :
    let s := deep .idle [⟨0x1, 0x20⟩] []
    s.params.wf = true ∧ s.params.openForm = false ∧ s.peer.inQ.length < s.params.inboxDepth := by decide

/-- A field of either width at the ends of its register, a read that answers and one that is refused. -/
theorem witness_FieldAccessorsActAtTheRegistersWidth :
    (openAt .idle 0).params.wf = true ∧ (RegField.mk .cpuControl 31 0).wf = true ∧ (RegField.mk .outbox1 63 0).wf = true ∧
    (epField .outbox1).wf = true ∧ regWidth .outboxCtrl = 4 ∧
    (nextOf (exec (.read32 0x8114) (at_ .idle))).isSome = true ∧
    (nextOf (exec (.read64 0x8838) (at_ .idle))).isSome = true ∧
    (nextOf (exec (.write32 0x44 0) (at_ .idle))).isSome = true ∧
    (nextOf (exec (.write64 0x8808 0) (at_ .idle))).isSome = true ∧
    refusalOf (exec (.read32 0x44) (at_ .idle)) = some (.unreadable .cpuControl) := by decide

theorem witness_OpenFormReadsWhatTheResponderGives :
    (openAt .idle 0x00030000).params.wf = true ∧ (openAt .idle 0x00030000).params.openForm = true := by decide

theorem witness_OnlyTheSevenRegistersAnswer :
    (¬ ∃ r, regWidth r = 4 ∧ 0x8800 = regAddr Params.default r) ∧
    (¬ ∃ r, regWidth r = 8 ∧ 0x8110 = regAddr Params.default r) := by
  constructor <;> rintro ⟨r, h, h'⟩ <;> cases r <;> revert h h' <;> decide

theorem witness_FullAndEmptyAreExclusive : (deep .idle [⟨0x1, 0x20⟩] []).params.wf = true := by decide

theorem witness_AcceptDeliversTheHeadFrame :
    let s := { queued (.send .s3) [⟨0x1, 0x20⟩] [] with ports.moves := [.accept] }
    s.params.wf = true ∧ nextMove s = .accept ∧ s.peer.inQ = ⟨0x1, 0x20⟩ :: [] ∧
    nextMove (offered [] [.accept]) = .accept ∧ (offered [] [.accept]).peer.inQ = [] := by decide

theorem witness_PostAppendsToTheOutbox :
    let room := { deep .idle [] [⟨0xA, 0x20⟩] with ports.moves := [.post ⟨0xB, 0x21⟩] }
    let full := { queued .idle [] [⟨0xA, 0x20⟩] with ports.moves := [.post ⟨0xB, 0x21⟩] }
    room.params.wf = true ∧ nextMove room = .post ⟨0xB, 0x21⟩ ∧ room.peer.outQ.length < room.params.outboxDepth ∧
    full.params.wf = true ∧ nextMove full = .post ⟨0xB, 0x21⟩ ∧ ¬ full.peer.outQ.length < full.params.outboxDepth := by
  decide

theorem witness_OtherAgentsNeverTouchTheCore :
    let s := { answered (.dispatch .p1) none with ports.moves := [.answer true] }
    nextMove s ≠ .core ∧ nextMove s ≠ .coreReset ∧
    (nextOf (step s)).map (fun t => t.ports.epAnswer) = some (some true) := by decide

theorem witness_SilentEndpointHoldsTheCore :
    let s := answered (.pumpForever (.disp .p1)) none
    s.params.wf = true ∧ s.core.seq.awaitsAnswer = true ∧ s.ports.epAnswer = none ∧ s.ports.moves = [] := by decide

/-- A state in mid-dispatch meets the invariant, and a step from it answers. -/
theorem witness_EveryStepKeepsTheInvariant :
    (answered (.dispatch .p1) (some true)).Inv ∧ ∃ t, step (answered (.dispatch .p1) (some true)) = .next t :=
  ⟨⟨by decide, by decide, by decide, by decide, by decide, by decide, fun _ => ⟨_, rfl⟩, by decide, by decide⟩,
    next_of_isSome (by decide)⟩

/-- The receive part between its two data reads. -/
theorem witness_EveryStepKeepsTheOutboxCoherent :
    let s := { queued (.recv .v2) [] [⟨0xdead, 0x20⟩] with core.rxData := 0xdead }
    s.Inv ∧ s.OutboxCoherent ∧ nextMove s ≠ .peerReset ∧ ∃ t, step s = .next t :=
  ⟨⟨by decide, by decide, by decide, by decide, by decide, by decide, (fun h => by cases h), by decide, by decide⟩,
    ⟨by decide, by decide, fun _ => ⟨_, _, rfl, rfl⟩⟩, by decide, next_of_isSome (by decide)⟩

/-- A SEND about to commit, and one that polls a full inbox. -/
theorem witness_EveryStepKeepsTheInboxRoom :
    (at_ (.send .s2)).Inv ∧ (at_ (.send .s2)).InboxRoom ∧ (at_ (.send .s2)).onlyCommands = true ∧
    nextMove (at_ (.send .s2)) ≠ .coreReset ∧ (∃ t, step (at_ (.send .s2)) = .next t) ∧
    (queued (.send .s3) [⟨0x1, 0x20⟩] []).InboxRoom :=
  ⟨⟨by decide, by decide, by decide, by decide, by decide, by decide, (fun h => by cases h), by decide, by decide⟩,
    ⟨by decide, by decide, by decide⟩, by decide, by decide, next_of_isSome (by decide), ⟨by decide, by decide, by decide⟩⟩

theorem witness_NoRunUnderThePremisesStops :
    let s := offered [encode Params.default .boot, encode Params.default (.send 0x1 0x20)] [.post ⟨0xA, 0x20⟩, .core, .accept]
    s.Inv ∧ s.InboxRoom ∧ s.onlyCommands = true ∧ Move.coreReset ∉ s.ports.moves ∧
    ({ s with params.strictHost := true } : State).DutiesHeld :=
  ⟨⟨by decide, by decide, by decide, by decide, by decide, by decide, (fun h => by cases h), by decide, by decide⟩,
    ⟨by decide, by decide, by decide⟩, by decide, by decide, ⟨by decide, by decide⟩⟩

/-- The step that commits the frame, and ACCEPT. -/
theorem witness_SentFramesArriveInOrderAndUnchanged :
    let s := { at_ (.send .s2) with core.txData := 0x1, core.txHeader := 0x20, peer.inStage := 0x1 }
    s.params.openForm = false ∧ s.Staged ∧ s.onlyCommands = true ∧ nextMove s ≠ .peerReset ∧
    (nextOf (step s)).map (fun t => t.peer.inQ) = some [⟨0x1, 0x20⟩] :=
  ⟨by decide, fun _ => rfl, by decide, by decide, by decide⟩

theorem witness_OutboxIsFirstInFirstOut :
    let pops := deep (.recv .v2) [] [⟨0xA, 0x20⟩, ⟨0xB, 0x21⟩]
    let posts := { pops with params.outboxDepth := 3, ports.moves := [.post ⟨0xC, 0x22⟩] }
    nextMove pops ≠ .peerReset ∧ (nextOf (step pops)).map (fun t => t.peer.outQ) = some [⟨0xB, 0x21⟩] ∧
    nextMove posts ≠ .peerReset ∧
    (nextOf (step posts)).map (fun t => t.peer.outQ) = some [⟨0xA, 0x20⟩, ⟨0xB, 0x21⟩, ⟨0xC, 0x22⟩] := by decide

theorem witness_OnlyAddEpWritesTheTable :
    (nextOf (step (at_ (.addEp 0x20 0x01)))).map (fun t => t.core.ept) = some [(0x20, 0x01)] ∧
    (nextOf (step { dispatching .idle 0 0 with ports.moves := [.coreReset] })).map (fun t => t.core.ept) = some [] := by
  decide

theorem witness_BootedFollowsBootAndReset :
    (nextOf (step (at_ (.ending .boot)))).map (fun t => t.core.booted) = some true ∧
    (nextOf (step { at_ .idle with core.booted := true, ports.moves := [.coreReset] })).map (fun t => t.core.booted) =
      some false := by decide

/-- The bring-up of R325: a registration, BOOT, then a send. -/
theorem witness_HostDutiesStayMet :
    let s := offered [encode Params.default (.addEp 0x20 0x01), encode Params.default .boot,
      encode Params.default (.send 0x1 0x20)] []
    s.DutiesHeld ∧ nextMove s ≠ .coreReset ∧ ∃ t, step s = .next t :=
  ⟨⟨by decide, by decide⟩, by decide, next_of_isSome (by decide)⟩

/-- Under the switch, a core in mid-receive. -/
theorem witness_HostDutiesStayMet_switch :
    let s := { strict true [] with core.seq := .recv .v3 }
    s.params.strictHost = true ∧ s.core.ordered = true ∧ ∃ t, step s = .next t :=
  ⟨by decide, by decide, next_of_isSome (by decide)⟩

/-- Under the switch, the coprocessor started by an earlier BOOT, and a step of PEER before `B0`. -/
theorem witness_HostDutiesStayMet_started :
    let s := { at_ (.boot .b0) with peer.started := true, ports.moves := [.accept] }
    s.params.strictHost = true ∧ s.peer.started = true ∧ seqOf (step s) = some (.boot .b0) := by decide

theorem witness_CoreNeverTestsBooted :
    (∃ t, exec .boot (at_ (.ending .boot)) = .next t) ∧ ∃ t, exec (.send 0x1 0x20) State.reset = .next t :=
  ⟨next_of_isSome (by decide), next_of_isSome (by decide)⟩

theorem witness_OperationChangesThroughIdle :
    seqOf (step (offered [encode Params.default .recv] [])) = some (.recv .v0) ∧
    seqOf (step (at_ (.recv .v0))) = some (.ending .recvNoMessage) ∧
    seqOf (step (at_ (.ending .recvNoMessage))) = some .idle := by decide

theorem witness_PhasesOnlyMoveForward :
    (at_ (.recv .v1)).core.current = some .recv ∧ seqOf (exec .recv (at_ (.recv .v1))) = some (.recv .v2) ∧
    (queued (.send .s3) [⟨0x1, 0x20⟩] []).core.current = some (.send 0 0) ∧
    seqOf (exec (.send 0 0) (queued (.send .s3) [⟨0x1, 0x20⟩] [])) = some (.send .s3) := by decide

theorem witness_CommandPortIsClosedWhileBusy :
    (nextOf (step { at_ (.boot .b0) with ports.requests := [encode Params.default .recv] })).map
      (fun t => t.ports.requests) = some [encode Params.default .recv] ∧
    (nextOf (step (offered [encode Params.default .recv] []))).map (fun t => t.ports.requests) = some [] := by decide

theorem witness_StepsOnlyAppendEvents :
    eventsOf (step { at_ (.send .s0) with core.txHeader := 0xABCD000000000120 }) =
      some [.trace ⟨.tx, 0x20, ⟨0, 0xABCD000000000120⟩⟩] := by decide

theorem witness_CompletionStatusesAreThoseOfTheCommand :
    let s := { bounded 3 3 with core.seq := .ending .sendTimeout }
    s.Inv ∧ s.core.current = some (.send 0 0) ∧
    eventsOf (exec (.send 0 0) s) = some [.complete .timeout none] ∧
    (at_ (.ending .recvFrame)).core.current = some .recv ∧ (at_ (.recv .v3)).core.current = some .recv :=
  ⟨⟨by decide, by decide, by decide, by decide, by decide, by decide, (fun h => by cases h), by decide, by decide⟩,
    by decide, by decide, by decide, by decide⟩

/-- Vector 2.3 with two blocked polls. -/
theorem witness_SendCompletesWhenPeerAccepts :
    let s := offered [encode Params.default (.send 0x1 0x20)]
      (List.replicate (4 + 2) Move.core ++ [.accept, .core, .core])
    s.params.wf = true ∧ s.params.openForm = false ∧ s.params.inboxDepth = 1 ∧ s.params.sendPollBound = none ∧
    s.core.seq = .idle ∧ s.peer.inQ = [] ∧ s.ports.requests = encode s.params (.send 0x1 0x20) :: [] ∧
    s.taken [encode s.params (.send 0x1 0x20)] ∧ (strict true []).taken [encode s.params (.send 0x1 0x20)] :=
  ⟨by decide, by decide, by decide, by decide, by decide, by decide, by decide, (fun h => by cases h), fun _ => by decide⟩

theorem witness_SendBlocksWithoutBound :
    let s := queued (.send .s3) [⟨0x1, 0x20⟩] []
    s.params.wf = true ∧ s.params.openForm = false ∧ s.params.sendPollBound = none ∧ s.core.seq = .send .s3 ∧
    s.peer.inQ.length = s.params.inboxDepth ∧ s.ports.moves = [] := by decide

theorem witness_PumpForeverIdlesWithoutEnd :
    let s := at_ (.pumpForever (.recv .v0))
    s.params.wf = true ∧ s.params.openForm = false ∧ s.params.pumpStopOnIdle = false ∧
    s.core.seq = .pumpForever (.recv .v0) ∧ s.peer.outQ = [] ∧ s.ports.moves = [] := by decide

theorem witness_PumpOnceIsRecvThenDispatch :
    let s := { queued .idle [] [⟨0xdead, 0x20⟩] with core.ept := [(0x20, 0x01)], core.booted := true }
    s.params.wf = true ∧ s.params.openForm = false ∧ s.params.strictHost = true ∧ s.core.booted = true ∧ s.core.seq = .idle ∧
    s.peer.outQ = ⟨0xdead, 0x20⟩ :: [] := by decide

end Sys2Proof.Tests
end

/-! SUPPORT. A word placed in the machine runs next (O11); what a step adds to the event log (O55); the invariant of every
reachable state (O42). The last two follow the events of `CommandEvent` and the steps of `OneStep`. -/

namespace Sys2Proof.Machine

/-! ### A placed word -/

/-- The decoder does not look at the switch `strictHost`. -/
theorem decodePort_strictHost (p : Params) (b : Bool) (w : PortWord) :
    decodePort { p with strictHost := b } w = decodePort p w := rfl

/-- Settles O11: the placed word is the one the idle core takes, and with the switch off no word is refused. -/
theorem placedWordIsRunNext : Obligations.PlacedWordIsRunNext := by
  unfold Obligations.PlacedWordIsRunNext
  intro s nbits w i hw hd
  calc step (s.withFetchWord nbits w)
    _ = coreMove (s.withFetchWord nbits w).popMove := step_of_wf (s := s.withFetchWord nbits w) hw
    _ = exec i { s with core.seq := .idle, params.strictHost := false } :=
        coreMove_takes (s := (s.withFetchWord nbits w).popMove) rfl rfl (refusedWord_off rfl _)
          ((decodePort_strictHost s.params false _).trans hd)

/-! ### The event log -/

/-- A trace event carries the low byte of its header (R132); nothing is asked of any other event. -/
def Event.TracesLowByte : Event → Prop
  | .trace t => t.ep = epOf t.frame.header
  | _        => True

/-- From `s` to `t` the parameters are kept and at most one event is appended, a trace event with its low byte. -/
def State.AppendsOne (s t : State) : Prop :=
  t.params = s.params ∧
    (t.ports.events = s.ports.events ∨ ∃ e : Event, t.ports.events = s.ports.events ++ [e] ∧ e.TracesLowByte)

theorem State.AppendsOne.silent {s t : State} (hp : t.params = s.params) (he : t.ports.events = s.ports.events) :
    s.AppendsOne t :=
  ⟨hp, .inl he⟩

theorem State.AppendsOne.event {s t : State} {e : Event} (hp : t.params = s.params)
    (he : t.ports.events = s.ports.events ++ [e]) (ht : e.TracesLowByte) : s.AppendsOne t :=
  ⟨hp, .inr ⟨e, he, ht⟩⟩

/-- The event is not seen by what follows it, where that keeps the parameters and the log. -/
theorem State.AppendsOne.trans_silent {s t u : State} (h : s.AppendsOne t) (hp : u.params = t.params)
    (he : u.ports.events = t.ports.events) : s.AppendsOne u := by
  rw [AppendsOne, hp, he]; exact h

theorem busRead32_appendsOne {a : Nat} {s t : State} {v : CtrlValue} (h : busRead32 a s = .next (v, t)) :
    s.AppendsOne t := by
  obtain ⟨hp, -, -, -, -, -, -, he⟩ := busRead32_frame h
  exact .event hp he trivial

theorem busRead64_appendsOne {a : Nat} {s t : State} {v : Word64} (h : busRead64 a s = .next (v, t)) :
    s.AppendsOne t := by
  obtain ⟨hp, -, -, -, -, -, he, -⟩ := busRead64_frame h
  exact .event hp he trivial

theorem busWrite32_appendsOne {a : Nat} {s t : State} {v : Word32} (h : busWrite32 a v s = .next t) :
    s.AppendsOne t := by
  obtain ⟨hp, -, he, -⟩ := busWrite32_frame h
  exact .event hp (congrArg Ports.events he) trivial

theorem busWrite64_appendsOne {a : Nat} {s t : State} {v : Word64} (h : busWrite64 a v s = .next t) :
    s.AppendsOne t := by
  obtain ⟨hp, -, he, -⟩ := busWrite64_frame h
  exact .event hp (congrArg Ports.events he) trivial

theorem lookupEndpoint_appendsOne (onHit onMiss : Seq) (s : State) : s.AppendsOne (lookupEndpoint onHit onMiss s) := by
  unfold lookupEndpoint
  split
  · exact .event rfl rfl trivial
  · exact .silent rfl rfl

/-- What a positive answer leads to adds at most one event, and so does the whole of `P1`. -/
theorem takeAnswer_appendsOne {whenHandled : State → State} (h : ∀ t, State.AppendsOne t (whenHandled t))
    (onRefused : Seq) (s : State) : s.AppendsOne (takeAnswer whenHandled onRefused s) := by
  unfold takeAnswer
  split
  · exact .silent rfl rfl
  · exact h (latchAnswer true s)
  · exact .silent rfl rfl

theorem CommandEvent.appendsOne {s t : State} (h : CommandEvent s t) : s.AppendsOne t := by
  cases h with
  | b0 u hs hw => exact (busWrite32_appendsOne hw).trans_silent rfl rfl
  | b1 u hs hw => exact (busWrite32_appendsOne hw).trans_silent rfl rfl
  | s0 hs => exact .event rfl rfl rfl
  | s1 u hs hw => exact (busWrite64_appendsOne hw).trans_silent rfl rfl
  | s2 u hs hw => exact (busWrite64_appendsOne hw).trans_silent rfl rfl
  | s3 v u hs hr =>
    have hread := busRead32_appendsOne hr
    split
    · split <;> exact hread.trans_silent rfl rfl
    · exact hread.trans_silent rfl rfl
  | v0 b u q e hs hr =>
    obtain ⟨hp, -, -, -, -, -, -, ⟨v, he⟩, -⟩ := readOutboxEmpty_frame hr
    exact .event hp he trivial
  | v1 u q hs hr =>
    obtain ⟨v, hp, -, -, -, -, -, -, he, -⟩ := loadRxData_frame hr
    exact .event hp he trivial
  | v2 u q hs hr =>
    obtain ⟨v, hp, -, -, -, -, -, -, he, -⟩ := loadRxHeader_frame hr
    exact .event hp he trivial
  | v3 q hs => exact .event rfl rfl rfl
  | p0 onHit onMiss hs => exact lookupEndpoint_appendsOne onHit onMiss s
  | p1 onRefused whenHandled hs =>
    refine takeAnswer_appendsOne (fun t => ?_) onRefused s
    rcases hs with ⟨-, -, rfl⟩ | ⟨-, -, rfl⟩ | ⟨-, -, rfl⟩
    · exact .event rfl rfl trivial
    · exact .event rfl rfl trivial
    · exact .silent rfl rfl
  | p2 e hs => exact .event rfl rfl rfl
  | a0 i h hs => exact .event rfl rfl trivial
  | bootDone hs => exact .event rfl rfl trivial
  | done e hs hb hr => exact .event rfl rfl trivial

theorem OneStep.appendsOne {s t : State} (h : OneStep s t) : s.AppendsOne t := by
  cases h with
  | event _ hm he => exact he.appendsOne
  | reservedDone op hm hs => exact .event rfl rfl trivial
  | nothing hm hs hr => exact .silent rfl rfl
  | reserved op r rest hm hs hr hw hd => exact .event rfl rfl trivial
  | acceptance i q r rest hm hs hr hw hd hq => exact .event rfl rfl trivial
  | acceptanceOfSend d h r rest hm hs hr hw hd => exact .event rfl rfl trivial
  | acceptanceOfDispatch d h r rest hm hs hr hw hd => exact .event rfl rfl trivial
  | transaction _ w rest hm hs hr hw hb =>
    rcases hb with ⟨a, v, hb⟩ | ⟨a, v, hb⟩ | ⟨a, v, hb⟩ | ⟨a, v, hb⟩
    · exact (busRead32_appendsOne hb :)
    · exact (busRead64_appendsOne hb :)
    · exact (busWrite32_appendsOne hb :)
    · exact (busWrite64_appendsOne hb :)
  | peerAccepts hm => unfold peerAccept; split <;> exact .silent rfl rfl
  | peerPosts f hm => unfold peerPost; split <;> exact .silent rfl rfl
  | endpointAnswers b hm => unfold endpointAnswer; split <;> exact .silent rfl rfl
  | responderResponds v hm => unfold busRespond; split <;> exact .silent rfl rfl
  | coreResets hm => exact .silent rfl rfl
  | peerResets hm => exact .silent rfl rfl

/-- Settles O55, step by step over what one step can do. -/
theorem stepsOnlyAppendEvents : Obligations.StepsOnlyAppendEvents := by
  unfold Obligations.StepsOnlyAppendEvents
  intro s t h
  obtain ⟨hp, he | ⟨e, he, ht⟩⟩ := (oneStep_of_step h).2.appendsOne
  · exact ⟨hp, [], by simp [he], by simp, by simp⟩
  · refine ⟨hp, [e], he, by simp, fun k i f hmem => ?_⟩
    cases List.mem_singleton.mp hmem
    exact ht

/-! ### The queues within their depths (R42) -/

/-- Both queues are within their depths. -/
def Mailbox.Fits (p : Params) (m : Mailbox) : Prop :=
  m.inQ.length ≤ p.inboxDepth ∧ m.outQ.length ≤ p.outboxDepth

theorem State.Inv.fits {s : State} (h : s.Inv) : s.peer.Fits s.params := ⟨h.inbox, h.outbox⟩

theorem Mailbox.Fits.tail_outQ {p : Params} {m : Mailbox} (h : m.Fits p) :
    ({ m with outQ := m.outQ.tail } : Mailbox).Fits p :=
  ⟨h.1, by simpa using Nat.le_succ_of_le h.2⟩

theorem busRead64_fits {a : Nat} {s t : State} {v : Word64} (hf : s.peer.Fits s.params)
    (h : busRead64 a s = .next (v, t)) : t.peer.Fits s.params := by
  obtain ⟨-, -, -, -, -, -, -, hpeer | ⟨hpeer, -⟩⟩ := busRead64_frame h
  · exact hpeer ▸ hf
  · exact hpeer ▸ hf.tail_outQ

theorem busWrite32_fits {a : Nat} {s t : State} {v : Word32} (hf : s.peer.Fits s.params)
    (h : busWrite32 a v s = .next t) : t.peer.Fits s.params := by
  obtain ⟨-, -, -, hpeer | hpeer⟩ := busWrite32_frame h <;> exact hpeer ▸ hf

theorem busWrite64_fits {a : Nat} {s t : State} {v : Word64} (hf : s.peer.Fits s.params)
    (h : busWrite64 a v s = .next t) : t.peer.Fits s.params := by
  obtain ⟨-, -, -, hpeer | hpeer | ⟨hroom, hpeer⟩⟩ := busWrite64_frame h
  · exact hpeer ▸ hf
  · exact hpeer ▸ hf
  · exact hpeer ▸ ⟨by simpa using hroom, hf.2⟩

theorem peerAccept_fits {s : State} (hf : s.peer.Fits s.params) : (peerAccept s).peer.Fits s.params := by
  unfold peerAccept
  split
  · exact hf
  · rename_i f rest hq
    have hin : (f :: rest).length ≤ s.params.inboxDepth := hq ▸ hf.1
    exact ⟨Nat.le_of_succ_le hin, hf.2⟩

theorem peerPost_fits {s : State} (f : Frame) (hf : s.peer.Fits s.params) : (peerPost f s).peer.Fits s.params := by
  unfold peerPost
  split
  · rename_i hroom
    exact ⟨hf.1, by simpa using hroom⟩
  · exact hf

/-! ### The sequencer's part of the invariant -/

/-- A place of the sequencer of which the invariant asks nothing but, in a SEND, the count of polls. -/
structure Seq.Quiet (p : Params) (q : Seq) : Prop where
  handle   : q.handleFits p.epHandleW = true
  noAnswer : q.awaitsAnswer = false
  ending   : q.endingOk p = true

/-- `POLLS` means nothing outside a SEND (R26). -/
theorem pollsOk_of_ne_send {c : CoreState} (bound : Option Nat) (h : ∀ p, c.seq ≠ .send p) : c.pollsOk bound = true := by
  unfold CoreState.pollsOk
  split
  · exact absurd ‹_› (h _)
  · exact absurd ‹_› (h _)
  · rfl

/-- Before the first poll no bound is reached, since it is at least 1 (R7). -/
theorem pollGoesOn_zero {p : Params} (h : p.wf = true) : pollGoesOn p.sendPollBound 0 = true := by
  obtain ⟨-, -, -, -, -, -, -, hbound⟩ := (wf_iff p).mp h
  cases hb : p.sendPollBound with
  | none => rfl
  | some n => simpa [hb, Params.boundOk, pollGoesOn, Nat.one_le_iff_ne_zero, Nat.pos_iff_ne_zero] using hbound

theorem quiet_pumpIdle (p : Params) : (pumpIdle p).Quiet p := by
  unfold pumpIdle
  split
  · exact ⟨rfl, rfl, ‹_›⟩
  · exact ⟨rfl, rfl, rfl⟩

theorem pumpIdle_ne_send (p : Params) (ph : SendPhase) : pumpIdle p ≠ .send ph := by
  unfold pumpIdle; split <;> simp

/-- The handle of an ADD_EP that the decoder gives fits `EP_HANDLE_W` bits (R126). -/
theorem decodePort_addEp_fits {p : Params} {r : PortWord} {id : Ident} {h : Handle}
    (hd : decodePort p r = .ok (.addEp id h)) : h.toNat < 2 ^ p.epHandleW := by
  cases r with
  | cmd w =>
    obtain ⟨_, _, heq, rfl⟩ : ∃ i g, Instr.addEp id h = .addEp i g ∧ g = handleOf p (cmdArg1 w) := by
      simpa using decodeCmd_isCommand (p := p) (w := w) hd
    cases heq
    exact handleOf_fits _
  | bus w =>
    simp only [decodePort, decodeBus, Except.ok.injEq] at hd
    split at hd <;> cases hd

/-- A word the decoder gives no instruction for is a command of a reserved opcode (R127). -/
theorem decodePort_reserved {p : Params} {r : PortWord} {op : BitVec 4}
    (hd : decodePort p r = .error (.reservedOpcode op)) : op = 0x0 ∨ 0x8 ≤ op.toNat := by
  cases r with
  | cmd w =>
    obtain ⟨rfl, hop⟩ := decodeCmd_reserved.mp hd
    exact hop
  | bus w => cases hd

/-- The first phase of a command just decoded. -/
theorem FirstPhase.quiet {p : Params} {r : PortWord} {i : Instr} {q : Seq} (hq : FirstPhase i q)
    (hd : decodePort p r = .ok i) : q.Quiet p where
  handle := by
    rcases hq.handle p.epHandleW with h | ⟨id, h, rfl, rfl⟩
    · exact h
    · simpa [Seq.handleFits] using decodePort_addEp_fits hd
  noAnswer := hq.noAnswer
  ending := by
    unfold Seq.endingOk
    split
    · exact absurd rfl (hq.noEnding _)
    · exact absurd rfl (hq.noEnding _)
    · exact absurd rfl (hq.noEnding _)
    · rfl

/-! ### The invariant, kept -/

/-- Where the core and the request outstanding are as before, the queues alone matter. -/
theorem State.Inv.of_core_eq {s t : State} (h : s.Inv) (hp : t.params = s.params) (hc : t.core = s.core)
    (hreq : t.ports.epReq = s.ports.epReq) (hf : t.peer.Fits s.params) : t.Inv where
  params   := hp ▸ h.params
  inbox    := hp ▸ hf.1
  outbox   := hp ▸ hf.2
  sorted   := hc ▸ h.sorted
  handles  := hp ▸ hc ▸ h.handles
  pending  := hp ▸ hc ▸ h.pending
  awaiting := hreq ▸ hc ▸ h.awaiting
  polls    := hp ▸ hc ▸ h.polls
  ending   := hp ▸ hc ▸ h.ending

/-- Where the table is as before and the sequencer at a quiet place, the queues and the count of polls matter. -/
theorem State.Inv.of_quiet {s t : State} (h : s.Inv) (hp : t.params = s.params) (hf : t.peer.Fits s.params)
    (hept : t.core.ept = s.core.ept) (hq : t.core.seq.Quiet s.params)
    (hpolls : t.core.pollsOk s.params.sendPollBound = true) : t.Inv where
  params   := hp ▸ h.params
  inbox    := hp ▸ hf.1
  outbox   := hp ▸ hf.2
  sorted   := hept ▸ h.sorted
  handles  := hp ▸ hept ▸ h.handles
  pending  := hp ▸ hq.handle
  awaiting := fun ha => absurd ha (by simp [hq.noAnswer])
  polls    := hp ▸ hpolls
  ending   := hp ▸ hq.ending

/-- The same outside a SEND. -/
theorem State.Inv.of_settled {s t : State} (h : s.Inv) (hp : t.params = s.params) (hf : t.peer.Fits s.params)
    (hept : t.core.ept = s.core.ept) (hq : t.core.seq.Quiet s.params) (hsend : ∀ p, t.core.seq ≠ .send p) : t.Inv :=
  h.of_quiet hp hf hept hq (pollsOk_of_ne_send _ hsend)

theorem State.Inv.popMove {s : State} (h : s.Inv) : s.popMove.Inv := h.of_core_eq rfl rfl rfl h.fits

theorem State.Inv.popRequest {s : State} (h : s.Inv) : s.popRequest.Inv := h.of_core_eq rfl rfl rfl h.fits

/-- Back to idle by a completion. -/
theorem State.Inv.complete {s : State} (h : s.Inv) (st : Status) (f : Option Frame) : (s.complete st f).Inv :=
  h.of_settled rfl h.fits rfl ⟨rfl, rfl, rfl⟩ nofun

/-- `P0`: on a hit the request carries the frame received (R204, R207). -/
theorem State.Inv.lookupEndpoint {s : State} (h : s.Inv) {onHit onMiss : Seq}
    (hHit : onHit = .dispatch .p1 ∨ onHit = .pumpOnce (.disp .p1) ∨ onHit = .pumpForever (.disp .p1))
    (hMiss : onMiss.Quiet s.params) (hsend : ∀ p, onMiss ≠ .send p) : (lookupEndpoint onHit onMiss s).Inv := by
  unfold Machine.lookupEndpoint
  split
  · constructor
    case params => exact h.params
    case inbox => exact h.inbox
    case outbox => exact h.outbox
    case sorted => exact h.sorted
    case handles => exact h.handles
    case awaiting => exact fun _ => ⟨_, rfl⟩
    all_goals rcases hHit with rfl | rfl | rfl <;> rfl
  · exact h.of_settled rfl h.fits rfl hMiss hsend

/-- `P1`: a state that waits is unchanged; an answer ends the request and leads on (R207, R209). -/
theorem State.Inv.takeAnswer {s : State} (h : s.Inv) {whenHandled : State → State} {onRefused : Seq}
    (hHandled : ∀ b, (whenHandled (latchAnswer b s)).Inv) (hRefused : onRefused.Quiet s.params)
    (hsend : ∀ p, onRefused ≠ .send p) : (takeAnswer whenHandled onRefused s).Inv := by
  unfold Machine.takeAnswer
  split
  · exact h
  · exact hHandled true
  · exact h.of_settled rfl h.fits rfl hRefused hsend

/-- `A0`: the entry written has a handle that fits, and the table stays canonical (R236). -/
theorem State.Inv.insertEndpoint {s : State} {i : Ident} {g : Handle} (h : s.Inv) (hs : s.core.seq = .addEp i g) :
    (State.complete { s with core.ept := eptInsert s.core.ept i g } .done none).Inv where
  params   := h.params
  inbox    := h.inbox
  outbox   := h.outbox
  sorted   := eptSorted_insert i g h.sorted
  handles  := eptHandlesFit_insert i h.handles (by simpa [hs, Seq.handleFits] using h.pending)
  pending  := rfl
  awaiting := nofun
  polls    := rfl
  ending   := rfl

/-- `S3`: the poll goes on below the bound only, and a `TIMEOUT` is due under a bound only (R182, R186). -/
theorem State.Inv.pollInbox {s t : State} (h : s.Inv) (hs : s.core.seq = .send .s3)
    (ht : pollInbox s = .next t) : t.Inv := by
  obtain ⟨⟨v, u⟩, hr, ht⟩ := andThen_eq_next ht
  cases ht
  obtain ⟨hp, hc, hpeer, -⟩ := busRead32_frame hr
  have hf : u.peer.Fits s.params := hpeer ▸ h.fits
  have hept : u.core.ept = s.core.ept := congrArg CoreState.ept hc
  have hseq : u.core.seq = .send .s3 := (congrArg CoreState.seq hc).trans hs
  split
  · split
    · rename_i hgo
      refine h.of_quiet hp hf hept ?_ ?_
      · show u.core.seq.Quiet s.params
        rw [hseq]; exact ⟨rfl, rfl, rfl⟩
      · simpa [CoreState.pollsOk, hseq] using hgo
    · rename_i hstop
      refine h.of_settled hp hf hept ⟨rfl, rfl, ?_⟩ nofun
      cases hb : s.params.sendPollBound with
      | none => simp [hb, pollGoesOn] at hstop
      | some n => simp [Seq.endingOk, hb]
  · exact h.of_settled hp hf hept ⟨rfl, rfl, rfl⟩ nofun

/-- Before the first poll of a SEND the count is 0. -/
theorem State.Inv.polls_zero {s : State} {p : SendPhase} (h : s.Inv) (hs : s.core.seq = .send p) (hp : p ≠ .s3) :
    s.core.polls = 0 := by
  cases p with
  | s3 => exact absurd rfl hp
  | _ => simpa [CoreState.pollsOk, hs] using h.polls

theorem CommandEvent.keepsInv {s t : State} (he : CommandEvent s t) (h : s.Inv) : t.Inv := by
  cases he with
  | b0 u hs hw =>
    obtain ⟨hp, hc, -, -⟩ := busWrite32_frame hw
    exact h.of_settled hp (busWrite32_fits h.fits hw :) (congrArg CoreState.ept hc :) ⟨rfl, rfl, rfl⟩ nofun
  | b1 u hs hw =>
    obtain ⟨hp, hc, -, -⟩ := busWrite32_frame hw
    exact h.of_settled hp (busWrite32_fits h.fits hw :) (congrArg CoreState.ept hc :) ⟨rfl, rfl, rfl⟩ nofun
  | s0 hs =>
    exact h.of_quiet rfl h.fits rfl ⟨rfl, rfl, rfl⟩ (decide_eq_true (h.polls_zero hs nofun))
  | s1 u hs hw =>
    obtain ⟨hp, hc, -, -⟩ := busWrite64_frame hw
    have hz : u.core.polls = 0 := (congrArg CoreState.polls hc).trans (h.polls_zero hs nofun)
    exact h.of_quiet hp (busWrite64_fits h.fits hw :) (congrArg CoreState.ept hc :) ⟨rfl, rfl, rfl⟩ (decide_eq_true hz)
  | s2 u hs hw =>
    obtain ⟨hp, hc, -, -⟩ := busWrite64_frame hw
    have hz : u.core.polls = 0 := (congrArg CoreState.polls hc).trans (h.polls_zero hs nofun)
    refine h.of_quiet hp (busWrite64_fits h.fits hw :) (congrArg CoreState.ept hc :) ⟨rfl, rfl, rfl⟩ ?_
    show pollGoesOn s.params.sendPollBound u.core.polls = true
    rw [hz]; exact pollGoesOn_zero h.params
  | s3 v u hs hr => exact h.pollInbox hs (by rw [pollInbox, hr]; rfl)
  | v0 b u q whenEmpty hs hr =>
    obtain ⟨hp, hc, hpeer, -⟩ := readOutboxEmpty_frame hr
    have hq : (if b then whenEmpty else q).Quiet s.params ∧ ∀ p, (if b then whenEmpty else q) ≠ .send p := by
      rcases hs with ⟨-, rfl, rfl⟩ | ⟨-, rfl, rfl⟩ | ⟨-, rfl, rfl⟩ <;> cases b
      any_goals exact ⟨⟨rfl, rfl, rfl⟩, nofun⟩
      exact ⟨quiet_pumpIdle s.params, pumpIdle_ne_send s.params⟩
    exact h.of_settled hp (hpeer ▸ h.fits) (congrArg CoreState.ept hc :) hq.1 hq.2
  | v1 u q hs hr =>
    obtain ⟨v, hp, hc, hpeer, -⟩ := loadRxData_frame hr
    have hseq : t.core.seq = q := congrArg CoreState.seq hc
    have hq : q.Quiet s.params ∧ ∀ p, q ≠ .send p := by
      rcases hs with ⟨-, rfl⟩ | ⟨-, rfl⟩ | ⟨-, rfl⟩ <;> exact ⟨⟨rfl, rfl, rfl⟩, nofun⟩
    exact h.of_settled hp (hpeer ▸ h.fits) (congrArg CoreState.ept hc :) (hseq ▸ hq.1) (hseq ▸ hq.2)
  | v2 u q hs hr =>
    obtain ⟨v, hp, hc, hpeer, -⟩ := loadRxHeader_frame hr
    have hseq : t.core.seq = q := congrArg CoreState.seq hc
    have hq : q.Quiet s.params ∧ ∀ p, q ≠ .send p := by
      rcases hs with ⟨-, rfl⟩ | ⟨-, rfl⟩ | ⟨-, rfl⟩ <;> exact ⟨⟨rfl, rfl, rfl⟩, nofun⟩
    have hf : t.peer.Fits s.params := by
      rw [hpeer]
      split
      · exact h.fits
      · exact h.fits.tail_outQ
    exact h.of_settled hp hf (congrArg CoreState.ept hc :) (hseq ▸ hq.1) (hseq ▸ hq.2)
  | v3 q hs =>
    rcases hs with ⟨-, rfl⟩ | ⟨-, rfl⟩ | ⟨-, rfl⟩ <;>
      exact h.of_settled rfl h.fits rfl ⟨rfl, rfl, rfl⟩ nofun
  | p0 onHit onMiss hs =>
    rcases hs with ⟨-, rfl, rfl⟩ | ⟨-, rfl, rfl⟩ | ⟨-, rfl, rfl⟩ <;>
      exact h.lookupEndpoint (by simp) ⟨rfl, rfl, rfl⟩ nofun
  | p1 onRefused whenHandled hs =>
    rcases hs with ⟨-, rfl, rfl⟩ | ⟨-, rfl, rfl⟩ | ⟨-, rfl, rfl⟩ <;>
      exact h.takeAnswer (fun b => h.of_settled rfl h.fits rfl ⟨rfl, rfl, rfl⟩ nofun) ⟨rfl, rfl, rfl⟩ nofun
  | p2 e hs =>
    rcases hs with ⟨-, rfl⟩ | ⟨-, rfl⟩ | ⟨-, rfl⟩ <;>
      exact h.of_settled rfl h.fits rfl ⟨rfl, rfl, rfl⟩ nofun
  | a0 i g hs => exact h.insertEndpoint hs
  | bootDone hs => exact h.of_settled rfl h.fits rfl ⟨rfl, rfl, rfl⟩ nofun
  | done e hs hb hr => exact h.complete _ _

/-- A transaction of an idle core: the queues stay within their depths, the core is not concerned. -/
theorem State.Inv.transaction {s t : State} (h : s.Inv)
    (hb : (∃ a v, busRead32 a s = .next (v, t)) ∨ (∃ a v, busRead64 a s = .next (v, t)) ∨
      (∃ a v, busWrite32 a v s = .next t) ∨ (∃ a v, busWrite64 a v s = .next t)) : t.Inv := by
  rcases hb with ⟨a, v, hb⟩ | ⟨a, v, hb⟩ | ⟨a, v, hb⟩ | ⟨a, v, hb⟩
  · obtain ⟨hp, hc, hpeer, -, -, hreq, -, -⟩ := busRead32_frame hb
    exact h.of_core_eq hp hc hreq (hpeer ▸ h.fits)
  · obtain ⟨hp, hc, -, -, hreq, -, -, -⟩ := busRead64_frame hb
    exact h.of_core_eq hp hc hreq (busRead64_fits h.fits hb)
  · obtain ⟨hp, hc, hports, -⟩ := busWrite32_frame hb
    exact h.of_core_eq hp hc (congrArg Ports.epReq hports :) (busWrite32_fits h.fits hb)
  · obtain ⟨hp, hc, hports, -⟩ := busWrite64_frame hb
    exact h.of_core_eq hp hc (congrArg Ports.epReq hports :) (busWrite64_fits h.fits hb)

/-- A reset of the core empties the table and leaves the sequencer idle (R43, R320). -/
theorem State.Inv.coreReset {s : State} (h : s.Inv) : (coreReset s).Inv where
  params   := h.params
  inbox    := h.inbox
  outbox   := h.outbox
  sorted   := rfl
  handles  := rfl
  pending  := rfl
  awaiting := nofun
  polls    := rfl
  ending   := rfl

theorem OneStep.keepsInv {s t : State} (ho : OneStep s t) (h : s.Inv) : t.Inv := by
  have hpop : s.popMove.Inv := h.popMove
  have htaken : s.popMove.popRequest.Inv := hpop.popRequest
  cases ho with
  | event _ hm he => exact he.keepsInv hpop
  | reservedDone op hm hs => exact hpop.complete _ _
  | nothing hm hs hr => exact hpop
  | reserved op r rest hm hs hr hw hd =>
    exact htaken.of_settled rfl h.fits rfl ⟨rfl, rfl, decide_eq_true (decodePort_reserved hd)⟩ nofun
  | acceptance i q r rest hm hs hr hw hd hq =>
    exact htaken.of_settled rfl h.fits rfl (hq.quiet hd) hq.noSend
  | acceptanceOfSend d g r rest hm hs hr hw hd => exact htaken.of_quiet rfl h.fits rfl ⟨rfl, rfl, rfl⟩ rfl
  | acceptanceOfDispatch d g r rest hm hs hr hw hd => exact htaken.of_settled rfl h.fits rfl ⟨rfl, rfl, rfl⟩ nofun
  | transaction _ w rest hm hs hr hw hb => exact htaken.transaction hb
  | peerAccepts hm =>
    refine hpop.of_core_eq ?_ ?_ ?_ (peerAccept_fits hpop.fits) <;> unfold peerAccept <;> split <;> rfl
  | peerPosts f hm =>
    refine hpop.of_core_eq ?_ ?_ ?_ (peerPost_fits f hpop.fits) <;> unfold peerPost <;> split <;> rfl
  | endpointAnswers b hm =>
    unfold endpointAnswer; split <;> exact hpop.of_core_eq rfl rfl rfl h.fits
  | responderResponds v hm =>
    unfold busRespond; split <;> exact hpop.of_core_eq rfl rfl rfl h.fits
  | coreResets hm => exact hpop.coreReset
  | peerResets hm => exact hpop.of_core_eq rfl rfl rfl ⟨Nat.zero_le _, Nat.zero_le _⟩

/-- Settles O42: whatever the step is, it keeps the invariant. -/
theorem everyStepKeepsTheInvariant : Obligations.EveryStepKeepsTheInvariant := by
  unfold Obligations.EveryStepKeepsTheInvariant
  intro s t h hstep
  exact (oneStep_of_step hstep).2.keepsInv h

end Sys2Proof.Machine

/-! SUPPORT. How the sequencer moves and what the core and HOST's words keep (10_state.md): the reset state (O1, O2), what a
step runs (O10, O15), which steps write the Endpoint Table and `booted` (O48, O49), the order of operations and phases (O52,
O53), the command port (O54), the flags (O37), and the effect of `booted` on an instruction (O51). -/

namespace Sys2Proof.Machine

/-! ### The order of the phases (R23, R25) -/

/-- The places of the sequencer that the event of a command may lead to from each place (R23): the phase after it, the
completion, or idle after the last event. -/
def Seq.successors : Seq → List Seq
  | .idle                    => []
  | .boot .b0                => [.boot .b1]
  | .boot .b1                => [.ending .boot]
  | .send .s0                => [.send .s1]
  | .send .s1                => [.send .s2]
  | .send .s2                => [.send .s3]
  | .send .s3                => [.send .s3, .ending .sendTimeout, .ending .sendDone]
  | .recv .v0                => [.recv .v1, .ending .recvNoMessage]
  | .recv .v1                => [.recv .v2]
  | .recv .v2                => [.recv .v3]
  | .recv .v3                => [.ending .recvFrame]
  | .dispatch .p0            => [.dispatch .p1, .dispatch .p2]
  | .dispatch .p1            => [.dispatch .p2, .idle]
  | .dispatch .p2            => [.ending .dispatchUnhandled]
  | .pumpOnce (.recv .v0)    => [.pumpOnce (.recv .v1), .ending .pumpOnceIdle]
  | .pumpOnce (.recv .v1)    => [.pumpOnce (.recv .v2)]
  | .pumpOnce (.recv .v2)    => [.pumpOnce (.recv .v3)]
  | .pumpOnce (.recv .v3)    => [.pumpOnce (.disp .p0)]
  | .pumpOnce (.disp .p0)    => [.pumpOnce (.disp .p1), .pumpOnce (.disp .p2)]
  | .pumpOnce (.disp .p1)    => [.pumpOnce (.disp .p2), .idle]
  | .pumpOnce (.disp .p2)    => [.ending .pumpOnceUnhandled]
  | .pumpForever (.recv .v0) =>
    [.pumpForever (.recv .v1), .pumpForever (.recv .v0), .ending .pumpForeverIdle]
  | .pumpForever (.recv .v1) => [.pumpForever (.recv .v2)]
  | .pumpForever (.recv .v2) => [.pumpForever (.recv .v3)]
  | .pumpForever (.recv .v3) => [.pumpForever (.disp .p0)]
  | .pumpForever (.disp .p0) => [.pumpForever (.disp .p1), .pumpForever (.disp .p2)]
  | .pumpForever (.disp .p1) => [.pumpForever (.disp .p2), .pumpForever (.recv .v0)]
  | .pumpForever (.disp .p2) => [.ending .pumpForeverUnhandled]
  | .addEp _ _               => [.idle]
  | .ending _                => [.idle]

theorem lookupEndpoint_seq (onHit onMiss : Seq) (s : State) :
    (lookupEndpoint onHit onMiss s).core.seq = onHit ∨ (lookupEndpoint onHit onMiss s).core.seq = onMiss := by
  unfold lookupEndpoint
  split
  · exact .inl rfl
  · exact .inr rfl

/-- `P1` waits with nothing changed, or goes where the answer leads. -/
theorem takeAnswer_cases (whenHandled : State → State) (onRefused : Seq) (s : State) :
    (s.ports.epAnswer = none ∧ takeAnswer whenHandled onRefused s = s) ∨
      takeAnswer whenHandled onRefused s = whenHandled (latchAnswer true s) ∨
      takeAnswer whenHandled onRefused s = (latchAnswer false s).goto onRefused := by
  unfold takeAnswer
  split
  · exact .inl ⟨‹_›, rfl⟩
  · exact .inr (.inl rfl)
  · exact .inr (.inr rfl)

/-- An event of the command in progress leads to a successor of its phase, but for the wait in `P1`. -/
theorem CommandEvent.seq_mem_successors {s t : State} (h : CommandEvent s t) :
    t.core.seq ∈ s.core.seq.successors ∨
      (s.core.seq.awaitsAnswer = true ∧ s.ports.epAnswer = none ∧ t = s) := by
  cases h with
  | b0 u hs hw => left; rw [hs]; exact .head _
  | b1 u hs hw => left; rw [hs]; exact .head _
  | s0 hs => left; rw [hs]; exact .head _
  | s1 u hs hw => left; rw [hs]; exact .head _
  | s2 u hs hw => left; rw [hs]; exact .head _
  | s3 v u hs hr =>
    have hu : u.core.seq = .send .s3 := by rw [(busRead32_frame hr).2.1, hs]
    left
    rw [hs]
    split
    · split <;> simp [Seq.successors, hu]
    · simp [Seq.successors]
  | v0 b u q whenEmpty hs hr =>
    left
    rw [State.goto_core_seq]
    rcases hs with ⟨hs, rfl, rfl⟩ | ⟨hs, rfl, rfl⟩ | ⟨hs, rfl, rfl⟩ <;> rw [hs]
    · split <;> simp [Seq.successors]
    · split <;> simp [Seq.successors]
    · unfold pumpIdle
      split
      · split <;> simp [Seq.successors]
      · simp [Seq.successors]
  | v1 u q hs hr =>
    obtain ⟨v, -, hc, -⟩ := loadRxData_frame hr
    left
    rw [hc]
    rcases hs with ⟨hs, rfl⟩ | ⟨hs, rfl⟩ | ⟨hs, rfl⟩ <;> rw [hs] <;> exact .head _
  | v2 u q hs hr =>
    obtain ⟨v, -, hc, -⟩ := loadRxHeader_frame hr
    left
    rw [hc]
    rcases hs with ⟨hs, rfl⟩ | ⟨hs, rfl⟩ | ⟨hs, rfl⟩ <;> rw [hs] <;> exact .head _
  | v3 q hs =>
    left
    rcases hs with ⟨hs, rfl⟩ | ⟨hs, rfl⟩ | ⟨hs, rfl⟩ <;> rw [hs] <;> exact .head _
  | p0 onHit onMiss hs =>
    left
    rcases hs with ⟨hs, rfl, rfl⟩ | ⟨hs, rfl, rfl⟩ | ⟨hs, rfl, rfl⟩ <;> rw [hs] <;>
      simpa [Seq.successors] using lookupEndpoint_seq _ _ s
  | p1 onRefused whenHandled hs =>
    rcases takeAnswer_cases whenHandled onRefused s with ⟨hn, hw⟩ | ht | ht
    · right
      refine ⟨?_, hn, hw⟩
      rcases hs with ⟨hs, -⟩ | ⟨hs, -⟩ | ⟨hs, -⟩ <;> rw [hs] <;> rfl
    all_goals
      left
      rw [ht]
      rcases hs with ⟨hs, rfl, rfl⟩ | ⟨hs, rfl, rfl⟩ | ⟨hs, rfl, rfl⟩ <;> rw [hs] <;>
        simp [Seq.successors, nextRound]
  | p2 e hs =>
    left
    rcases hs with ⟨hs, rfl⟩ | ⟨hs, rfl⟩ | ⟨hs, rfl⟩ <;> rw [hs] <;> exact .head _
  | a0 i h hs => left; rw [hs]; exact .head _
  | bootDone hs => left; rw [hs]; exact .head _
  | done e hs hb hr => left; rw [hs]; exact .head _

/-- A successor belongs to the same operation, unless it is idle. -/
theorem Seq.op_of_mem_successors {q q' : Seq} (h : q' ∈ q.successors) : q' = .idle ∨ q'.op = q.op := by
  unfold successors at h
  split at h <;> simp only [List.mem_cons, List.not_mem_nil, or_false] at h
  all_goals rcases h with rfl | rfl | rfl <;> simp [Seq.op, Ending.op]

/-- A successor lies later in the order of R23, unless it is idle, the poll of SEND again or the start of another round of
PUMP_FOREVER. -/
theorem Seq.rank_of_mem_successors {q q' : Seq} (h : q' ∈ q.successors) :
    q' = .idle ∨ q.rank < q'.rank ∨ (q = .send .s3 ∧ q' = .send .s3) ∨ q' = .pumpForever (.recv .v0) := by
  unfold successors at h
  split at h <;> simp only [List.mem_cons, List.not_mem_nil, or_false] at h
  all_goals rcases h with rfl | rfl | rfl <;> simp [Seq.rank, RecvPhase.rank, PumpPhase.rank, DispPhase.rank]

/-- A successor other than idle has the source's state of the phase before it (R22). -/
theorem CoreState.sourceState_of_mem_successors {c c' : CoreState} (h : c'.seq ∈ c.seq.successors) :
    c'.seq = .idle ∨ c'.sourceState = c.sourceState := by
  unfold CoreState.sourceState
  generalize c.seq = q, c'.seq = q' at *
  unfold Seq.successors at h
  split at h <;> simp only [List.mem_cons, List.not_mem_nil, or_false] at h
  all_goals rcases h with rfl | rfl | rfl <;> simp [Ending.sourceState]

/-- Settles O53: the successors of a phase are later ones, but for the moves R25 names. -/
theorem phasesOnlyMoveForward : Obligations.PhasesOnlyMoveForward := by
  unfold Obligations.PhasesOnlyMoveForward
  intro s t i hi h
  rcases (commandEvent_of_exec hi h).seq_mem_successors with hq | ⟨hp, hn, rfl⟩
  · rcases Seq.op_of_mem_successors hq with hidle | hop
    · exact .inl hidle
    rcases Seq.rank_of_mem_successors hq with hidle | hlater | hpoll | hloop
    · exact .inl hidle
    · exact .inr ⟨hop, .inl hlater⟩
    · exact .inr ⟨hop, .inr (.inl hpoll)⟩
    · exact .inr ⟨hop, .inr (.inr (.inl hloop))⟩
  · exact .inr ⟨rfl, .inr (.inr (.inr ⟨hp, hn, rfl⟩))⟩

/-! ### What a step does to the core and to HOST's words -/

/-- What an event of the command in progress keeps: it takes no word, writes the Endpoint Table in `A0` alone (R28) and
sets `booted` with the completion of BOOT alone (R172). -/
structure EventFrame (s t : State) : Prop where
  requests : t.ports.requests = s.ports.requests
  ept      : t.core.ept = s.core.ept ∨ ∃ i h, s.core.seq = .addEp i h
  booted   : t.core.booted = s.core.booted ∨ (t.core.booted = true ∧ s.core.seq = .ending .boot)

/-- Where all three are as before. -/
theorem EventFrame.of_eq {s t : State} (hr : t.ports.requests = s.ports.requests)
    (he : t.core.ept = s.core.ept) (hb : t.core.booted = s.core.booted) : EventFrame s t :=
  ⟨hr, .inl he, .inl hb⟩

theorem busWrite32_eventFrame {a : Nat} {v : Word32} {s t : State} (h : busWrite32 a v s = .next t) (q : Seq) :
    EventFrame s (t.goto q) := by
  obtain ⟨-, hc, hp, -⟩ := busWrite32_frame h
  exact .of_eq (congrArg Ports.requests hp :) (congrArg CoreState.ept hc :) (congrArg CoreState.booted hc :)

theorem busWrite64_eventFrame {a : Nat} {v : Word64} {s t : State} (h : busWrite64 a v s = .next t) (q : Seq) :
    EventFrame s (t.goto q) := by
  obtain ⟨-, hc, hp, -⟩ := busWrite64_frame h
  exact .of_eq (congrArg Ports.requests hp :) (congrArg CoreState.ept hc :) (congrArg CoreState.booted hc :)

theorem CommandEvent.frame {s t : State} (h : CommandEvent s t) : EventFrame s t := by
  cases h with
  | b0 u hs hw => exact busWrite32_eventFrame hw _
  | b1 u hs hw => exact busWrite32_eventFrame hw _
  | s0 hs => exact .of_eq rfl rfl rfl
  | s1 u hs hw => exact busWrite64_eventFrame hw _
  | s2 u hs hw => exact busWrite64_eventFrame hw _
  | s3 v u hs hr =>
    obtain ⟨-, hc, -, hreq, -⟩ := busRead32_frame hr
    split
    · split <;> exact .of_eq hreq (by simp [hc]) (by simp [hc])
    · exact .of_eq hreq (by simp [hc]) (by simp [hc])
  | v0 b u q whenEmpty hs hr =>
    obtain ⟨-, hc, -, hreq, -⟩ := readOutboxEmpty_frame hr
    exact .of_eq hreq (by simp [hc]) (by simp [hc])
  | v1 u q hs hr =>
    obtain ⟨v, -, hc, -, hreq, -⟩ := loadRxData_frame hr
    exact .of_eq hreq (by rw [hc]) (by rw [hc])
  | v2 u q hs hr =>
    obtain ⟨v, -, hc, -, hreq, -⟩ := loadRxHeader_frame hr
    exact .of_eq hreq (by rw [hc]) (by rw [hc])
  | v3 q hs => exact .of_eq rfl rfl rfl
  | p0 onHit onMiss hs => unfold lookupEndpoint; split <;> exact .of_eq rfl rfl rfl
  | p1 onRefused whenHandled hs =>
    rcases takeAnswer_cases whenHandled onRefused s with ⟨-, ht⟩ | ht | ht <;> rw [ht]
    · exact .of_eq rfl rfl rfl
    · rcases hs with ⟨-, -, rfl⟩ | ⟨-, -, rfl⟩ | ⟨-, -, rfl⟩ <;> exact .of_eq rfl rfl rfl
    · exact .of_eq rfl rfl rfl
  | p2 e hs => exact .of_eq rfl rfl rfl
  | a0 i h hs => exact ⟨rfl, .inr ⟨i, h, hs⟩, .inl rfl⟩
  | bootDone hs => exact ⟨rfl, .inl rfl, .inr ⟨rfl, hs⟩⟩
  | done e hs hb hr => exact .of_eq rfl rfl rfl

/-- What a step does to the sequencer, the Endpoint Table, `booted` and HOST's words: `OneStep` with its cases grouped by
that. -/
inductive CoreStep (s t : State) : Prop
  | event (hm : nextMove s = .core) (he : CommandEvent s.popMove t)
  | reset (hm : nextMove s = .coreReset) (ht : t = coreReset s.popMove)
  | takesWord (hs : s.core.seq = .idle) (hr : t.ports.requests = s.ports.requests.tail)
      (he : t.core.ept = s.core.ept) (hb : t.core.booted = s.core.booted)
  | completesReserved (hr : t.ports.requests = s.ports.requests) (hq : t.core.seq = .idle)
      (he : t.core.ept = s.core.ept) (hb : t.core.booted = s.core.booted)
  | leavesCore (hr : t.ports.requests = s.ports.requests) (hc : t.core = s.core)

/-- A transaction of HOST's own leaves the core and the words behind it. -/
theorem transaction_frame {s t : State}
    (hb : (∃ a v, busRead32 a s = .next (v, t)) ∨ (∃ a v, busRead64 a s = .next (v, t)) ∨
      (∃ a v, busWrite32 a v s = .next t) ∨ (∃ a v, busWrite64 a v s = .next t)) :
    t.core = s.core ∧ t.ports.requests = s.ports.requests := by
  rcases hb with ⟨a, v, hb⟩ | ⟨a, v, hb⟩ | ⟨a, v, hb⟩ | ⟨a, v, hb⟩
  · obtain ⟨-, hc, -, hr, -⟩ := busRead32_frame hb
    exact ⟨hc, hr⟩
  · obtain ⟨-, hc, hr, -⟩ := busRead64_frame hb
    exact ⟨hc, hr⟩
  · obtain ⟨-, hc, hp, -⟩ := busWrite32_frame hb
    exact ⟨hc, (congrArg Ports.requests hp :)⟩
  · obtain ⟨-, hc, hp, -⟩ := busWrite64_frame hb
    exact ⟨hc, (congrArg Ports.requests hp :)⟩

theorem OneStep.coreStep {s t : State} (h : OneStep s t) : CoreStep s t := by
  cases h with
  | event _ hm he => exact .event hm he
  | reservedDone op hm hs => exact .completesReserved rfl rfl rfl rfl
  | nothing hm hs hr => exact .leavesCore rfl rfl
  | reserved op r rest hm hs hr hw hd => exact .takesWord hs rfl rfl rfl
  | acceptance i q r rest hm hs hr hw hd hq => exact .takesWord hs rfl rfl rfl
  | acceptanceOfSend d h r rest hm hs hr hw hd => exact .takesWord hs rfl rfl rfl
  | acceptanceOfDispatch d h r rest hm hs hr hw hd => exact .takesWord hs rfl rfl rfl
  | transaction _ w rest hm hs hr hw hb =>
    obtain ⟨hc, hreq⟩ := transaction_frame hb
    exact .takesWord hs hreq (congrArg CoreState.ept hc) (congrArg CoreState.booted hc)
  | peerAccepts hm => unfold peerAccept; split <;> exact .leavesCore rfl rfl
  | peerPosts f hm => unfold peerPost; split <;> exact .leavesCore rfl rfl
  | endpointAnswers b hm => unfold endpointAnswer; split <;> exact .leavesCore rfl rfl
  | responderResponds v hm => unfold busRespond; split <;> exact .leavesCore rfl rfl
  | coreResets hm => exact .reset hm rfl
  | peerResets hm => exact .leavesCore rfl rfl

theorem coreStep_of_step {s t : State} (h : step s = .next t) : CoreStep s t := (oneStep_of_step h).2.coreStep

/-- Settles O48: of what a step can do, only `A0` and the core's reset touch the table. -/
theorem onlyAddEpWritesTheTable : Obligations.OnlyAddEpWritesTheTable := by
  unfold Obligations.OnlyAddEpWritesTheTable
  intro s t h hne
  cases coreStep_of_step h with
  | event hm he => exact .inr ⟨hm, he.frame.ept.resolve_left hne⟩
  | reset hm ht => exact .inl hm
  | takesWord hs hr he hb => exact absurd he hne
  | completesReserved hr hq he hb => exact absurd he hne
  | leavesCore hr hc => exact absurd (congrArg CoreState.ept hc) hne

/-- Settles O49: of what a step can do, only BOOT's completion and the core's reset touch `booted`. -/
theorem bootedFollowsBootAndReset : Obligations.BootedFollowsBootAndReset := by
  unfold Obligations.BootedFollowsBootAndReset
  intro s t h hne
  cases coreStep_of_step h with
  | event hm he =>
    obtain ⟨hset, hs⟩ := he.frame.booted.resolve_left hne
    exact .inl ⟨hset, hm, hs⟩
  | reset hm ht => exact .inr ⟨congrArg (fun u => u.core.booted) ht, hm⟩
  | takesWord hs hr he hb => exact absurd hb hne
  | completesReserved hr hq he hb => exact absurd hb hne
  | leavesCore hr hc => exact absurd (congrArg CoreState.booted hc) hne

/-- Settles O52: an event of a command leads to a successor of its phase, and every other step that moves the sequencer
starts or ends at idle. -/
theorem operationChangesThroughIdle : Obligations.OperationChangesThroughIdle := by
  unfold Obligations.OperationChangesThroughIdle
  intro s t h
  cases coreStep_of_step h with
  | event hm he =>
    rcases he.seq_mem_successors with hq | ⟨-, -, rfl⟩
    · refine ⟨?_, fun hne => ?_⟩
      · rcases Seq.op_of_mem_successors hq with hidle | hop
        · exact .inr (.inr hidle)
        · exact .inl hop
      · exact .inr ((CoreState.sourceState_of_mem_successors hq).resolve_right hne)
    · exact ⟨.inl rfl, fun hne => absurd rfl hne⟩
  | reset hm ht =>
    have hidle : t.core.seq = .idle := by rw [ht]; rfl
    exact ⟨.inr (.inr hidle), fun _ => .inr hidle⟩
  | takesWord hs hr he hb => exact ⟨.inr (.inl hs), fun _ => .inl hs⟩
  | completesReserved hr hq he hb => exact ⟨.inr (.inr hq), fun _ => .inr hq⟩
  | leavesCore hr hc => rw [hc]; exact ⟨.inl rfl, fun hne => absurd rfl hne⟩

/-- Settles O54: a word is taken by an idle core alone. -/
theorem commandPortIsClosedWhileBusy : Obligations.CommandPortIsClosedWhileBusy := by
  unfold Obligations.CommandPortIsClosedWhileBusy
  intro s t h
  have hkept : s.core.seq = .idle ∧ t.ports.requests = s.ports.requests.tail ∨
      t.ports.requests = s.ports.requests := by
    cases coreStep_of_step h with
    | event hm he => exact .inr he.frame.requests
    | reset hm ht => exact .inr (congrArg (fun u => u.ports.requests) ht)
    | takesWord hs hr he hb => exact .inl ⟨hs, hr⟩
    | completesReserved hr hq he hb => exact .inr hr
    | leavesCore hr hc => exact .inr hr
  rcases hkept with ⟨hs, htail⟩ | hsame
  · exact ⟨fun hbusy => absurd hs hbusy, .inr htail⟩
  · exact ⟨fun _ => hsame, .inl hsame⟩

/-! ### The reset state -/

/-- Settles O1: the values are those of the definition of reset (R43, R44). -/
theorem resetStateHoldsTheValuesGiven : Obligations.ResetStateHoldsTheValuesGiven := by
  unfold Obligations.ResetStateHoldsTheValuesGiven
  exact ⟨rfl, rfl, eptLookup_nil, rfl, rfl, rfl, rfl, rfl, rfl, rfl, rfl, rfl, rfl, rfl⟩

theorem inv_reset : State.reset.Inv where
  params   := by decide
  inbox    := Nat.zero_le _
  outbox   := Nat.zero_le _
  sorted   := rfl
  handles  := rfl
  pending  := rfl
  awaiting := nofun
  polls    := rfl
  ending   := rfl

/-- Settles O2: idle, with empty queues, no word offered and the default parameters, which are legal. -/
theorem resetStateMeetsTheInvariants : Obligations.ResetStateMeetsTheInvariants := by
  unfold Obligations.ResetStateMeetsTheInvariants
  exact ⟨inv_reset, ⟨rfl, nofun, nofun⟩, ⟨rfl, rfl, fun _ => Nat.zero_lt_one⟩, nofun, ⟨rfl, rfl⟩⟩

/-! ### What a step runs -/

/-- When the core is next to move, a step is its move. -/
theorem step_eq_coreMove {s : State} (hw : s.params.wf = true) (hm : nextMove s = .core) :
    step s = coreMove s.popMove := by
  rw [step_of_wf hw, hm]; rfl

/-- Settles O10, case by case of the core's move. -/
theorem stepRunsTheDecodedInstruction : Obligations.StepRunsTheDecodedInstruction := by
  unfold Obligations.StepRunsTheDecodedInstruction
  intro s hw hm
  rw [step_eq_coreMove hw hm]
  refine ⟨fun i hi => ?running, fun w rest i hs hr hf hd => ?taken, fun w rest e hs hr hf => ?refused,
    fun hs hr => ?nothing⟩
  case running => exact coreMove_busy (s := s.popMove) hi
  case taken => exact coreMove_takes (s := s.popMove) hs hr hf hd
  case refused => exact coreMove_refuses (s := s.popMove) hs hr hf
  case nothing => exact coreMove_nothing (s := s.popMove) hs hr

/-- The sequencer's operation is that of the command in progress. -/
theorem CoreState.op_of_current {c : CoreState} {j : Instr} (h : c.current = some j) : c.seq.op = commandOp j := by
  unfold CoreState.current at h
  split at h
  case h_1 => cases h
  case h_9 e hs =>
    rw [hs]
    cases e <;> cases h <;> rfl
  all_goals rename_i hs; rw [hs]; cases h; rfl

/-- A command of another operation than the sequencer's has no event: its port is not ready (R21). -/
theorem exec_of_op_ne {s : State} {i : Instr} {a b : BitVec 4} (hi : commandOp i = some a)
    (hs : s.core.seq.op = some b) (hne : a ≠ b) : exec i s = .next s := by
  cases i <;> cases hi
  all_goals
    simp only [exec, execBoot, execSend, execRecv, execDispatch, execPumpOnce, execPumpForever, execAddEp]
    split
  any_goals rfl
  -- What is left is each command's own phases, and idle.
  all_goals simp_all [Seq.op, Ending.op]

/-- Settles O15: the port is closed to every operation but the one in progress. -/
theorem commandOfferedWhileAnotherRunsWaits : Obligations.CommandOfferedWhileAnotherRunsWaits := by
  unfold Obligations.CommandOfferedWhileAnotherRunsWaits
  intro s i j a b hj hi hb hne
  exact exec_of_op_ne hi ((CoreState.op_of_current hj).trans hb) hne

/-! ### The effect of `booted` (R22) -/

/-- The state with `booted` as given. -/
def State.withBooted (b : Bool) (s : State) : State := { s with core.booted := b }

@[simp] theorem withBooted_params (b : Bool) (s : State) : (s.withBooted b).params = s.params := rfl
@[simp] theorem withBooted_seq (b : Bool) (s : State) : (s.withBooted b).core.seq = s.core.seq := rfl
@[simp] theorem withBooted_txData (b : Bool) (s : State) : (s.withBooted b).core.txData = s.core.txData := rfl
@[simp] theorem withBooted_txHeader (b : Bool) (s : State) : (s.withBooted b).core.txHeader = s.core.txHeader := rfl

/-- An answer with `g` applied to what it answers. -/
def mapNext {α β : Type} (g : α → β) (x : Host.Outcome α Fault Refusal) : Host.Outcome β Fault Refusal :=
  andThen x (fun a => .next (g a))

@[simp] theorem mapNext_next {α β : Type} (g : α → β) (a : α) : mapNext g (.next a) = .next (g a) := rfl

/-- What follows a mapped answer goes on from the mapped value. -/
theorem andThen_mapNext {α β γ : Type} (g : α → β) (x : Host.Outcome α Fault Refusal)
    (f : β → Host.Outcome γ Fault Refusal) : andThen (mapNext g x) f = andThen x (fun a => f (g a)) := by
  cases x <;> rfl

/-- A composite is mapped in its last part. -/
theorem mapNext_andThen {α β γ : Type} (g : β → γ) (x : Host.Outcome α Fault Refusal)
    (f : α → Host.Outcome β Fault Refusal) : mapNext g (andThen x f) = andThen x (fun a => mapNext g (f a)) := by
  cases x <;> rfl

/-! Each transaction, then each shared part of the commands, with `booted` changed before it and after it. -/

theorem busRead32_withBooted (b : Bool) (a : Nat) (s : State) :
    busRead32 a (s.withBooted b) = mapNext (Prod.map id (State.withBooted b)) (busRead32 a s) := by
  unfold busRead32
  rw [withBooted_params]
  cases resolve s.params a 4 with
  | error r => rfl
  | ok r => cases s.params.openForm <;> cases r <;> rfl

theorem busRead64_withBooted (b : Bool) (a : Nat) (s : State) :
    busRead64 a (s.withBooted b) = mapNext (Prod.map id (State.withBooted b)) (busRead64 a s) := by
  unfold busRead64
  rw [withBooted_params]
  cases resolve s.params a 8 with
  | error r => rfl
  | ok r => cases s.params.openForm <;> cases r <;> rfl

theorem busWrite32_withBooted (b : Bool) (a : Nat) (v : Word32) (s : State) :
    busWrite32 a v (s.withBooted b) = mapNext (State.withBooted b) (busWrite32 a v s) := by
  unfold busWrite32
  rw [withBooted_params]
  cases resolve s.params a 4 with
  | error r => rfl
  | ok r => cases r <;> rfl

theorem busWrite64_withBooted (b : Bool) (a : Nat) (v : Word64) (s : State) :
    busWrite64 a v (s.withBooted b) = mapNext (State.withBooted b) (busWrite64 a v s) := by
  have hpeer : (s.withBooted b).peer = s.peer := rfl
  unfold busWrite64
  rw [withBooted_params, hpeer]
  cases resolve s.params a 8 with
  | error r => rfl
  | ok r =>
    cases r
    case inbox0 => cases s.params.openForm <;> rfl
    case inbox1 =>
      cases s.params.openForm
      · by_cases hroom : s.peer.inQ.length < s.params.inboxDepth
        · simp only [hroom]; rfl
        · simp only [hroom]; rfl
      · rfl
    all_goals rfl

theorem readOutboxEmpty_withBooted (b : Bool) (s : State) :
    readOutboxEmpty (s.withBooted b) = mapNext (Prod.map id (State.withBooted b)) (readOutboxEmpty s) := by
  simp only [readOutboxEmpty, withBooted_params, busRead32_withBooted, andThen_mapNext, mapNext_andThen]
  rfl

theorem loadRxData_withBooted (b : Bool) (q : Seq) (s : State) :
    loadRxData q (s.withBooted b) = mapNext (State.withBooted b) (loadRxData q s) := by
  simp only [loadRxData, withBooted_params, busRead64_withBooted, andThen_mapNext, mapNext_andThen]
  rfl

theorem loadRxHeader_withBooted (b : Bool) (q : Seq) (s : State) :
    loadRxHeader q (s.withBooted b) = mapNext (State.withBooted b) (loadRxHeader q s) := by
  simp only [loadRxHeader, withBooted_params, busRead64_withBooted, andThen_mapNext, mapNext_andThen]
  rfl

theorem lookupEndpoint_withBooted (b : Bool) (onHit onMiss : Seq) (s : State) :
    lookupEndpoint onHit onMiss (s.withBooted b) = (lookupEndpoint onHit onMiss s).withBooted b := by
  have hept : (s.withBooted b).core.ept = s.core.ept := rfl
  have hheader : (s.withBooted b).core.rxHeader = s.core.rxHeader := rfl
  unfold lookupEndpoint
  rw [hept, hheader]
  cases eptLookup s.core.ept (epOf s.core.rxHeader) <;> rfl

theorem takeAnswer_withBooted (b : Bool) {whenHandled : State → State} (onRefused : Seq) (s : State)
    (h : ∀ t, whenHandled (t.withBooted b) = (whenHandled t).withBooted b) :
    takeAnswer whenHandled onRefused (s.withBooted b) = (takeAnswer whenHandled onRefused s).withBooted b := by
  have hanswer : (s.withBooted b).ports.epAnswer = s.ports.epAnswer := rfl
  unfold takeAnswer
  rw [hanswer]
  cases s.ports.epAnswer with
  | none => rfl
  | some handled =>
    cases handled
    · rfl
    · exact h (latchAnswer true s)

theorem pollInbox_withBooted (b : Bool) (s : State) :
    pollInbox (s.withBooted b) = mapNext (State.withBooted b) (pollInbox s) := by
  simp only [pollInbox, withBooted_params, busRead32_withBooted, andThen_mapNext, mapNext_andThen]
  simp only [mapNext_next, apply_ite (State.withBooted b)]
  rfl

/-- No event of an instruction depends on `booted`, and none changes it but BOOT's completion. -/
theorem exec_withBooted (b : Bool) (i : Instr) (s : State) (h : i = .boot → s.core.seq ≠ .ending .boot) :
    exec i (s.withBooted b) = mapNext (State.withBooted b) (exec i s) := by
  cases i with
  | boot =>
    simp only [exec, execBoot, withBooted_seq, withBooted_params, busWrite32_withBooted, andThen_mapNext]
    split
    case h_4 hs => exact absurd hs (h rfl)
    all_goals simp only [mapNext_andThen, mapNext_next]
    all_goals rfl
  | send d g =>
    simp only [exec, execSend, withBooted_seq, withBooted_params, withBooted_txData, withBooted_txHeader,
      busWrite64_withBooted, pollInbox_withBooted, andThen_mapNext]
    split
    all_goals simp only [mapNext_andThen, mapNext_next]
    all_goals rfl
  | recv =>
    simp only [exec, execRecv, withBooted_seq, readOutboxEmpty_withBooted, loadRxData_withBooted,
      loadRxHeader_withBooted, andThen_mapNext]
    split
    all_goals simp only [mapNext_andThen, mapNext_next]
    all_goals rfl
  | dispatch d g =>
    simp only [exec, execDispatch, withBooted_seq, lookupEndpoint_withBooted]
    split
    case h_3 => exact congrArg Host.Outcome.next (takeAnswer_withBooted b _ s fun _ => rfl)
    all_goals rfl
  | pumpOnce =>
    simp only [exec, execPumpOnce, withBooted_seq, readOutboxEmpty_withBooted, loadRxData_withBooted,
      loadRxHeader_withBooted, lookupEndpoint_withBooted, andThen_mapNext]
    split
    case h_7 => exact congrArg Host.Outcome.next (takeAnswer_withBooted b _ s fun _ => rfl)
    all_goals simp only [mapNext_andThen, mapNext_next]
    all_goals rfl
  | pumpForever =>
    simp only [exec, execPumpForever, withBooted_seq, readOutboxEmpty_withBooted, loadRxData_withBooted,
      loadRxHeader_withBooted, lookupEndpoint_withBooted, andThen_mapNext]
    split
    case h_7 => exact congrArg Host.Outcome.next (takeAnswer_withBooted b _ s fun _ => rfl)
    all_goals simp only [mapNext_andThen, mapNext_next]
    all_goals rfl
  | addEp id g =>
    simp only [exec, execAddEp, withBooted_seq]
    split <;> rfl
  | read32 a => simp only [exec, execRead32, busRead32_withBooted, andThen_mapNext, mapNext_andThen]; rfl
  | read64 a => simp only [exec, execRead64, busRead64_withBooted, andThen_mapNext, mapNext_andThen]; rfl
  | write32 a v => exact busWrite32_withBooted b a v s
  | write64 a v => exact busWrite64_withBooted b a v s

/-- Settles O51: the effect of an instruction is the same but for BOOT's completion, which sets `booted` whatever it was. -/
theorem coreNeverTestsBooted : Obligations.CoreNeverTestsBooted := by
  unfold Obligations.CoreNeverTestsBooted
  intro i s t b h
  by_cases hboot : i = .boot ∧ s.core.seq = .ending .boot
  · obtain ⟨rfl, hs⟩ := hboot
    refine ⟨t.core.booted, ?_, .inr ⟨rfl, hs⟩⟩
    simpa [exec, execBoot, hs] using h
  · refine ⟨b, ?_, .inl rfl⟩
    have hmap := exec_withBooted b i s fun hi hs => hboot ⟨hi, hs⟩
    rw [h] at hmap
    exact hmap

/-! ### The flags -/

/-- A queue at a depth of at least 1 is not empty. -/
theorem not_full_and_empty {depth : Nat} (hd : 1 ≤ depth) (n : Nat) :
    ¬ (decide (n = depth) = true ∧ decide (n = 0) = true) := by
  simp only [decide_eq_true_eq]
  omega

/-- Settles O37: both depths are at least 1 (R7). -/
theorem fullAndEmptyAreExclusive : Obligations.FullAndEmptyAreExclusive := by
  unfold Obligations.FullAndEmptyAreExclusive
  intro s hw
  obtain ⟨-, -, -, -, -, hin, hout, -⟩ := (wf_iff s.params).mp hw
  exact ⟨not_full_and_empty hin _, not_full_and_empty hout _⟩

end Sys2Proof.Machine

/-! SUPPORT. The register map and the two queues (20_memory.md): where no register answers (O36), what a step does to the
frame at the head of the outbox (O43) and to the inbox (O44, O46), and that no run under the premises of R89 stops (O45). -/

namespace Sys2Proof.Machine

/-! ### Where no register lies (R73, R76, R77) -/

/-- An access elsewhere than at a register, at its width, names none. -/
theorem resolve_error {p : Params} {a w : Nat} (h : ¬ ∃ r, regWidth r = w ∧ a = regAddr p r) :
    ∃ e, resolve p a w = .error e := by
  cases hr : resolve p a w with
  | error e => exact ⟨e, rfl⟩
  | ok r =>
    obtain ⟨haddr, hwidth⟩ := resolve_ok hr
    exact absurd ⟨r, hwidth, haddr.symm⟩ h

theorem busRead32_refused {s : State} {a : Nat} {e : Refusal} (h : resolve s.params a 4 = .error e) :
    busRead32 a s = .refused e := by
  rw [busRead32, h]

theorem busRead64_refused {s : State} {a : Nat} {e : Refusal} (h : resolve s.params a 8 = .error e) :
    busRead64 a s = .refused e := by
  rw [busRead64, h]

theorem busWrite32_refused {s : State} {a : Nat} {e : Refusal} (h : resolve s.params a 4 = .error e) (v : Word32) :
    busWrite32 a v s = .refused e := by
  rw [busWrite32, h]

theorem busWrite64_refused {s : State} {a : Nat} {e : Refusal} (h : resolve s.params a 8 = .error e) (v : Word64) :
    busWrite64 a v s = .refused e := by
  rw [busWrite64, h]

/-- Settles O36: the address names no register, and each primitive refuses what names none. -/
theorem onlyTheSevenRegistersAnswer : Obligations.OnlyTheSevenRegistersAnswer := by
  unfold Obligations.OnlyTheSevenRegistersAnswer
  intro s a
  refine ⟨fun hno => ?_, fun hno => ?_⟩
  · obtain ⟨e, he⟩ := resolve_error hno
    exact ⟨⟨e, by simp only [exec, execRead32, busRead32_refused he, andThen_refused]⟩,
      fun v => ⟨e, busWrite32_refused he v⟩⟩
  · obtain ⟨e, he⟩ := resolve_error hno
    exact ⟨⟨e, by simp only [exec, execRead64, busRead64_refused he, andThen_refused]⟩,
      fun v => ⟨e, busWrite64_refused he v⟩⟩

/-! ### The frame at the head of the outbox (R88) -/

theorem Seq.holdsHead_of_holdsData {q : Seq} (h : q.holdsData = true) : q.holdsHead = true := by
  unfold holdsData at h
  split at h
  · rfl
  · rfl
  · rfl
  · cases h

/-- Outside `V1` and `V2` the invariant asks nothing of the outbox. -/
theorem State.OutboxCoherent.of_noHead {s : State} (hclosed : s.params.openForm = false)
    (hq : s.core.seq.holdsHead = false) : s.OutboxCoherent where
  closed   := hclosed
  nonempty := fun h => absurd (hq.symm.trans h) nofun
  data     := fun h => absurd (hq.symm.trans (Seq.holdsHead_of_holdsData h)) nofun

/-- Frames posted behind the head do not matter to a core that stands still. -/
theorem State.OutboxCoherent.of_posted {s t : State} (h : s.OutboxCoherent) (hp : t.params = s.params)
    (hc : t.core = s.core) {posted : List Frame} (hout : t.peer.outQ = s.peer.outQ ++ posted) : t.OutboxCoherent where
  closed   := hp ▸ h.closed
  nonempty := fun hq => by
    rw [hout]
    exact List.append_ne_nil_of_left_ne_nil (h.nonempty (hc ▸ hq)) posted
  data     := fun hq => by
    obtain ⟨f, rest, hhead, hdata⟩ := h.data (hc ▸ hq)
    exact ⟨f, rest ++ posted, by rw [hout, hhead, List.cons_append], hc ▸ hdata⟩

/-- `V0` goes to `V1` only where the outbox holds a frame; `V1` takes the data word of its head; every other event leads
outside the two phases. -/
theorem CommandEvent.keepsOutboxCoherent {s t : State} (he : CommandEvent s t) (hw : s.params.wf = true)
    (h : s.OutboxCoherent) : t.OutboxCoherent := by
  have hclosed : t.params.openForm = false := he.appendsOne.1 ▸ h.closed
  cases he with
  | v0 b u q whenEmpty hs hr =>
    obtain ⟨-, -, hpeer, -, -, -, -, -, hb⟩ := readOutboxEmpty_frame hr
    cases b with
    | true =>
      have hq : whenEmpty.holdsHead = false := by
        rcases hs with ⟨-, -, rfl⟩ | ⟨-, -, rfl⟩ | ⟨-, -, rfl⟩
        · rfl
        · rfl
        · unfold pumpIdle; split <;> rfl
      exact .of_noHead hclosed hq
    | false =>
      have hq : q.holdsData = false := by
        rcases hs with ⟨-, rfl, -⟩ | ⟨-, rfl, -⟩ | ⟨-, rfl, -⟩ <;> rfl
      have hne : s.peer.outQ ≠ [] := by
        simpa [outboxEmpty] using (hb hw h.closed).symm
      exact ⟨hclosed, fun _ => by simpa [hpeer] using hne, fun hd => absurd (hq.symm.trans hd) nofun⟩
  | v1 u q hs hr =>
    obtain ⟨v, -, hc, hpeer, -, -, -, -, -, hv⟩ := loadRxData_frame hr
    have hhead : s.core.seq.holdsHead = true := by
      rcases hs with ⟨hs, -⟩ | ⟨hs, -⟩ | ⟨hs, -⟩ <;> rw [hs] <;> rfl
    obtain ⟨f, rest, hout⟩ := List.exists_cons_of_ne_nil (h.nonempty hhead)
    have hdata : t.core.rxData = f.data := by rw [hc, hv hw h.closed, outboxHead_cons hout]
    have hout' : t.peer.outQ = f :: rest := by rw [hpeer, hout]
    exact ⟨hclosed, fun _ => by simp [hout'], fun _ => ⟨f, rest, hout', hdata⟩⟩
  | v2 u q hs hr =>
    obtain ⟨v, -, hc, -⟩ := loadRxHeader_frame hr
    refine .of_noHead hclosed ?_
    rw [hc]
    rcases hs with ⟨-, rfl⟩ | ⟨-, rfl⟩ | ⟨-, rfl⟩ <;> rfl
  | s3 v u hs hr =>
    obtain ⟨-, hc, -⟩ := busRead32_frame hr
    have hu : u.core.seq = .send .s3 := by rw [hc, hs]
    refine .of_noHead hclosed ?_
    split
    · split
      · exact congrArg Seq.holdsHead hu
      · rfl
    · rfl
  | v3 q hs =>
    rcases hs with ⟨-, rfl⟩ | ⟨-, rfl⟩ | ⟨-, rfl⟩ <;> exact .of_noHead hclosed rfl
  | p0 onHit onMiss hs =>
    refine .of_noHead hclosed ?_
    rcases lookupEndpoint_seq onHit onMiss s with hq | hq <;> rw [hq] <;>
      rcases hs with ⟨-, rfl, rfl⟩ | ⟨-, rfl, rfl⟩ | ⟨-, rfl, rfl⟩ <;> rfl
  | p1 onRefused whenHandled hs =>
    refine .of_noHead hclosed ?_
    rcases takeAnswer_cases whenHandled onRefused s with ⟨-, ht⟩ | ht | ht <;> rw [ht] <;>
      rcases hs with ⟨hs, rfl, rfl⟩ | ⟨hs, rfl, rfl⟩ | ⟨hs, rfl, rfl⟩
    any_goals rfl
    all_goals rw [hs]; rfl
  | b0 u hs hw | b1 u hs hw | s1 u hs hw | s2 u hs hw => exact .of_noHead hclosed rfl
  | s0 hs | p2 e hs | a0 i g hs | bootDone hs | done e hs hb hr => exact .of_noHead hclosed rfl

/-- The core touches the outbox in the receive part alone, and PEER only posts behind the head. -/
theorem OneStep.keepsOutboxCoherent {s t : State} (ho : OneStep s t) (hw : s.params.wf = true)
    (h : s.OutboxCoherent) (hreset : nextMove s ≠ .peerReset) : t.OutboxCoherent := by
  have hpop : s.popMove.OutboxCoherent := h.of_posted rfl rfl (List.append_nil _).symm
  have hclosed : t.params.openForm = false := ho.appendsOne.1 ▸ h.closed
  cases ho with
  | event _ hm he => exact he.keepsOutboxCoherent hw hpop
  | acceptance i q r rest hm hs hr hf hd hq => exact .of_noHead hclosed hq.noHead
  | transaction _ w rest hm hs hr hf hb =>
    have hidle : t.core.seq = .idle := (congrArg CoreState.seq (transaction_frame hb).1).trans hs
    exact .of_noHead hclosed (congrArg Seq.holdsHead hidle)
  | reservedDone op hm hs => exact .of_noHead hclosed rfl
  | nothing hm hs hr => exact hpop
  | reserved op r rest hm hs hr hf hd => exact .of_noHead hclosed rfl
  | acceptanceOfSend d g r rest hm hs hr hf hd => exact .of_noHead hclosed rfl
  | acceptanceOfDispatch d g r rest hm hs hr hf hd => exact .of_noHead hclosed rfl
  | peerAccepts hm =>
    unfold peerAccept
    split
    · exact hpop
    · exact hpop.of_posted rfl rfl (List.append_nil _).symm
  | peerPosts f hm =>
    unfold peerPost
    split
    · exact hpop.of_posted rfl rfl rfl
    · exact hpop
  | endpointAnswers b hm =>
    unfold endpointAnswer
    split <;> exact hpop.of_posted rfl rfl (List.append_nil _).symm
  | responderResponds v hm =>
    unfold busRespond
    split <;> exact hpop.of_posted rfl rfl (List.append_nil _).symm
  | coreResets hm => exact .of_noHead hclosed rfl
  | peerResets hm => exact absurd hm hreset

/-- Settles O43: no step but PEER's reset takes the head from a receive part that holds it. -/
theorem everyStepKeepsTheOutboxCoherent : Obligations.EveryStepKeepsTheOutboxCoherent := by
  unfold Obligations.EveryStepKeepsTheOutboxCoherent
  intro s t hinv h hreset hstep
  exact (oneStep_of_step hstep).2.keepsOutboxCoherent hinv.params h hreset

/-! ### The inbox and the SEND that fills it (R89, R90) -/

/-- What a step other than a reset does to PEER's inbox `m` in the closed form, where HOST holds commands only: `c` and `c'`
are the core before it and after it. -/
inductive InboxStep (p : Params) (c c' : CoreState) (m m' : Mailbox) : Prop
  | keeps (hpoll : c.seq = .send .s3 → c'.seq = .send .s3)
      (hstage : c'.seq = .send .s2 → c' = c ∧ m'.inStage = m.inStage)
      (hin : m'.inQ = m.inQ) (hdel : m'.delivered = m.delivered)
  | latches (hs : c.seq = .send .s1) (hc : c' = { c with seq := .send .s2 }) (hm : m' = { m with inStage := c.txData })
  | commits (hs : c.seq = .send .s2) (hc : c' = { c with seq := .send .s3 })
      (hm : m' = { m with inQ := m.inQ ++ [⟨m.inStage, c.txHeader⟩] })
  | polls (hs : c.seq = .send .s3) (hm : m' = m)
      (hq : c'.seq = .send .s3 ∨ (c'.seq = .ending .sendTimeout ∧ p.sendPollBound ≠ none) ∨
        (c'.seq = .ending .sendDone ∧ m.inQ.length ≠ p.inboxDepth))
  | delivers (f : Frame) (hc : c' = c) (hstage : m'.inStage = m.inStage) (hin : m.inQ = f :: m'.inQ)
      (hdel : m'.delivered = m.delivered ++ [f])

/-- A step that leaves the core, the latch and both lists of frames as they are. -/
theorem InboxStep.of_core_eq {p : Params} {c c' : CoreState} {m m' : Mailbox} (hc : c' = c)
    (hstage : m'.inStage = m.inStage) (hin : m'.inQ = m.inQ) (hdel : m'.delivered = m.delivered) :
    InboxStep p c c' m m' :=
  .keeps (fun h => hc ▸ h) (fun _ => ⟨hc, hstage⟩) hin hdel

/-- An idle core that takes a command is in no phase of a SEND but the first. -/
theorem InboxStep.of_idle {p : Params} {c c' : CoreState} {m : Mailbox} (hs : c.seq = .idle)
    (hq : c'.seq ≠ .send .s2) : InboxStep p c c' m m :=
  .keeps (fun h => absurd (hs.symm.trans h) nofun) (fun h => absurd h hq) rfl rfl

/-- The second write of a SEND comes after its first. -/
theorem CommandEvent.seq_ne_s2 {s t : State} (he : CommandEvent s t) (hs : s.core.seq ≠ .send .s1) :
    t.core.seq ≠ .send .s2 := by
  intro ht
  rcases he.seq_mem_successors with hq | ⟨hwait, -, rfl⟩
  · rw [ht] at hq
    unfold Seq.successors at hq
    split at hq
    case h_5 hs1 => exact hs hs1
    all_goals simp at hq
  · rw [ht] at hwait
    cases hwait

/-- No command but SEND touches the inbox. -/
theorem CommandEvent.keepsInbox {s t : State} (he : CommandEvent s t) (hsend : ∀ p, s.core.seq ≠ .send p) :
    t.peer.inQ = s.peer.inQ ∧ t.peer.delivered = s.peer.delivered := by
  cases he with
  | s0 hs | s1 u hs hb | s2 u hs hb | s3 v u hs hr => exact absurd hs (hsend _)
  | b0 u hs hb | b1 u hs hb =>
    obtain ⟨-, -, -, hpeer | hpeer⟩ := busWrite32_frame hb <;> rw [State.goto_peer, hpeer] <;> exact ⟨rfl, rfl⟩
  | v0 b u q whenEmpty hs hr =>
    obtain ⟨-, -, hpeer, -⟩ := readOutboxEmpty_frame hr
    rw [State.goto_peer, hpeer]; exact ⟨rfl, rfl⟩
  | v1 u q hs hr =>
    obtain ⟨v, -, -, hpeer, -⟩ := loadRxData_frame hr
    rw [hpeer]; exact ⟨rfl, rfl⟩
  | v2 u q hs hr =>
    obtain ⟨v, -, -, hpeer, -⟩ := loadRxHeader_frame hr
    rw [hpeer]; split <;> exact ⟨rfl, rfl⟩
  | p0 onHit onMiss hs => unfold lookupEndpoint; split <;> exact ⟨rfl, rfl⟩
  | p1 onRefused whenHandled hs =>
    rcases takeAnswer_cases whenHandled onRefused s with ⟨-, ht⟩ | ht | ht <;> rw [ht]
    · exact ⟨rfl, rfl⟩
    · rcases hs with ⟨-, -, rfl⟩ | ⟨-, -, rfl⟩ | ⟨-, -, rfl⟩ <;> exact ⟨rfl, rfl⟩
    · exact ⟨rfl, rfl⟩
  | v3 q hs | p2 e hs | a0 i g hs | bootDone hs | done e hs hb hr => exact ⟨rfl, rfl⟩

/-- The poll of SEND in the closed form moves the bus port alone, and shows `FULL` 0 only to an inbox not at its depth
(R249). -/
theorem pollRead_closed {s u : State} {v : CtrlValue} (hw : s.params.wf = true) (hclosed : s.params.openForm = false)
    (hr : busRead32 (regAddr s.params .inboxCtrl) s = .next (v, u)) :
    u.core = s.core ∧ u.peer = s.peer ∧ (v.full = false → s.peer.inQ.length ≠ s.params.inboxDepth) := by
  obtain ⟨v', u', hr', -, hc, hpeer, -, -, -, -, -, -, hflags, -⟩ := busRead32_ctrl hw .inboxCtrl (.inl rfl)
  cases hr.symm.trans hr'
  obtain ⟨hfull, -⟩ := hflags hclosed rfl
  exact ⟨hc, hpeer, fun hv => by simpa [hfull, inboxFull] using hv⟩

/-- In a SEND each phase has its own effect on the inbox; every other command leaves it alone. -/
theorem CommandEvent.inboxStep {s t : State} (he : CommandEvent s t) (hw : s.params.wf = true)
    (hclosed : s.params.openForm = false) : InboxStep s.params s.core t.core s.peer t.peer := by
  by_cases hsend : ∃ p, s.core.seq = .send p
  case neg =>
    have hne := not_exists.mp hsend
    obtain ⟨hin, hdel⟩ := he.keepsInbox hne
    exact .keeps (fun h => absurd h (hne _)) (fun h => absurd h (he.seq_ne_s2 (hne _))) hin hdel
  case pos =>
    obtain ⟨p, hp⟩ := hsend
    cases he with
    | s0 hs => exact .keeps (fun h => absurd (hs.symm.trans h) nofun) nofun rfl rfl
    | s1 u hs hb =>
      rw [busWrite64_inbox0 hw] at hb
      cases hb
      exact .latches hs rfl (by simp [hclosed])
    | s2 u hs hb =>
      have hroom : s.peer.inQ.length < s.params.inboxDepth := by
        by_contra hfull
        rw [busWrite64_inbox1_full hw _ hclosed hfull] at hb
        cases hb
      rw [busWrite64_inbox1 hw _ fun _ => hroom] at hb
      cases hb
      exact .commits hs rfl (by simp [hclosed])
    | s3 v u hs hr =>
      obtain ⟨hc, hpeer, hroom⟩ := pollRead_closed hw hclosed hr
      split
      · split
        · exact .polls hs hpeer (.inl ((congrArg CoreState.seq hc).trans hs))
        · rename_i hstop
          refine .polls hs hpeer (.inr (.inl ⟨rfl, fun hnone => hstop ?_⟩))
          rw [hnone]; rfl
      · exact .polls hs hpeer (.inr (.inr ⟨rfl, hroom (Bool.eq_false_iff.mpr ‹_›)⟩))
    | _ => simp_all

/-- Where HOST holds commands only, no transaction but the core's own takes place (R31). -/
theorem not_bus_of_onlyCommands {s : State} (h : s.onlyCommands = true) {w : Nat} {rest : List PortWord}
    (hr : s.ports.requests = .bus w :: rest) : False := by
  simp [State.onlyCommands, hr, isCommandWord] at h

theorem OneStep.inboxStep {s t : State} (ho : OneStep s t) (hw : s.params.wf = true)
    (hclosed : s.params.openForm = false) (hcmd : s.onlyCommands = true) :
    InboxStep s.params s.core t.core s.peer t.peer ∨ (nextMove s = .coreReset ∧ t = coreReset s.popMove) ∨
      (nextMove s = .peerReset ∧ t = peerReset s.popMove) := by
  cases ho with
  | coreResets hm => exact .inr (.inl ⟨hm, rfl⟩)
  | peerResets hm => exact .inr (.inr ⟨hm, rfl⟩)
  | event _ hm he => exact .inl (he.inboxStep (s := s.popMove) hw hclosed)
  | transaction _ w rest hm hs hr hf hb => exact (not_bus_of_onlyCommands hcmd hr).elim
  | reservedDone op hm hs => exact .inl (.keeps (fun h => absurd (hs.symm.trans h) nofun) nofun rfl rfl)
  | nothing hm hs hr => exact .inl (.of_core_eq rfl rfl rfl rfl)
  | reserved op r rest hm hs hr hf hd => exact .inl (.of_idle hs nofun)
  | acceptance i q r rest hm hs hr hf hd hq => exact .inl (.of_idle hs (hq.noSend _))
  | acceptanceOfSend d g r rest hm hs hr hf hd => exact .inl (.of_idle hs nofun)
  | acceptanceOfDispatch d g r rest hm hs hr hf hd => exact .inl (.of_idle hs nofun)
  | peerAccepts hm =>
    left
    unfold peerAccept
    split
    · exact .of_core_eq rfl rfl rfl rfl
    · exact .delivers _ rfl rfl ‹_› rfl
  | peerPosts f hm => left; unfold peerPost; split <;> exact .of_core_eq rfl rfl rfl rfl
  | endpointAnswers b hm => left; unfold endpointAnswer; split <;> exact .of_core_eq rfl rfl rfl rfl
  | responderResponds v hm => left; unfold busRespond; split <;> exact .of_core_eq rfl rfl rfl rfl

/-- A step takes HOST's first word or none, and offers none of its own (R21). -/
theorem onlyCommands_of_step {s t : State} (hstep : step s = .next t) (h : s.onlyCommands = true) :
    t.onlyCommands = true := by
  obtain ⟨-, hr | hr⟩ := commandPortIsClosedWhileBusy s t hstep
  · simpa [State.onlyCommands, hr] using h
  · simp only [State.onlyCommands, hr, List.all_eq_true] at h ⊢
    exact fun w hmem => h w (List.mem_of_mem_tail hmem)

/-- The inbox of the closed form has room after a step, unless that step ends in the poll of a SEND: the commit leads there,
and the poll is left only where it read `FULL` 0. -/
theorem InboxStep.room {p : Params} {c c' : CoreState} {m m' : Mailbox} (h : InboxStep p c c' m m')
    (hbound : p.sendPollBound = none) (hfits : m.inQ.length ≤ p.inboxDepth)
    (hroom : c.seq ≠ .send .s3 → m.inQ.length < p.inboxDepth) (hs : c'.seq ≠ .send .s3) :
    m'.inQ.length < p.inboxDepth := by
  cases h with
  | keeps hpoll hstage hin hdel => rw [hin]; exact hroom fun hc => hs (hpoll hc)
  | latches hc hc' hm => rw [hm]; exact hroom (by simp [hc])
  | commits hc hc' hm => exact absurd (congrArg CoreState.seq hc') hs
  | polls hc hm hq =>
    rcases hq with hq | ⟨-, hsome⟩ | ⟨-, hne⟩
    · exact absurd hq hs
    · exact absurd hbound hsome
    · rw [hm]; exact lt_of_le_of_ne hfits hne
  | delivers f hc hstage hin hdel =>
    rw [hin, List.length_cons] at hfits
    exact hfits

theorem State.InboxRoom.kept {s t : State} (hinv : s.Inv) (h : s.InboxRoom) (hcmd : s.onlyCommands = true)
    (hreset : nextMove s ≠ .coreReset) (hstep : step s = .next t) : t.InboxRoom := by
  obtain ⟨hw, ho⟩ := oneStep_of_step hstep
  have hp : t.params = s.params := ho.appendsOne.1
  refine ⟨hp ▸ h.closed, hp ▸ h.noBound, fun hs => ?_⟩
  rw [hp]
  rcases ho.inboxStep hw h.closed hcmd with hi | ⟨hm, -⟩ | ⟨-, rfl⟩
  · exact hi.room h.noBound hinv.inbox h.room hs
  · exact absurd hm hreset
  · obtain ⟨-, -, -, -, -, hdepth, -, -⟩ := (wf_iff _).mp hw
    exact hdepth

/-- Settles O44: what a step can do to the inbox, case by case. -/
theorem everyStepKeepsTheInboxRoom : Obligations.EveryStepKeepsTheInboxRoom := by
  unfold Obligations.EveryStepKeepsTheInboxRoom
  intro s t hinv h hcmd hreset hstep
  exact ⟨h.kept hinv hcmd hreset hstep, onlyCommands_of_step hstep hcmd⟩

/-- Settles O46: the commit appends the staged word and `TX_HEADER`, and the staged word is `TX_DATA`. -/
theorem sentFramesArriveInOrderAndUnchanged : Obligations.SentFramesArriveInOrderAndUnchanged := by
  unfold Obligations.SentFramesArriveInOrderAndUnchanged
  intro s t hclosed h hcmd hreset hstep
  obtain ⟨hw, ho⟩ := oneStep_of_step hstep
  rcases ho.inboxStep hw hclosed hcmd with hi | ⟨-, rfl⟩ | ⟨hm, -⟩
  · cases hi with
    | keeps hpoll hstage hin hdel =>
      refine ⟨fun hs => ?_, .inl (by rw [hin, hdel])⟩
      obtain ⟨hc, hst⟩ := hstage hs
      rw [hst, hc]
      exact h (hc ▸ hs)
    | latches hs hc hp => exact ⟨fun _ => by rw [hp, hc], .inl (by rw [hp])⟩
    | commits hs hc hp =>
      refine ⟨fun hs' => ?_, .inr ⟨hs, ?_⟩⟩
      · rw [hc] at hs'
        cases hs'
      · rw [hp, h hs, List.append_assoc]
    | polls hs hp hq =>
      refine ⟨fun hs' => ?_, .inl (by rw [hp])⟩
      rcases hq with hq | ⟨hq, -⟩ | ⟨hq, -⟩ <;> cases hq.symm.trans hs'
    | delivers f hc hstage hin hdel =>
      refine ⟨fun hs => ?_, .inl (by simp [hin, hdel])⟩
      rw [hstage, hc]
      exact h (hc ▸ hs)
  · exact ⟨nofun, .inl rfl⟩
  · exact absurd hm hreset

/-! ### Every step is answered (R89, R281) -/

theorem andThen_answers {α β : Type} {x : Host.Outcome α Fault Refusal} {f : α → Host.Outcome β Fault Refusal}
    (hx : ∃ a, x = .next a) (hf : ∀ a, ∃ b, f a = .next b) : ∃ b, andThen x f = .next b := by
  obtain ⟨a, rfl⟩ := hx
  exact hf a

section Transactions

variable {s : State} (hw : s.params.wf = true) (hclosed : s.params.openForm = false)
include hw

theorem pulse_answers (v : Word32) (q : Seq) :
    ∃ t, andThen (busWrite32 (regAddr s.params .cpuControl) v s) (fun t => .next (t.goto q)) = .next t :=
  andThen_answers ⟨_, busWrite32_cpuControl hw v⟩ fun _ => ⟨_, rfl⟩

theorem pollInbox_answers : ∃ t, pollInbox s = .next t := by
  obtain ⟨v, t, hr, -⟩ := busRead32_ctrl hw .inboxCtrl (.inl rfl)
  exact andThen_answers ⟨_, hr⟩ fun _ => ⟨_, rfl⟩

theorem readOutboxEmpty_answers : ∃ x, readOutboxEmpty s = .next x := by
  obtain ⟨v, t, hr, -⟩ := busRead32_ctrl hw .outboxCtrl (.inr rfl)
  exact andThen_answers ⟨_, hr⟩ fun _ => ⟨_, rfl⟩

include hclosed

theorem loadRxData_answers (q : Seq) : ∃ t, loadRxData q s = .next t :=
  andThen_answers ⟨_, busRead64_outbox0 hw hclosed⟩ fun _ => ⟨_, rfl⟩

theorem loadRxHeader_answers (q : Seq) : ∃ t, loadRxHeader q s = .next t :=
  andThen_answers ⟨_, busRead64_outbox1 hw hclosed⟩ fun _ => ⟨_, rfl⟩

/-- A command, begun or in progress, is refused nothing but the commit onto a full inbox (R258). -/
theorem exec_answers {i : Instr} (hi : commandOp i ≠ none)
    (hroom : s.core.seq = .send .s2 → s.peer.inQ.length < s.params.inboxDepth) : ∃ t, exec i s = .next t := by
  cases i with
  | boot =>
    simp only [exec, execBoot]
    split
    case h_2 => exact pulse_answers hw _ _
    case h_3 => exact pulse_answers hw _ _
    all_goals exact ⟨_, rfl⟩
  | send d g =>
    simp only [exec, execSend]
    split
    case h_3 => exact andThen_answers ⟨_, busWrite64_inbox0 hw _⟩ fun _ => ⟨_, rfl⟩
    case h_4 hs => exact andThen_answers ⟨_, busWrite64_inbox1 hw _ fun _ => hroom hs⟩ fun _ => ⟨_, rfl⟩
    case h_5 => exact pollInbox_answers hw
    all_goals exact ⟨_, rfl⟩
  | recv =>
    simp only [exec, execRecv]
    split
    case h_2 => exact andThen_answers (readOutboxEmpty_answers hw) fun _ => ⟨_, rfl⟩
    case h_3 => exact loadRxData_answers hw hclosed _
    case h_4 => exact loadRxHeader_answers hw hclosed _
    all_goals exact ⟨_, rfl⟩
  | dispatch d g =>
    simp only [exec, execDispatch]
    split <;> exact ⟨_, rfl⟩
  | pumpOnce =>
    simp only [exec, execPumpOnce]
    split
    case h_2 => exact andThen_answers (readOutboxEmpty_answers hw) fun _ => ⟨_, rfl⟩
    case h_3 => exact loadRxData_answers hw hclosed _
    case h_4 => exact loadRxHeader_answers hw hclosed _
    all_goals exact ⟨_, rfl⟩
  | pumpForever =>
    simp only [exec, execPumpForever]
    split
    case h_2 => exact andThen_answers (readOutboxEmpty_answers hw) fun _ => ⟨_, rfl⟩
    case h_3 => exact loadRxData_answers hw hclosed _
    case h_4 => exact loadRxHeader_answers hw hclosed _
    all_goals exact ⟨_, rfl⟩
  | addEp id g =>
    simp only [exec, execAddEp]
    split <;> exact ⟨_, rfl⟩
  | read32 a => exact absurd rfl hi
  | write32 a v => exact absurd rfl hi
  | read64 a => exact absurd rfl hi
  | write64 a v => exact absurd rfl hi

end Transactions

/-- The instruction in progress is a command (R21). -/
theorem CoreState.commandOp_of_current {c : CoreState} {i : Instr} (h : c.current = some i) : commandOp i ≠ none := by
  rw [← CoreState.op_of_current h]
  intro hop
  unfold Seq.op at hop
  split at hop
  case h_1 hs => simp [CoreState.current, hs] at h
  all_goals cases hop

theorem commandOp_of_decodeCmd {p : Params} {w : BitVec 132} {i : Instr} (h : decodeCmd p w = .ok i) :
    commandOp i ≠ none := by
  rcases decodeCmd_isCommand h with rfl | ⟨d, g, rfl⟩ | rfl | ⟨d, g, rfl⟩ | rfl | rfl | ⟨id, g, rfl, -⟩ <;> exact nofun

/-! ### HOST's words, once BOOT counts as done (R349) -/

/-- BOOT has completed or is in progress: it counts as done for the words HOST still holds. -/
def CoreState.bootGiven (c : CoreState) : Bool := c.booted || decide (c.seq.op = some 0x1)

/-- The words HOST holds are those it may offer (the part `words` of `DutiesHeld`). -/
def State.WordsAllowed (s : State) : Prop :=
  hostDuties s.params s.core.bootGiven s.peer.started s.ports.requests = true

/-- An idle core meets a word HOST may offer, and the words behind it. -/
theorem State.WordsAllowed.head {s : State} (h : s.WordsAllowed) (hs : s.core.seq = .idle) {w : PortWord}
    {rest : List PortWord} (hr : s.ports.requests = w :: rest) :
    hostMisuse s.params s.core.booted s.peer.started w = none ∧
      hostDuties s.params (s.core.booted || isBootWord s.params w) s.peer.started rest = true := by
  simpa [State.WordsAllowed, CoreState.bootGiven, hs, Seq.op, hr, hostDuties] using h

/-- BOOT's completion is the one event of it that leads to idle. -/
theorem Seq.eq_bootEnding_of_idle_mem {q : Seq} (hop : q.op = some 0x1) (h : Seq.idle ∈ q.successors) :
    q = .ending .boot ∨ q = .ending (.reserved 0x1) := by
  cases q with
  | boot b => cases b <;> simp [Seq.successors] at h
  | ending e => cases e <;> simp_all [Seq.op, Ending.op]
  | _ => cases hop

theorem CommandEvent.booted_of_bootEnding {s t : State} (he : CommandEvent s t) (hs : s.core.seq = .ending .boot) :
    t.core.booted = true := by
  cases he with
  | bootDone => rfl
  | _ => simp_all

/-- A reserved command has no event of its own but the completion that `OneStep.reservedDone` is. -/
theorem CommandEvent.ne_reserved {s t : State} (he : CommandEvent s t) (op : BitVec 4) :
    s.core.seq ≠ .ending (.reserved op) := by
  intro hs
  cases he <;> simp_all

/-- No event of a command changes whether BOOT counts as done: its completion sets `booted` (R172). -/
theorem CommandEvent.bootGiven {s t : State} (he : CommandEvent s t) : t.core.bootGiven = s.core.bootGiven := by
  unfold CoreState.bootGiven
  rcases he.frame.booted with hb | ⟨hb, hs⟩
  · rcases he.seq_mem_successors with hq | ⟨-, -, rfl⟩
    · rcases Seq.op_of_mem_successors hq with hidle | hop
      · by_cases hboot : s.core.seq.op = some 0x1
        · rw [hidle] at hq
          have hs := (Seq.eq_bootEnding_of_idle_mem hboot hq).resolve_right (he.ne_reserved _)
          simp [he.booted_of_bootEnding hs, hboot]
        · have hidleOp : t.core.seq.op = none := congrArg Seq.op hidle
          rw [hb, hidleOp, decide_eq_false hboot, decide_eq_false nofun]
      · rw [hb, hop]
    · rfl
  · simp [hb, hs, Seq.op, Ending.op]

theorem State.WordsAllowed.event {s t : State} (h : s.WordsAllowed) (he : CommandEvent s t) : t.WordsAllowed := by
  unfold State.WordsAllowed at h ⊢
  rw [he.appendsOne.1, he.frame.requests, he.bootGiven]
  rcases he.started with hst | hboot
  · rw [hst]; exact h
  · have hgiven : s.core.bootGiven = true := by simp [CoreState.bootGiven, hboot]
    rw [hgiven] at h ⊢
    exact (hostDuties_booted ..).trans h

/-- An accepted command that HOST may offer leaves it words it may offer, a BOOT counting from now on. -/
theorem State.WordsAllowed.acceptance {s t : State} (h : s.WordsAllowed) (hs : s.core.seq = .idle) {w : PortWord}
    {rest : List PortWord} {i : Instr} (hr : s.ports.requests = w :: rest) (hd : decodePort s.params w = .ok i)
    (hp : t.params = s.params) (hb : t.core.booted = s.core.booted) (hop : t.core.seq.op = commandOp i)
    (hpeer : t.peer = s.peer) (hreq : t.ports.requests = s.ports.requests.tail) : t.WordsAllowed := by
  obtain ⟨hm, hrest⟩ := h.head hs hr
  obtain ⟨-, -, hboot⟩ := hostMisuse_none hm hd
  rw [hboot] at hrest
  simpa [State.WordsAllowed, CoreState.bootGiven, hp, hb, hop, hpeer, hreq, hr] using hrest

theorem hostMisuse_reserved {p : Params} {booted started : Bool} {w : PortWord} {op : BitVec 4}
    (hd : decodePort p w = .error (.reservedOpcode op)) : hostMisuse p booted started w ≠ none := by
  cases w with
  | bus w => cases hd
  | cmd w =>
    have hd' : decodeCmd p w = .error (.reservedOpcode op) := hd
    simp [hostMisuse, hd']

/-- Where BOOT, PEER's `started` and the words are as before. -/
theorem State.WordsAllowed.of_eq {s t : State} (h : s.WordsAllowed) (hp : t.params = s.params)
    (hb : t.core.bootGiven = s.core.bootGiven) (hst : t.peer.started = s.peer.started)
    (hreq : t.ports.requests = s.ports.requests) : t.WordsAllowed := by
  unfold State.WordsAllowed
  rw [hp, hb, hst, hreq]
  exact h

/-- A reserved command in its last phase does not look like a BOOT, since its opcode is a reserved one (R127). -/
theorem OneStep.keepsWordsAllowed {s t : State} (ho : OneStep s t) (hinv : s.Inv) (h : s.WordsAllowed)
    (hreset : nextMove s ≠ .coreReset) : t.WordsAllowed := by
  have hpop : s.popMove.WordsAllowed := h
  cases ho with
  | event _ hm he => exact hpop.event he
  | reservedDone op hm hs =>
    have hop : op ≠ 1#4 := by
      rintro rfl
      simpa [Seq.endingOk, hs] using hinv.ending
    refine h.of_eq rfl ?_ rfl rfl
    simp [CoreState.bootGiven, hs, Seq.op, Ending.op, hop]
  | nothing hm hs hr => exact hpop
  | reserved op r rest hm hs hr hf hd => exact absurd (h.head hs hr).1 (hostMisuse_reserved hd)
  | acceptance i q r rest hm hs hr hf hd hq => exact h.acceptance hs hr hd rfl rfl hq.op rfl rfl
  | acceptanceOfSend d g r rest hm hs hr hf hd => exact h.acceptance hs hr hd rfl rfl rfl rfl rfl
  | acceptanceOfDispatch d g r rest hm hs hr hf hd => exact h.acceptance hs hr hd rfl rfl rfl rfl rfl
  | transaction _ w rest hm hs hr hf hb => exact absurd (h.head hs hr).1 nofun
  | peerAccepts hm => unfold peerAccept; split <;> exact h.of_eq rfl rfl rfl rfl
  | peerPosts f hm => unfold peerPost; split <;> exact h.of_eq rfl rfl rfl rfl
  | endpointAnswers b hm => unfold endpointAnswer; split <;> exact h.of_eq rfl rfl rfl rfl
  | responderResponds v hm => unfold busRespond; split <;> exact h.of_eq rfl rfl rfl rfl
  | coreResets hm => exact absurd hm hreset
  | peerResets hm => exact hostDuties_unstarted h

/-! ### The schedule -/

theorem CommandEvent.moves {s t : State} (he : CommandEvent s t) : t.ports.moves = s.ports.moves := by
  cases he with
  | b0 u hs hb | b1 u hs hb =>
    obtain ⟨-, -, hports, -⟩ := busWrite32_frame hb
    exact (congrArg Ports.moves hports :)
  | s1 u hs hb | s2 u hs hb =>
    obtain ⟨-, -, hports, -⟩ := busWrite64_frame hb
    exact (congrArg Ports.moves hports :)
  | s3 v u hs hr =>
    obtain ⟨-, -, -, -, hmoves, -⟩ := busRead32_frame hr
    split
    · split <;> exact hmoves
    · exact hmoves
  | v0 b u q whenEmpty hs hr =>
    obtain ⟨-, -, -, -, hmoves, -⟩ := readOutboxEmpty_frame hr
    exact hmoves
  | v1 u q hs hr =>
    obtain ⟨v, -, -, -, -, hmoves, -⟩ := loadRxData_frame hr
    exact hmoves
  | v2 u q hs hr =>
    obtain ⟨v, -, -, -, -, hmoves, -⟩ := loadRxHeader_frame hr
    exact hmoves
  | p0 onHit onMiss hs => unfold lookupEndpoint; split <;> rfl
  | p1 onRefused whenHandled hs =>
    rcases takeAnswer_cases whenHandled onRefused s with ⟨-, ht⟩ | ht | ht <;> rw [ht] <;>
      rcases hs with ⟨-, -, rfl⟩ | ⟨-, -, rfl⟩ | ⟨-, -, rfl⟩ <;> rfl
  | s0 hs | v3 q hs | p2 e hs | a0 i g hs | bootDone hs | done e hs hb hr => rfl

/-- A step takes the first move off the schedule and schedules none (R246). -/
theorem OneStep.moves {s t : State} (ho : OneStep s t) : t.ports.moves = s.ports.moves.tail := by
  cases ho with
  | event _ hm he => exact he.moves
  | transaction _ w rest hm hs hr hf hb =>
    rcases hb with ⟨a, v, hb⟩ | ⟨a, v, hb⟩ | ⟨a, v, hb⟩ | ⟨a, v, hb⟩
    · obtain ⟨-, -, -, -, hmoves, -⟩ := busRead32_frame hb
      exact hmoves
    · obtain ⟨-, -, -, hmoves, -⟩ := busRead64_frame hb
      exact hmoves
    · obtain ⟨-, -, hports, -⟩ := busWrite32_frame hb
      exact (congrArg Ports.moves hports :)
    · obtain ⟨-, -, hports, -⟩ := busWrite64_frame hb
      exact (congrArg Ports.moves hports :)
  | peerAccepts hm => unfold peerAccept; split <;> rfl
  | peerPosts f hm => unfold peerPost; split <;> rfl
  | endpointAnswers b hm => unfold endpointAnswer; split <;> rfl
  | responderResponds v hm => unfold busRespond; split <;> rfl
  | reservedDone | nothing | reserved | acceptance | acceptanceOfSend | acceptanceOfDispatch | coreResets | peerResets =>
    rfl

/-! ### Runs under the premises of R89 -/

/-- The premises of R89 on a state, with the words of HOST under the switch: what every step answers from and keeps. -/
structure State.Premises (s : State) : Prop where
  inv      : s.Inv
  room     : s.InboxRoom
  commands : s.onlyCommands = true
  noReset  : .coreReset ∉ s.ports.moves
  words    : s.params.strictHost = true → s.WordsAllowed

theorem State.Premises.nextMove_ne_coreReset {s : State} (h : s.Premises) : nextMove s ≠ .coreReset := by
  unfold nextMove
  cases hm : s.ports.moves with
  | nil => exact nofun
  | cons m ms => exact fun heq => h.noReset (by simp_all)

/-- A word the idle core meets is none the switch refuses. -/
theorem State.Premises.refusedWord_none {s : State} (h : s.Premises) (hs : s.core.seq = .idle) {w : PortWord}
    {rest : List PortWord} (hr : s.ports.requests = w :: rest) : refusedWord s w = none := by
  unfold refusedWord
  split
  · exact ((h.words ‹_›).head hs hr).1
  · rfl

/-- The core's move is answered: its command in progress has room where it needs some, and a word it meets is a command
it takes. -/
theorem State.Premises.coreMove_answers {s : State} (h : s.Premises) : ∃ t, coreMove s = .next t := by
  have hw := h.inv.params
  cases hc : s.core.current with
  | some i =>
    rw [coreMove_busy hc]
    exact exec_answers hw h.room.closed (CoreState.commandOp_of_current hc) fun hs => h.room.room (by simp [hs])
  | none =>
    rcases current_none hc with hs | ⟨op, hs⟩
    · cases hr : s.ports.requests with
      | nil => exact ⟨s, coreMove_nothing hs hr⟩
      | cons w rest =>
        have hf := h.refusedWord_none hs hr
        cases w with
        | bus w => exact (not_bus_of_onlyCommands h.commands hr).elim
        | cmd w =>
          cases hd : decodePort s.params (.cmd w) with
          | ok i =>
            rw [coreMove_takes hs hr hf hd]
            exact exec_answers (s := { s with ports.requests := rest }) hw h.room.closed (commandOp_of_decodeCmd hd)
              fun hs' => absurd (hs.symm.trans hs') nofun
          | error e =>
            cases e
            exact ⟨_, coreMove_reserved hs hr hf hd⟩
    · exact ⟨_, coreMove_reservedDone hs⟩

theorem State.Premises.step_answers {s : State} (h : s.Premises) : ∃ t, step s = .next t := by
  rw [step_of_wf h.inv.params]
  cases nextMove s with
  | core =>
    have hpop : s.popMove.Premises :=
      ⟨h.inv.popMove, ⟨h.room.closed, h.room.noBound, h.room.room⟩, h.commands,
        fun hm => h.noReset (List.mem_of_mem_tail hm), h.words⟩
    exact hpop.coreMove_answers
  | _ => exact ⟨_, rfl⟩

theorem State.Premises.kept {s t : State} (h : s.Premises) (hstep : step s = .next t) : t.Premises := by
  have ho := (oneStep_of_step hstep).2
  have hreset := h.nextMove_ne_coreReset
  refine ⟨ho.keepsInv h.inv, h.room.kept h.inv h.commands hreset hstep, onlyCommands_of_step hstep h.commands, ?_, ?_⟩
  · rw [ho.moves]
    exact fun hm => h.noReset (List.mem_of_mem_tail hm)
  · rw [ho.appendsOne.1]
    exact fun hstrict => ho.keepsWordsAllowed h.inv (h.words hstrict) hreset

/-- Every run from a state with the premises is answered, and they hold where it ends. -/
theorem State.Premises.run_answers {s : State} (h : s.Premises) (n : Nat) :
    ∃ t, Host.Core.run Sys2Proof.core n s = .next t ∧ t.Premises := by
  induction n generalizing s with
  | zero => exact ⟨s, rfl, h⟩
  | succ n ih =>
    obtain ⟨t, hstep⟩ := h.step_answers
    rw [run_next hstep]
    exact ih (h.kept hstep)

/-- Settles O45, by induction on the number of steps: each is answered and keeps the premises. -/
theorem noRunUnderThePremisesStops : Obligations.NoRunUnderThePremisesStops := by
  unfold Obligations.NoRunUnderThePremisesStops
  intro n s hinv hroom hcmd hreset hduties
  obtain ⟨t, hrun, ht⟩ :=
    State.Premises.run_answers ⟨hinv, hroom, hcmd, hreset, fun hstrict => (hduties hstrict).words⟩ n
  exact ⟨t, hrun, ht.inv, ht.room⟩

end Sys2Proof.Machine

/-! SUPPORT. The encoding (30_encoding.md): decoding the encoding (O5), the ranges of decoded operands (O6), unused operand
bits (O14), the words of the worked examples (O7, O8), field insertion (O9), and the reserved opcodes (O12). -/

namespace Sys2Proof

/-! ### The fields of the bus word (R130) -/

/-- The word as one sum: below bit 64 the data, above it the address and `kind`. -/
theorem busWord_eq (p : Params) (k a : Nat) (v : Word64) :
    busWord p k a v = v.toNat + 2 ^ 64 * (a + 2 ^ p.addrW * k) := by
  rw [busWord, Nat.pow_add]
  ring

theorem busWord_div (p : Params) (k a : Nat) (v : Word64) : busWord p k a v / 2 ^ 64 = a + 2 ^ p.addrW * k := by
  rw [busWord_eq, Nat.add_mul_div_left _ _ (by decide), Nat.div_eq_of_lt v.isLt, Nat.zero_add]

theorem busKind_busWord {p : Params} {k a : Nat} (hk : k < 4) (ha : a < 2 ^ p.addrW) (v : Word64) :
    busKind p (busWord p k a v) = k := by
  rw [busKind, Nat.pow_add, ← Nat.div_div_eq_div_mul, busWord_div, Nat.add_mul_div_left _ _ (by positivity),
    Nat.div_eq_of_lt ha, Nat.zero_add, Nat.mod_eq_of_lt hk]

theorem busAddr_busWord {p : Params} (k : Nat) {a : Nat} (ha : a < 2 ^ p.addrW) (v : Word64) :
    busAddr p (busWord p k a v) = a := by
  rw [busAddr, busWord_div, Nat.add_mul_mod_self_left, Nat.mod_eq_of_lt ha]

theorem busWdata_busWord (p : Params) (k a : Nat) (v : Word64) : busWdata (busWord p k a v) = v := by
  apply BitVec.eq_of_toNat_eq
  rw [busWdata, busWord_eq, BitVec.toNat_ofNat, Nat.add_mul_mod_self_left, Nat.mod_eq_of_lt v.isLt]

theorem busAddr_lt (p : Params) (w : Nat) : busAddr p w < 2 ^ p.addrW := Nat.mod_lt _ (by positivity)

/-- Every bus word is one of the four transactions, at the address of its field (R130, R134). -/
theorem decodeBus_isTransaction (p : Params) (w : Nat) :
    decodeBus p w = .read32 (busAddr p w) ∨ (∃ v, decodeBus p w = .write32 (busAddr p w) v) ∨
      decodeBus p w = .read64 (busAddr p w) ∨ (∃ v, decodeBus p w = .write64 (busAddr p w) v) := by
  unfold decodeBus
  split <;> simp

/-! ### The operands of a command word (R126) -/

/-- A handle that fits its field is read back from it. -/
theorem handleOf_of_fits {p : Params} {h : Handle} (hh : h.toNat < 2 ^ p.epHandleW) : handleOf p h = h := by
  rw [handleOf, Nat.mod_eq_of_lt hh, BitVec.ofNat_toNat, BitVec.setWidth_eq]

/-- The bits of `arg1` above `EP_HANDLE_W` are not read. -/
theorem handleOf_truncated (p : Params) (a : Word64) :
    handleOf p (BitVec.ofNat 64 (a.toNat % 2 ^ p.epHandleW)) = handleOf p a := by
  have hlt : a.toNat % 2 ^ p.epHandleW < 2 ^ 64 := (Nat.mod_le _ _).trans_lt a.isLt
  rw [handleOf, BitVec.toNat_ofNat, Nat.mod_eq_of_lt hlt, Nat.mod_mod, handleOf]

/-- A value zero-extended to 64 bits is read back from its low bits. -/
theorem extractLsb'_setWidth {n : Nat} (hn : n ≤ 64) (x : BitVec n) : (x.setWidth 64).extractLsb' 0 n = x := by
  rw [← BitVec.setWidth_eq_extractLsb' hn, BitVec.setWidth_setWidth_of_le x hn, BitVec.setWidth_eq]

/-! ### What a command word decodes to, opcode by opcode (R125, R126) -/

section
variable (p : Params) (a1 a0 : Word64)

theorem decodeCmd_boot : decodeCmd p (cmdWord 0x1 a1 a0) = .ok .boot := by simp [decodeCmd]
theorem decodeCmd_send : decodeCmd p (cmdWord 0x2 a1 a0) = .ok (.send a0 a1) := by simp [decodeCmd]
theorem decodeCmd_recv : decodeCmd p (cmdWord 0x3 a1 a0) = .ok .recv := by simp [decodeCmd]
theorem decodeCmd_dispatch : decodeCmd p (cmdWord 0x4 a1 a0) = .ok (.dispatch a0 a1) := by simp [decodeCmd]
theorem decodeCmd_pumpOnce : decodeCmd p (cmdWord 0x5 a1 a0) = .ok .pumpOnce := by simp [decodeCmd]
theorem decodeCmd_pumpForever : decodeCmd p (cmdWord 0x6 a1 a0) = .ok .pumpForever := by simp [decodeCmd]
theorem decodeCmd_addEp :
    decodeCmd p (cmdWord 0x7 a1 a0) = .ok (.addEp (a0.extractLsb' 0 8) (handleOf p a1)) := by simp [decodeCmd]

end

/-! ### Decoding the encoding -/

theorem lt_of_addressOk {p : Params} {a n : Nat} (h : addressOk p a n = true) : a < 2 ^ p.addrW := by
  simp only [addressOk, Bool.and_eq_true, decide_eq_true_eq] at h
  exact h.1

/-- An instruction whose operands lie in their ranges is read back from its word. -/
theorem decodePort_encode {p : Params} {i : Instr} (hi : i.wf p = true) : decodePort p (encode p i) = .ok i := by
  cases i with
  | boot => exact decodeCmd_boot p 0 0
  | send d h => exact decodeCmd_send ..
  | recv => exact decodeCmd_recv p 0 0
  | dispatch d h => exact decodeCmd_dispatch ..
  | pumpOnce => exact decodeCmd_pumpOnce p 0 0
  | pumpForever => exact decodeCmd_pumpForever p 0 0
  | addEp id h =>
    have hfits : h.toNat < 2 ^ p.epHandleW := of_decide_eq_true hi
    rw [encode, decodePort, decodeCmd_addEp, handleOf_of_fits hfits, extractLsb'_setWidth (by decide)]
  | read32 a =>
    have ha := lt_of_addressOk hi
    simp [decodePort, encode, decodeBus, busKind_busWord, busAddr_busWord, ha]
  | write32 a v =>
    have ha := lt_of_addressOk hi
    simp [decodePort, encode, decodeBus, busKind_busWord, busAddr_busWord, busWdata_busWord, extractLsb'_setWidth, ha]
  | read64 a =>
    have ha := lt_of_addressOk hi
    simp [decodePort, encode, decodeBus, busKind_busWord, busAddr_busWord, ha]
  | write64 a v =>
    have ha := lt_of_addressOk hi
    simp [decodePort, encode, decodeBus, busKind_busWord, busAddr_busWord, busWdata_busWord, ha]

/-- Settles O5. -/
theorem decodeGivesBackEveryEncodedInstruction : Obligations.DecodeGivesBackEveryEncodedInstruction := by
  unfold Obligations.DecodeGivesBackEveryEncodedInstruction
  exact fun p i _ hi => decodePort_encode hi

/-- Settles O6: an address is a remainder modulo `2 ^ ADDR_W`, a handle one modulo `2 ^ EP_HANDLE_W`. -/
theorem decodedOperandsLieInTheirRanges : Obligations.DecodedOperandsLieInTheirRanges := by
  unfold Obligations.DecodedOperandsLieInTheirRanges
  intro p w i _ hd
  cases w with
  | cmd w =>
    rcases Machine.decodeCmd_isCommand hd with
      rfl | ⟨d, h, rfl⟩ | rfl | ⟨d, h, rfl⟩ | rfl | rfl | ⟨id, h, rfl, rfl⟩
    case inr.inr.inr.inr.inr.inr => exact Machine.handleOf_fits _
    all_goals trivial
  | bus w =>
    obtain rfl : decodeBus p w = i := Except.ok.inj hd
    rcases decodeBus_isTransaction p w with h | ⟨v, h⟩ | h | ⟨v, h⟩ <;> rw [h] <;> exact busAddr_lt p w

/-- Settles O14: the four commands without operands, then the two operands of ADD_EP. -/
theorem unusedOperandBitsAreIgnored : Obligations.UnusedOperandBitsAreIgnored := by
  unfold Obligations.UnusedOperandBitsAreIgnored
  intro p a1 a0
  refine ⟨decodeCmd_boot .., decodeCmd_recv .., decodeCmd_pumpOnce .., decodeCmd_pumpForever .., ?_⟩
  rw [decodeCmd_addEp, decodeCmd_addEp, handleOf_truncated, extractLsb'_setWidth (by decide)]

end Sys2Proof

namespace Sys2Proof.Machine

/-! ### The words of the worked examples -/

/-- Settles O7, by evaluating the decoder on the twelve words. -/
theorem wordsOfTheWorkedExamplesDecode : Obligations.WordsOfTheWorkedExamplesDecode := by
  unfold Obligations.WordsOfTheWorkedExamplesDecode
  decide

/-- Settles O8: with status `FRAME` the unspecified words do not stand in the completion word; the rest is evaluation. -/
theorem portWordsOfTheWorkedExamples : Obligations.PortWordsOfTheWorkedExamples := by
  unfold Obligations.PortWordsOfTheWorkedExamples
  refine ⟨fun u => ?completion, ?_⟩
  case completion => rw [completionWord, Option.getD_some]; decide
  decide

/-! ### Field insertion (R121) -/

theorem getLsbD_fieldMask {n hi lo k : Nat} (h : lo ≤ hi) (hk : k < n) :
    (fieldMask n hi lo).getLsbD k = decide (lo ≤ k ∧ k ≤ hi) := by
  rw [fieldMask, BitVec.getLsbD_ofNat, Nat.testBit_mul_two_pow, Nat.testBit_two_pow_sub_one]
  grind

/-- Settles O9: within the mask the shifted field shows, outside it the old word. -/
theorem fieldInsertionReplacesTheFieldAlone : Obligations.FieldInsertionReplacesTheFieldAlone := by
  unfold Obligations.FieldInsertionReplacesTheFieldAlone
  intro n v f hi lo hlo hhi k hk
  rw [fieldInsert, BitVec.getLsbD_or, BitVec.getLsbD_and, BitVec.getLsbD_and, BitVec.getLsbD_not,
    BitVec.getLsbD_shiftLeft, getLsbD_fieldMask hlo hk]
  by_cases hin : lo ≤ k ∧ k ≤ hi
  · simp [hin, hk]
  · simp [hin, hk]

/-! ### Reserved opcodes (R127) -/

/-- Settles O12: the opcode decodes to no instruction, and with the switch off the word is taken all the same. -/
theorem reservedOpcodeCompletesWithIllegalCmd : Obligations.ReservedOpcodeCompletesWithIllegalCmd := by
  unfold Obligations.ReservedOpcodeCompletesWithIllegalCmd
  intro s hw hm
  rw [step_eq_coreMove hw hm]
  refine ⟨fun w rest hoff hs hr hop => ?accepted, fun op hs => ?completed⟩
  case accepted =>
    exact coreMove_reserved (s := s.popMove) hs hr (refusedWord_off hoff _) (decodeCmd_reserved.mpr ⟨rfl, hop⟩)
  case completed => exact coreMove_reservedDone (s := s.popMove) hs

end Sys2Proof.Machine

/-! SUPPORT. What a command completes with (O56), over the events of `CommandEvent`. -/
namespace Sys2Proof.Machine

/-- What an event of the command `i` shows HOST: it leaves the core busy and shows traffic alone, or it leaves the core
idle and shows one completion, its status one of the command's (R129) and its frame there for `FRAME` alone (R128). -/
inductive ShowsHost (i : Instr) (s t : State) : Prop
  | goesOn (added : List Event) (he : t.ports.events = s.ports.events ++ added)
      (hadded : ∀ e ∈ added, e.isTraffic = true) (hq : t.core.seq ≠ .idle)
  | completes (st : Status) (f : Option Frame) (he : t.ports.events = s.ports.events ++ [.complete st f])
      (hq : t.core.seq = .idle) (hst : statusAllowed s.params i st = true) (hf : f.isSome = true ↔ st = .frame)

theorem ShowsHost.silent {i : Instr} {s t : State} (he : t.ports.events = s.ports.events) (hq : t.core.seq ≠ .idle) :
    ShowsHost i s t :=
  .goesOn [] (by rw [he, List.append_nil]) nofun hq

theorem ShowsHost.traffic {i : Instr} {s t : State} {e : Event} (he : t.ports.events = s.ports.events ++ [e])
    (htraffic : e.isTraffic = true) (hq : t.core.seq ≠ .idle) : ShowsHost i s t :=
  .goesOn [e] he (fun _ h => List.mem_singleton.mp h ▸ htraffic) hq

/-- A command in its last phase completes with a status of its row, if the parameters allow that ending. -/
theorem statusAllowed_of_ending {p : Params} {c : CoreState} {e : Ending} {i : Instr} (hi : c.endingInstr e = some i)
    (hok : (Seq.ending e).endingOk p = true) : statusAllowed p i e.status = true := by
  cases e <;> cases hi <;> simp_all [statusAllowed, Ending.status, Seq.endingOk]

theorem endingFrame_isSome (e : Ending) (s : State) : (endingFrame e s).isSome = true ↔ e.status = .frame := by
  cases e <;> simp [endingFrame, Ending.status]

theorem pumpIdle_ne_idle (p : Params) : pumpIdle p ≠ .idle := by
  unfold pumpIdle
  split <;> nofun

theorem CommandEvent.showsHost {s t : State} {i : Instr} (h : CommandEvent s t) (hi : s.core.current = some i)
    (hok : s.core.seq.endingOk s.params = true) : ShowsHost i s t := by
  cases h with
  | b0 u hs hw =>
    obtain ⟨-, -, hp, -⟩ := busWrite32_frame hw
    exact .traffic (congrArg Ports.events hp :) rfl nofun
  | b1 u hs hw =>
    obtain ⟨-, -, hp, -⟩ := busWrite32_frame hw
    exact .traffic (congrArg Ports.events hp :) rfl nofun
  | s0 hs => exact .traffic rfl rfl nofun
  | s1 u hs hw =>
    obtain ⟨-, -, hp, -⟩ := busWrite64_frame hw
    exact .traffic (congrArg Ports.events hp :) rfl nofun
  | s2 u hs hw =>
    obtain ⟨-, -, hp, -⟩ := busWrite64_frame hw
    exact .traffic (congrArg Ports.events hp :) rfl nofun
  | s3 v u hs hr =>
    obtain ⟨-, hc, -, -, -, -, -, he⟩ := busRead32_frame hr
    split
    · split
      · refine .traffic he rfl ?_
        simp [hc, hs]
      · exact .traffic he rfl nofun
    · exact .traffic he rfl nofun
  | v0 b u q whenEmpty hs hr =>
    obtain ⟨-, -, -, -, -, -, -, ⟨v, he⟩, -⟩ := readOutboxEmpty_frame hr
    have hq : q ≠ .idle ∧ whenEmpty ≠ .idle := by
      rcases hs with ⟨-, rfl, rfl⟩ | ⟨-, rfl, rfl⟩ | ⟨-, rfl, rfl⟩
      · exact ⟨nofun, nofun⟩
      · exact ⟨nofun, nofun⟩
      · exact ⟨nofun, pumpIdle_ne_idle _⟩
    refine .traffic he rfl ?_
    rw [State.goto_core_seq]
    split
    · exact hq.2
    · exact hq.1
  | v1 u q hs hr =>
    obtain ⟨v, -, hc, -, -, -, -, -, he, -⟩ := loadRxData_frame hr
    refine .traffic he rfl ?_
    rw [hc]
    rcases hs with ⟨-, rfl⟩ | ⟨-, rfl⟩ | ⟨-, rfl⟩ <;> nofun
  | v2 u q hs hr =>
    obtain ⟨v, -, hc, -, -, -, -, -, he, -⟩ := loadRxHeader_frame hr
    refine .traffic he rfl ?_
    rw [hc]
    rcases hs with ⟨-, rfl⟩ | ⟨-, rfl⟩ | ⟨-, rfl⟩ <;> nofun
  | v3 q hs =>
    refine .traffic rfl rfl ?_
    rcases hs with ⟨-, rfl⟩ | ⟨-, rfl⟩ | ⟨-, rfl⟩ <;> nofun
  | p0 onHit onMiss hs =>
    have hq : onHit ≠ .idle ∧ onMiss ≠ .idle := by
      rcases hs with ⟨-, rfl, rfl⟩ | ⟨-, rfl, rfl⟩ | ⟨-, rfl, rfl⟩ <;> exact ⟨nofun, nofun⟩
    unfold lookupEndpoint
    split
    · exact .traffic rfl rfl hq.1
    · exact .silent rfl hq.2
  | p1 onRefused whenHandled hs =>
    rcases takeAnswer_cases whenHandled onRefused s with ⟨-, ht⟩ | ht | ht <;> rw [ht]
    · refine .silent rfl ?_
      rcases hs with ⟨hs, -⟩ | ⟨hs, -⟩ | ⟨hs, -⟩ <;> rw [hs] <;> nofun
    · rcases hs with ⟨hs, -, rfl⟩ | ⟨hs, -, rfl⟩ | ⟨hs, -, rfl⟩ <;> rw [CoreState.current, hs] at hi <;> cases hi
      · exact .completes .handled none rfl rfl rfl (by decide)
      · exact .completes .handled none rfl rfl rfl (by decide)
      · exact .silent rfl nofun
    · refine .silent rfl ?_
      rcases hs with ⟨-, rfl, -⟩ | ⟨-, rfl, -⟩ | ⟨-, rfl, -⟩ <;> nofun
  | p2 e hs => exact .traffic rfl rfl nofun
  | a0 id g hs =>
    rw [CoreState.current, hs] at hi
    cases hi
    exact .completes .done none rfl rfl rfl (by decide)
  | bootDone hs =>
    rw [CoreState.current, hs] at hi
    cases hi
    exact .completes .done none rfl rfl rfl (by decide)
  | done e hs hb hr =>
    rw [CoreState.current, hs] at hi
    exact .completes e.status (endingFrame e s) rfl rfl (statusAllowed_of_ending hi (hs ▸ hok)) (endingFrame_isSome e s)

/-- Settles O56: an event of the command shows traffic or the completion, and the invariant excludes the endings
that the parameters do not allow. -/
theorem completionStatusesAreThoseOfTheCommand : Obligations.CompletionStatusesAreThoseOfTheCommand := by
  unfold Obligations.CompletionStatusesAreThoseOfTheCommand
  intro s t i hinv hi h
  cases (commandEvent_of_exec hi h).showsHost hi hinv.ending with
  | goesOn added he hadded hq =>
    have hnone (st f) : Event.complete st f ∉ added := fun hmem => nomatch hadded _ hmem
    exact ⟨added, he, ⟨fun hidle => absurd hidle hq, fun ⟨st, f, hmem⟩ => absurd hmem (hnone st f)⟩,
      fun st f hmem => absurd hmem (hnone st f)⟩
  | completes st f he hq hst hf =>
    refine ⟨[.complete st f], he, ⟨fun _ => ⟨st, f, List.mem_singleton_self _⟩, fun _ => hq⟩,
      fun st' f' hmem => ?_⟩
    cases List.mem_singleton.mp hmem
    exact ⟨hst, hf⟩

end Sys2Proof.Machine

/-! SUPPORT. PUMP_ONCE against RECV then DISPATCH (O60): a run as a sum of parts, the receive part and the dispatch part
said once for both commands that have them. -/
namespace Sys2Proof.Machine

/-! ### What HOST may offer -/

/-- The word of a well-formed command other than BOOT is taken once the core has booted (R349). -/
theorem hostMisuse_encode {p : Params} {i : Instr} (hi : i.wf p = true) (hop : commandOp i ≠ none)
    (hboot : i ≠ .boot) (started : Bool) : hostMisuse p true started (encode p i) = none := by
  have hd := decodePort_encode hi
  cases i
  case boot => exact absurd rfl hboot
  case read32 | write32 | read64 | write64 => exact absurd rfl hop
  all_goals
    simp only [encode, decodePort] at hd
    simp only [encode, hostMisuse, hd]
    simp

/-- The core takes the word of such a command and runs it. -/
theorem step_takes {s : State} {i : Instr} {rest : List PortWord} (hw : s.params.wf = true) (hm : nextMove s = .core)
    (hs : s.core.seq = .idle) (hr : s.ports.requests = encode s.params i :: rest) (hi : i.wf s.params = true)
    (hop : commandOp i ≠ none) (hboot : i ≠ .boot) (hb : s.params.strictHost = true → s.core.booted = true) :
    step s = exec i s.popMove.popRequest := by
  have hf : refusedWord s (encode s.params i) = none := by
    unfold refusedWord
    split
    · rename_i hstrict
      rw [hb hstrict, hostMisuse_encode hi hop hboot]
    · rfl
  rw [step_eq_coreMove hw hm, coreMove_takes (s := s.popMove) hs hr hf (decodePort_encode hi)]
  simp [State.popRequest, hr]

/-! ### Parts of a run -/

/-- `n` steps lead from `s` to `t`: the core and PEER become what is said, the events said are appended, `n` moves are off
the schedule, and parameters and HOST's words are as before. -/
structure Leads (n : Nat) (s t : State) (core : CoreState) (peer : Mailbox) (added : List Event) : Prop where
  run      : ∀ k, Host.Core.run Sys2Proof.core (n + k) s = Host.Core.run Sys2Proof.core k t
  params   : t.params = s.params
  core     : t.core = core
  peer     : t.peer = peer
  requests : t.ports.requests = s.ports.requests
  moves    : t.ports.moves = s.ports.moves.drop n
  events   : t.ports.events = s.ports.events ++ added

theorem nextMove_of_cons {s : State} {m : Move} {ms : List Move} (h : s.ports.moves = m :: ms) : nextMove s = m := by
  rw [nextMove, h, List.headD_cons]

/-- Where a part ends, the move behind it on the schedule is next. -/
theorem Leads.nextMove_eq {n : Nat} {s t : State} {c : CoreState} {x : Mailbox} {as : List Event} (h : Leads n s t c x as)
    {m : Move} {before after : List Move} (hm : s.ports.moves = before ++ m :: after) (hn : before.length = n) :
    nextMove t = m :=
  nextMove_of_cons (by rw [h.moves, hm, List.drop_left' hn])

theorem Leads.trans {m n : Nat} {s t u : State} {c d : CoreState} {x y : Mailbox} {as bs : List Event}
    (h : Leads m s t c x as) (g : Leads n t u d y bs) : Leads (m + n) s u d y (as ++ bs) where
  run k := by rw [Nat.add_assoc, h.run, g.run]
  params := g.params.trans h.params
  core := g.core
  peer := g.peer
  requests := g.requests.trans h.requests
  moves := by rw [g.moves, h.moves, List.drop_drop]
  events := by rw [g.events, h.events, List.append_assoc]

/-- One step that answers is such a part. -/
theorem Leads.of_step {s t : State} {c : CoreState} {x : Mailbox} {as : List Event} (hstep : step s = .next t)
    (hp : t.params = s.params) (hc : t.core = c) (hx : t.peer = x) (hr : t.ports.requests = s.ports.requests)
    (hmoves : t.ports.moves = s.ports.moves.tail) (he : t.ports.events = s.ports.events ++ as) : Leads 1 s t c x as where
  run k := by rw [Nat.add_comm, run_next hstep]
  params := hp
  core := hc
  peer := hx
  requests := hr
  moves := by rw [hmoves, List.drop_one]
  events := he

/-- So is a move of the core. -/
theorem Leads.of_coreMove {s t : State} {c : CoreState} {x : Mailbox} {as : List Event} (hw : s.params.wf = true)
    (hm : nextMove s = .core) (ht : coreMove s.popMove = .next t) (hb : s.popMove.Becomes t c x as) :
    Leads 1 s t c x as := by
  obtain ⟨hp, hc, hx, hr, hmoves, -, -, he⟩ := hb
  exact .of_step ((step_eq_coreMove hw hm).trans ht) hp hc hx hr hmoves he

/-! ### The receive part (R196) -/

/-- The bus and trace events of the receive part on a frame, `v` the value of the status read. -/
def receiveEvents (p : Params) (v : CtrlValue) (f : Frame) : List Event :=
  [.memRead (regAddr p .outboxCtrl) 4 (v.word.setWidth 64), .memRead (regAddr p .outbox0) 8 f.data,
    .memRead (regAddr p .outbox1) 8 f.header, .trace ⟨.rx, epOf f.header, f⟩]

/-- The phases `q` are those of a receive part that leads to `after` (R196, R221): what the core's move does in each. -/
structure ReceivePart (q : RecvPhase → Seq) (after : Seq) : Prop where
  v0 : ∃ whenEmpty, ∀ s : State, s.core.seq = q .v0 → coreMove s = andThen (readOutboxEmpty s) (fun x =>
    .next (x.2.goto (if x.1 then whenEmpty else q .v1)))
  v1 : ∀ s : State, s.core.seq = q .v1 → coreMove s = loadRxData (q .v2) s
  v2 : ∀ s : State, s.core.seq = q .v2 → coreMove s = loadRxHeader (q .v3) s
  v3 : ∀ s : State, s.core.seq = q .v3 → coreMove s = .next ((s.traced .rx s.rxFrame).goto after)

theorem receivePart_recv : ReceivePart .recv (.ending .recvFrame) where
  v0 := ⟨.ending .recvNoMessage, fun s hs => by simp only [coreMove, CoreState.current, hs, exec, execRecv]⟩
  v1 s hs := by simp only [coreMove, CoreState.current, hs, exec, execRecv]
  v2 s hs := by simp only [coreMove, CoreState.current, hs, exec, execRecv]
  v3 s hs := by simp only [coreMove, CoreState.current, hs, exec, execRecv]

theorem receivePart_pumpOnce : ReceivePart (fun v => .pumpOnce (.recv v)) (.pumpOnce (.disp .p0)) where
  v0 := ⟨.ending .pumpOnceIdle, fun s hs => by simp only [coreMove, CoreState.current, hs, exec, execPumpOnce]⟩
  v1 s hs := by simp only [coreMove, CoreState.current, hs, exec, execPumpOnce]
  v2 s hs := by simp only [coreMove, CoreState.current, hs, exec, execPumpOnce]
  v3 s hs := by simp only [coreMove, CoreState.current, hs, exec, execPumpOnce]


/-- What the status read of the receive part returns in the closed form. -/
def State.statusRead (s : State) : CtrlValue := outboxCtrlValue s (s.drawn.extractLsb' 0 32)

/-- The status read with a frame in the outbox. -/
theorem readOutboxEmpty_frameThere {s : State} {f : Frame} {queue : List Frame} (hw : s.params.wf = true)
    (hclosed : s.params.openForm = false) (hout : s.peer.outQ = f :: queue) :
    ∃ d, readOutboxEmpty s = .next (false,
      (s.advanceDraws 1).readDone (regAddr s.params .outboxCtrl) 4 (s.statusRead.word.setWidth 64) d) := by
  rw [readOutboxEmpty, busRead32, resolve_outboxCtrl hw]
  simp [hclosed, closedRead32, regReadable, outboxEmpty, hout, State.statusRead]

section
variable {q : RecvPhase → Seq} {after : Seq} (hpart : ReceivePart q after) {s : State} {f : Frame} {queue : List Frame}
  (hw : s.params.wf = true) (hclosed : s.params.openForm = false) (hm : nextMove s = .core)
include hpart hw hm

theorem ReceivePart.leads_v3 (hs : s.core.seq = q .v3) :
    ∃ t, Leads 1 s t { s.core with seq := after } s.peer [.trace ⟨.rx, epOf s.core.rxHeader, s.rxFrame⟩] :=
  ⟨_, .of_coreMove hw hm (hpart.v3 s.popMove hs) ⟨rfl, rfl, rfl, rfl, rfl, rfl, rfl, rfl⟩⟩

include hclosed

theorem ReceivePart.leads_v0 (hs : s.core.seq = q .v0) (hout : s.peer.outQ = f :: queue) :
    ∃ t, Leads 1 s t { s.core with seq := q .v1 } s.peer
      [.memRead (regAddr s.params .outboxCtrl) 4 (s.statusRead.word.setWidth 64)] := by
  obtain ⟨whenEmpty, hv0⟩ := hpart.v0
  obtain ⟨d, hread⟩ := readOutboxEmpty_frameThere (s := s.popMove) hw hclosed hout
  have hstep := hv0 s.popMove hs
  rw [hread] at hstep
  exact ⟨_, .of_coreMove hw hm hstep ⟨rfl, rfl, rfl, rfl, rfl, rfl, rfl, rfl⟩⟩

theorem ReceivePart.leads_v1 (hs : s.core.seq = q .v1) (hout : s.peer.outQ = f :: queue) :
    ∃ t, Leads 1 s t { s.core with rxData := f.data, seq := q .v2 } s.peer
      [.memRead (regAddr s.params .outbox0) 8 f.data] := by
  obtain ⟨t, ht⟩ := loadRxData_answers (s := s.popMove) hw hclosed (q .v2)
  obtain ⟨v, hp, hc, hx, hr, hmoves, hreq, hans, he, hv⟩ := loadRxData_frame ht
  obtain rfl : v = f.data := by rw [hv hw hclosed, outboxHead_cons (s := s.popMove) hout]
  exact ⟨t, .of_coreMove hw hm ((hpart.v1 s.popMove hs).trans ht) ⟨hp, hc, hx, hr, hmoves, hreq, hans, he⟩⟩

theorem ReceivePart.leads_v2 (hs : s.core.seq = q .v2) (hout : s.peer.outQ = f :: queue) :
    ∃ t, Leads 1 s t { s.core with rxHeader := f.header, seq := q .v3 } { s.peer with outQ := queue }
      [.memRead (regAddr s.params .outbox1) 8 f.header] := by
  obtain ⟨t, ht⟩ := loadRxHeader_answers (s := s.popMove) hw hclosed (q .v3)
  obtain ⟨v, hp, hc, hx, hr, hmoves, hreq, hans, he, hv⟩ := loadRxHeader_frame ht
  obtain rfl : v = f.header := by rw [hv hclosed, outboxHead_cons (s := s.popMove) hout]
  have hx' : t.peer = { s.peer with outQ := queue } := by simpa [hclosed, hout] using hx
  exact ⟨t, .of_coreMove hw hm ((hpart.v2 s.popMove hs).trans ht) ⟨hp, hc, hx', hr, hmoves, hreq, hans, he⟩⟩

end

/-- The receive part on a frame: four events of the core move it from the outbox to the holding registers. -/
theorem ReceivePart.leads {q : RecvPhase → Seq} {after : Seq} (hpart : ReceivePart q after) {s : State} {f : Frame}
    {queue : List Frame} {ms : List Move} (hw : s.params.wf = true) (hclosed : s.params.openForm = false)
    (hs : s.core.seq = q .v0) (hout : s.peer.outQ = f :: queue)
    (hm : s.ports.moves = .core :: .core :: .core :: .core :: ms) :
    ∃ t, Leads 4 s t { s.core with rxData := f.data, rxHeader := f.header, seq := after }
      { s.peer with outQ := queue } (receiveEvents s.params s.statusRead f) := by
  obtain ⟨t0, l0⟩ := hpart.leads_v0 hw hclosed (nextMove_of_cons hm) hs hout
  have hp0 := l0.params
  obtain ⟨t1, l1⟩ := hpart.leads_v1 (s := t0) (hp0 ▸ hw) (hp0 ▸ hclosed)
    (l0.nextMove_eq (before := [.core]) hm rfl)
    (by rw [l0.core]) (by rw [l0.peer, hout])
  have l01 := l0.trans l1
  have hp1 := l01.params
  obtain ⟨t2, l2⟩ := hpart.leads_v2 (s := t1) (hp1 ▸ hw) (hp1 ▸ hclosed)
    (l01.nextMove_eq (before := [.core, .core]) hm rfl)
    (by rw [l01.core]) (by rw [l01.peer, l0.peer, hout])
  have l02 := l01.trans l2
  obtain ⟨t3, l3⟩ := hpart.leads_v3 (s := t2) (l02.params ▸ hw)
    (l02.nextMove_eq (before := [.core, .core, .core]) hm rfl)
    (by rw [l02.core])
  refine ⟨t3, ?_⟩
  have l03 := l02.trans l3
  simpa [State.rxFrame, l0.core, l1.core, l2.core, l0.peer, l1.peer, l2.peer, hp0, hp1, receiveEvents] using l03

/-! ### The dispatch part (R207) -/

/-- The phases `q` are those of a dispatch part that an answer of 1 completes with `HANDLED` and that otherwise ends with
`e` (R207, R221): what the core's move does in each. -/
structure DispatchPart (q : DispPhase → Seq) (e : Ending) : Prop where
  p0     : ∀ s : State, s.core.seq = q .p0 → coreMove s = .next (lookupEndpoint (q .p1) (q .p2) s)
  p1     : ∀ s : State, s.core.seq = q .p1 →
    coreMove s = .next (takeAnswer (fun t => t.complete .handled none) (q .p2) s)
  p2     : ∀ s : State, s.core.seq = q .p2 → coreMove s = .next (reportUnknown e s)
  ending : ∀ s : State, s.core.seq = .ending e → coreMove s = .next (s.complete .unhandled none)

theorem dispatchPart_dispatch : DispatchPart .dispatch .dispatchUnhandled where
  p0 s hs := by simp only [coreMove, CoreState.current, hs, exec, execDispatch]
  p1 s hs := by simp only [coreMove, CoreState.current, hs, exec, execDispatch]
  p2 s hs := by simp only [coreMove, CoreState.current, hs, exec, execDispatch]
  ending s hs := by simp only [coreMove, CoreState.current, CoreState.endingInstr, hs, exec, execDispatch]; rfl

theorem dispatchPart_pumpOnce : DispatchPart (fun p => .pumpOnce (.disp p)) .pumpOnceUnhandled where
  p0 s hs := by simp only [coreMove, CoreState.current, hs, exec, execPumpOnce]
  p1 s hs := by simp only [coreMove, CoreState.current, hs, exec, execPumpOnce]
  p2 s hs := by simp only [coreMove, CoreState.current, hs, exec, execPumpOnce]
  ending s hs := by simp only [coreMove, CoreState.current, CoreState.endingInstr, hs, exec, execPumpOnce]; rfl

/-- The events of a frame that no endpoint handles. -/
def unhandledEvents (f : Frame) : List Event :=
  [.trace ⟨.unknown, epOf f.header, f⟩, .complete .unhandled none]

/-- The events of the dispatch part on the frame in the receive registers, an endpoint asked answering `b`. -/
def CoreState.dispatchEvents (c : CoreState) (b : Bool) : List Event :=
  match eptLookup c.ept (epOf c.rxHeader) with
  | some h => .epCall ⟨h, c.rxHeader, c.rxData⟩ ::
      if b then [.complete .handled none] else unhandledEvents ⟨c.rxData, c.rxHeader⟩
  | none   => unhandledEvents ⟨c.rxData, c.rxHeader⟩

/-- The core after the dispatch part: idle, the answer of an endpoint asked in `HND`. -/
def CoreState.dispatched (c : CoreState) (b : Bool) : CoreState :=
  { c with seq := .idle, hnd := if (eptLookup c.ept (epOf c.rxHeader)).isSome then b else c.hnd }

theorem endpointAnswer_frame (b : Bool) (s : State) :
    (endpointAnswer b s).params = s.params ∧ (endpointAnswer b s).core = s.core ∧ (endpointAnswer b s).peer = s.peer ∧
      (endpointAnswer b s).ports.requests = s.ports.requests ∧ (endpointAnswer b s).ports.moves = s.ports.moves ∧
      (endpointAnswer b s).ports.events = s.ports.events := by
  unfold endpointAnswer
  split <;> exact ⟨rfl, rfl, rfl, rfl, rfl, rfl⟩

/-- An endpoint's move is a part that neither the core nor PEER sees. -/
theorem Leads.of_answer {s : State} {b : Bool} (hw : s.params.wf = true) (hm : nextMove s = .answer b) :
    Leads 1 s (endpointAnswer b s.popMove) s.core s.peer [] := by
  have hstep : step s = .next (endpointAnswer b s.popMove) := by rw [step_of_wf hw, hm]; rfl
  obtain ⟨hp, hc, hx, hr, hmoves, he⟩ := endpointAnswer_frame b s.popMove
  exact .of_step hstep hp hc hx hr hmoves (by rw [he, List.append_nil]; rfl)

/-- An idle core with nothing offered does nothing. -/
theorem Leads.of_idle {s : State} (hw : s.params.wf = true) (hm : nextMove s = .core) (hs : s.core.seq = .idle)
    (hr : s.ports.requests = []) : Leads 1 s s.popMove s.core s.peer [] :=
  .of_coreMove hw hm (coreMove_nothing (s := s.popMove) hs hr)
    ⟨rfl, rfl, rfl, rfl, rfl, rfl, rfl, (List.append_nil _).symm⟩

/-- Two steps in which an idle core with nothing offered does nothing. -/
theorem leads_idle_twice {s : State} {ms : List Move} (hw : s.params.wf = true)
    (hm : s.ports.moves = .core :: .core :: ms) (hs : s.core.seq = .idle) (hr : s.ports.requests = []) :
    ∃ t, Leads 2 s t s.core s.peer [] :=
  ⟨_, (Leads.of_idle hw (nextMove_of_cons hm) hs hr).trans
    (.of_idle hw (nextMove_of_cons (by rw [popMove_moves, hm]; rfl)) hs hr)⟩

section
variable {q : DispPhase → Seq} {e : Ending} (hpart : DispatchPart q e) {s : State} {b : Bool} {ms : List Move}
  (hw : s.params.wf = true)
include hpart hw

/-- A frame that no endpoint handles: the unknown trace, then the completion. -/
theorem DispatchPart.leads_unhandled (hm : s.ports.moves = .core :: .core :: ms) (hs : s.core.seq = q .p2) :
    ∃ t, Leads 2 s t { s.core with seq := .idle } s.peer (unhandledEvents s.rxFrame) := by
  have l0 : Leads 1 s (reportUnknown e s.popMove) { s.core with seq := .ending e } s.peer
      [.trace ⟨.unknown, epOf s.rxFrame.header, s.rxFrame⟩] :=
    .of_coreMove hw (nextMove_of_cons hm) (hpart.p2 s.popMove hs) ⟨rfl, rfl, rfl, rfl, rfl, rfl, rfl, rfl⟩
  exact ⟨_, l0.trans (.of_coreMove hw (l0.nextMove_eq (before := [.core]) hm rfl) (hpart.ending _ rfl)
    ⟨rfl, rfl, rfl, rfl, rfl, rfl, rfl, rfl⟩)⟩

/-- A frame with an endpoint: the request, and the answer latched on the port. -/
theorem DispatchPart.leads_request {h : Handle} (hm : s.ports.moves = .core :: .answer b :: ms) (hs : s.core.seq = q .p0)
    (hl : eptLookup s.core.ept (epOf s.core.rxHeader) = some h) :
    ∃ t, Leads 2 s t { s.core with seq := q .p1 } s.peer [.epCall ⟨h, s.core.rxHeader, s.core.rxData⟩] ∧
      t.ports.epAnswer = some b := by
  have hmove := hpart.p0 s.popMove hs
  simp only [lookupEndpoint, popMove_core, hl] at hmove
  have l0 := Leads.of_step ((step_eq_coreMove hw (nextMove_of_cons hm)).trans hmove) rfl rfl rfl rfl rfl rfl
  exact ⟨_, l0.trans (.of_answer hw (l0.nextMove_eq (before := [.core]) hm rfl)), rfl⟩

/-- A frame without an endpoint: nothing is shown, and no answer matters. -/
theorem DispatchPart.leads_noEndpoint (hm : s.ports.moves = .core :: .answer b :: ms) (hs : s.core.seq = q .p0)
    (hl : eptLookup s.core.ept (epOf s.core.rxHeader) = none) :
    ∃ t, Leads 2 s t { s.core with seq := q .p2 } s.peer [] := by
  have l0 : Leads 1 s (s.popMove.goto (q .p2)) { s.core with seq := q .p2 } s.peer [] := by
    refine .of_coreMove hw (nextMove_of_cons hm) ((hpart.p0 s.popMove hs).trans ?_)
      ⟨rfl, rfl, rfl, rfl, rfl, rfl, rfl, (List.append_nil _).symm⟩
    simp [lookupEndpoint, hl]
  exact ⟨_, l0.trans (.of_answer hw (l0.nextMove_eq (before := [.core]) hm rfl))⟩

/-- An answer of 1: the completion. -/
theorem DispatchPart.leads_handled (hm : nextMove s = .core) (hs : s.core.seq = q .p1)
    (hans : s.ports.epAnswer = some true) :
    ∃ t, Leads 1 s t { s.core with hnd := true, seq := .idle } s.peer [.complete .handled none] := by
  have hmove := hpart.p1 s.popMove hs
  simp only [takeAnswer, popMove_epAnswer, hans] at hmove
  exact ⟨_, .of_step ((step_eq_coreMove hw hm).trans hmove) rfl rfl rfl rfl rfl rfl⟩

/-- An answer of 0: nothing is shown. -/
theorem DispatchPart.leads_refused (hm : nextMove s = .core) (hs : s.core.seq = q .p1)
    (hans : s.ports.epAnswer = some false) :
    ∃ t, Leads 1 s t { s.core with hnd := false, seq := q .p2 } s.peer [] := by
  have hmove := hpart.p1 s.popMove hs
  simp only [takeAnswer, popMove_epAnswer, hans] at hmove
  exact ⟨_, .of_step ((step_eq_coreMove hw hm).trans hmove) rfl rfl rfl rfl rfl (List.append_nil _).symm⟩

/-- The dispatch part, the endpoint asked answering at once: five steps, of which a frame that is handled or that has no
endpoint needs fewer. -/
theorem DispatchPart.leads (hm : s.ports.moves = [.core, .answer b, .core, .core, .core]) (hs : s.core.seq = q .p0)
    (hr : s.ports.requests = []) :
    ∃ t, Leads 5 s t (s.core.dispatched b) s.peer (s.core.dispatchEvents b) := by
  cases hl : eptLookup s.core.ept (epOf s.core.rxHeader) with
  | none =>
    obtain ⟨t0, l0⟩ := hpart.leads_noEndpoint hw hm hs hl
    have hw0 : t0.params.wf = true := l0.params ▸ hw
    obtain ⟨t1, l1⟩ := hpart.leads_unhandled hw0 (l0.moves.trans (by rw [hm]; rfl)) (by rw [l0.core])
    have l01 := l0.trans l1
    have l2 := Leads.of_idle (s := t1) (l01.params ▸ hw)
      (l01.nextMove_eq (before := [.core, .answer b, .core, .core]) hm rfl)
      (by rw [l01.core]) (l01.requests.trans hr)
    refine ⟨t1.popMove, ?_⟩
    simpa [CoreState.dispatched, CoreState.dispatchEvents, hl, State.rxFrame, l0.core, l0.peer, l1.core, l1.peer] using
      l01.trans l2
  | some h =>
    obtain ⟨t0, l0, hans⟩ := hpart.leads_request hw hm hs hl
    have hw0 : t0.params.wf = true := l0.params ▸ hw
    have hm0 := l0.nextMove_eq (before := [.core, .answer b]) hm rfl
    have hs0 : t0.core.seq = q .p1 := by rw [l0.core]
    cases b with
    | true =>
      obtain ⟨t1, l1⟩ := hpart.leads_handled hw0 hm0 hs0 hans
      have l01 := l0.trans l1
      obtain ⟨t2, l2⟩ := leads_idle_twice (s := t1) (l01.params ▸ hw) (l01.moves.trans (by rw [hm]; rfl))
        (by rw [l01.core]) (l01.requests.trans hr)
      refine ⟨t2, ?_⟩
      simpa [CoreState.dispatched, CoreState.dispatchEvents, hl, l0.core, l0.peer, l1.core, l1.peer] using l01.trans l2
    | false =>
      obtain ⟨t1, l1⟩ := hpart.leads_refused hw0 hm0 hs0 hans
      have l01 := l0.trans l1
      obtain ⟨t2, l2⟩ := hpart.leads_unhandled (s := t1) (l01.params ▸ hw) (l01.moves.trans (by rw [hm]; rfl))
        (by rw [l01.core])
      refine ⟨t2, ?_⟩
      simpa [CoreState.dispatched, CoreState.dispatchEvents, hl, State.rxFrame, l0.core, l0.peer, l1.core, l1.peer] using
        l01.trans l2

end

/-! ### The two runs (R136, R221) -/

theorem exec_pumpOnce_idle {s : State} (hs : s.core.seq = .idle) :
    exec .pumpOnce s = .next (s.accept .pumpOnce (.pumpOnce (.recv .v0))) := by simp only [exec, execPumpOnce, hs]

theorem exec_recv_idle {s : State} (hs : s.core.seq = .idle) : exec .recv s = .next (s.accept .recv (.recv .v0)) := by
  simp only [exec, execRecv, hs]

theorem exec_dispatch_idle {s : State} (d h : Word64) (hs : s.core.seq = .idle) :
    exec (.dispatch d h) s = .next (acceptDispatch d h s) := by simp only [exec, execDispatch, hs]

/-- RECV completes with the frame it received (R196). -/
theorem leads_recvFrame {s : State} (hw : s.params.wf = true) (hm : nextMove s = .core)
    (hs : s.core.seq = .ending .recvFrame) :
    ∃ t, Leads 1 s t { s.core with seq := .idle } s.peer [.complete .frame (some s.rxFrame)] := by
  have hmove : coreMove s.popMove = .next (finish .recvFrame s.popMove) := by
    simp only [coreMove, CoreState.current, CoreState.endingInstr, popMove_core, hs, exec, execRecv]
  exact ⟨_, .of_coreMove hw hm hmove ⟨rfl, rfl, rfl, rfl, rfl, rfl, rfl, rfl⟩⟩

/-- The core with a frame in the receive registers. -/
def CoreState.withFrame (c : CoreState) (f : Frame) : CoreState := { c with rxData := f.data, rxHeader := f.header }

/-- PUMP_ONCE offered, an endpoint answering `b` right after a request; moves for the longest of its runs. -/
def State.offerPumpOnce (s : State) (b : Bool) : State :=
  { s with
    ports.requests := [encode s.params .pumpOnce]
    ports.moves    := List.replicate 6 Move.core ++ [.answer b, .core, .core, .core] }

/-- RECV and DISPATCH of `f` offered likewise. -/
def State.offerRecvDispatch (s : State) (f : Frame) (b : Bool) : State :=
  { s with
    ports.requests := [encode s.params .recv, encode s.params (.dispatch f.data f.header)]
    ports.moves    := List.replicate 8 Move.core ++ [.answer b, .core, .core, .core] }

section
variable {s : State} {f : Frame} {queue : List Frame} (b : Bool) (hw : s.params.wf = true)
  (hclosed : s.params.openForm = false) (hb : s.params.strictHost = true → s.core.booted = true)
  (hs : s.core.seq = .idle) (hout : s.peer.outQ = f :: queue)
include hw hclosed hb hs hout

/-- PUMP_ONCE: the acceptance, the receive part, the dispatch part. -/
theorem run_pumpOnce :
    ∃ t : State, Host.Core.run Sys2Proof.core 10 (s.offerPumpOnce b) = .next t ∧
      t.core = (s.core.withFrame f).dispatched b ∧ t.peer = { s.peer with outQ := queue } ∧
      t.ports.events = s.ports.events ++ .accept .pumpOnce ::
        (receiveEvents s.params s.statusRead f ++ (s.core.withFrame f).dispatchEvents b) := by
  let a := (s.offerPumpOnce b).popMove.popRequest.accept .pumpOnce (.pumpOnce (.recv .v0))
  have haccept : step (s.offerPumpOnce b) = .next a :=
    (step_takes (s := s.offerPumpOnce b) hw rfl hs rfl rfl nofun nofun hb).trans (exec_pumpOnce_idle hs)
  obtain ⟨r, hrecv⟩ := receivePart_pumpOnce.leads (s := a) hw hclosed rfl hout rfl
  obtain ⟨t, hdisp⟩ := dispatchPart_pumpOnce.leads (s := r) (b := b) (hrecv.params ▸ hw) (hrecv.moves.trans rfl)
    (by rw [hrecv.core]) (hrecv.requests.trans rfl)
  refine ⟨t, ?_, ?_, hdisp.peer.trans hrecv.peer, ?_⟩
  · exact (run_next haccept).trans ((hrecv.trans hdisp).run 0)
  · rw [hdisp.core, hrecv.core]; rfl
  · have hshown : r.core.dispatchEvents b = (s.core.withFrame f).dispatchEvents b := by rw [hrecv.core]; rfl
    have hfirst : a.ports.events = s.ports.events ++ [Event.accept .pumpOnce] := rfl
    have hread : receiveEvents a.params a.statusRead f = receiveEvents s.params s.statusRead f := rfl
    simp [hdisp.events, hrecv.events, hfirst, hread, hshown]

/-- RECV, then DISPATCH of the frame it gave: the receive part with its acceptance and completion, the dispatch part with
its acceptance. -/
theorem run_recv_dispatch :
    ∃ u : State, Host.Core.run Sys2Proof.core 12 (s.offerRecvDispatch f b) = .next u ∧
      u.core = (s.core.withFrame f).dispatched b ∧ u.peer = { s.peer with outQ := queue } ∧
      u.ports.events = s.ports.events ++ .accept .recv ::
        (receiveEvents s.params s.statusRead f ++ .complete .frame (some f) :: .accept (.dispatch f.data f.header) ::
          (s.core.withFrame f).dispatchEvents b) := by
  let a := (s.offerRecvDispatch f b).popMove.popRequest.accept .recv (.recv .v0)
  have haccept : step (s.offerRecvDispatch f b) = .next a :=
    (step_takes (s := s.offerRecvDispatch f b) hw rfl hs rfl rfl nofun nofun hb).trans (exec_recv_idle hs)
  obtain ⟨r, hrecv⟩ := receivePart_recv.leads (s := a) hw hclosed rfl hout rfl
  obtain ⟨v, hlast⟩ := leads_recvFrame (s := r) (hrecv.params ▸ hw) (nextMove_of_cons (hrecv.moves.trans rfl))
    (by rw [hrecv.core])
  have hdone := hrecv.trans hlast
  have hidle : v.core.seq = .idle := by rw [hdone.core]
  let d := acceptDispatch f.data f.header v.popMove.popRequest
  have hreq : v.ports.requests = [encode v.params (.dispatch f.data f.header)] := by
    rw [hdone.requests, hdone.params]; rfl
  have haccept' : step v = .next d :=
    (step_takes (hdone.params ▸ hw) (nextMove_of_cons (hdone.moves.trans rfl)) hidle hreq rfl nofun nofun
      (by rw [hdone.params, hdone.core, hrecv.core]; exact hb)).trans (exec_dispatch_idle _ _ hidle)
  obtain ⟨u, hdisp⟩ := dispatchPart_dispatch.leads (s := d) (b := b) (hdone.params ▸ hw)
    (congrArg List.tail (hdone.moves.trans rfl)) rfl (congrArg List.tail hreq)
  have hcore : d.core = { s.core.withFrame f with seq := .dispatch .p0 } := by
    show ({ v.core with rxData := f.data, rxHeader := f.header, seq := .dispatch .p0 } : CoreState) = _
    rw [hdone.core, hrecv.core]; rfl
  refine ⟨u, ?_, ?_, ?_, ?_⟩
  · calc Host.Core.run Sys2Proof.core 12 (s.offerRecvDispatch f b)
      _ = Host.Core.run Sys2Proof.core 11 a := run_next haccept
      _ = Host.Core.run Sys2Proof.core 6 v := hdone.run 6
      _ = Host.Core.run Sys2Proof.core 5 d := run_next haccept'
      _ = .next u := hdisp.run 0
  · rw [hdisp.core, hcore]; rfl
  · exact hdisp.peer.trans (hdone.peer.trans hrecv.peer)
  · have hframe : r.rxFrame = f := by rw [State.rxFrame, hrecv.core]
    have hfirst : a.ports.events = s.ports.events ++ [Event.accept .recv] := rfl
    have hsecond : d.ports.events = v.ports.events ++ [Event.accept (.dispatch f.data f.header)] := rfl
    have hread : receiveEvents a.params a.statusRead f = receiveEvents s.params s.statusRead f := rfl
    have hshown : d.core.dispatchEvents b = (s.core.withFrame f).dispatchEvents b := by rw [hcore]; rfl
    simp [hdisp.events, hsecond, hdone.events, hfirst, hread, hframe, hshown]

end

/-- Settles O60: both runs are a receive part and a dispatch part on the same frame, and what RECV and DISPATCH add between
and around them is no traffic. -/
theorem pumpOnceIsRecvThenDispatch : Obligations.PumpOnceIsRecvThenDispatch := by
  unfold Obligations.PumpOnceIsRecvThenDispatch
  intro s f queue b hw hclosed hb hs hout
  obtain ⟨t, hrun, hcore, hpeer, hevents⟩ := run_pumpOnce b hw hclosed hb hs hout
  obtain ⟨u, hrun', hcore', hpeer', hevents'⟩ := run_recv_dispatch b hw hclosed hb hs hout
  refine ⟨t, u, hrun, hrun', ?_, hcore.trans hcore'.symm, hpeer.trans hpeer'.symm, by rw [hcore]; rfl⟩
  simp [State.traffic, hevents, hevents', Event.isTraffic]

end Sys2Proof.Machine

/-! SUPPORT. The four primitives as instructions (40_register_access.md): what each answers at every register (O30 to O33),
and the two field accessors, which act at the register's width (O34). -/

namespace Sys2Proof.Machine

/-! ### A primitive as an instruction answers what its transaction answers -/

theorem exec_read32 (a : Nat) (s : State) : exec (.read32 a) s = andThen (busRead32 a s) (fun x => .next x.2) := rfl

theorem exec_read64 (a : Nat) (s : State) : exec (.read64 a) s = andThen (busRead64 a s) (fun x => .next x.2) := rfl

theorem exec_write32 (a : Nat) (v : Word32) (s : State) : exec (.write32 a v) s = busWrite32 a v s := rfl

theorem exec_write64 (a : Nat) (v : Word64) (s : State) : exec (.write64 a v) s = busWrite64 a v s := rfl

/-! ### The accesses that are refused in either form (R79, R80, R261) -/

theorem exec_read32_unreadable {s : State} (hw : s.params.wf = true) {r : Reg} (hwidth : regWidth r = 4)
    (hr : regReadable r = false) : exec (.read32 (regAddr s.params r)) s = .refused (.unreadable r) := by
  rw [exec_read32, busRead32, ← hwidth, resolve_reg hw]
  simp [hr]

theorem exec_read64_unreadable {s : State} (hw : s.params.wf = true) {r : Reg} (hwidth : regWidth r = 8)
    (hr : regReadable r = false) : exec (.read64 (regAddr s.params r)) s = .refused (.unreadable r) := by
  rw [exec_read64, busRead64, ← hwidth, resolve_reg hw]
  simp [hr]

theorem exec_write32_unwritable {s : State} (hw : s.params.wf = true) {r : Reg} (hwidth : regWidth r = 4)
    (hr : r ≠ .cpuControl) (v : Word32) : exec (.write32 (regAddr s.params r) v) s = .refused (.unwritable r) := by
  rw [exec_write32, busWrite32, ← hwidth, resolve_reg hw]
  cases r
  case cpuControl => exact absurd rfl hr
  all_goals rfl

theorem exec_write64_unwritable {s : State} (hw : s.params.wf = true) {r : Reg} (hwidth : regWidth r = 8)
    (hr0 : r ≠ .inbox0) (hr1 : r ≠ .inbox1) (v : Word64) :
    exec (.write64 (regAddr s.params r) v) s = .refused (.unwritable r) := by
  rw [exec_write64, busWrite64, ← hwidth, resolve_reg hw]
  cases r
  case inbox0 => exact absurd rfl hr0
  case inbox1 => exact absurd rfl hr1
  all_goals rfl

/-! ### READ32 (R151) -/

/-- Of any 32-bit read that answers: the value stands in `rdata[31:0]` (R130). -/
theorem busRead32_rdata {a : Nat} {s t : State} {v : CtrlValue} (h : busRead32 a s = .next (v, t)) :
    t.ports.rdata.extractLsb' 0 32 = v.word := by
  unfold busRead32 at h
  split at h
  · cases h
  · split at h
    · cases h
    split at h
    · cases h
      rw [word_ofWord]
      rfl
    · rename_i r _ _ _
      cases r
      case inboxCtrl => cases h; exact BitVec.extractLsb'_append_eq_right
      case outboxCtrl => cases h; exact BitVec.extractLsb'_append_eq_right
      all_goals cases h

/-- READ32 of a control register, in either form. -/
theorem exec_read32_ctrl {s : State} (hw : s.params.wf = true) {r : Reg} (hr : r = .inboxCtrl ∨ r = .outboxCtrl) :
    ∃ (v : Word32) (t : State), exec (.read32 (regAddr s.params r)) s = .next t ∧
      s.Becomes t s.core s.peer [.memRead (regAddr s.params r) 4 (v.setWidth 64)] ∧
      t.ports.rdata.extractLsb' 0 32 = v ∧
      (s.params.openForm = false → r = .inboxCtrl → v[16] = inboxFull s ∧ v[17] = inboxEmpty s) ∧
      (s.params.openForm = false → r = .outboxCtrl → v[16] = outboxFull s ∧ v[17] = outboxEmpty s) := by
  obtain ⟨v, t, hread, hp, hc, hx, hreq, hmoves, hep, hans, he, -, hin, hout⟩ := busRead32_ctrl hw r hr
  refine ⟨v.word, t, by rw [exec_read32, hread, andThen_next], ⟨hp, hc, hx, hreq, hmoves, hep, hans, he⟩,
    busRead32_rdata hread, ?_, ?_⟩
  · rwa [word_at16, word_at17]
  · rwa [word_at16, word_at17]

/-- Settles O30: the flag bits of the value are those of the register's queue. -/
theorem read32ReturnsTheControlRegister : Obligations.Read32ReturnsTheControlRegister := by
  unfold Obligations.Read32ReturnsTheControlRegister
  intro s hw
  refine ⟨?inbox, ?outbox, exec_read32_unreadable hw (r := .cpuControl) rfl rfl⟩
  case inbox =>
    obtain ⟨v, t, hexec, hbecomes, hrdata, hflags, -⟩ := exec_read32_ctrl hw (r := .inboxCtrl) (.inl rfl)
    exact ⟨v, t, hexec, hbecomes, hrdata, fun hclosed => hflags hclosed rfl⟩
  case outbox =>
    obtain ⟨v, t, hexec, hbecomes, hrdata, -, hflags⟩ := exec_read32_ctrl hw (r := .outboxCtrl) (.inr rfl)
    exact ⟨v, t, hexec, hbecomes, hrdata, fun hclosed => hflags hclosed rfl⟩

/-! ### READ64 (R153) -/

/-- READ64 of `OUTBOX0` shows the data of the head (R254), or a draw for it (R259), and removes nothing. -/
theorem exec_read64_outbox0 {s : State} (hw : s.params.wf = true) (hclosed : s.params.openForm = false) :
    exec (.read64 (regAddr s.params .outbox0)) s = .next
      ((s.advanceDraws 1).readDone (regAddr s.params .outbox0) 8 (outboxHead s).data (outboxHead s).data) := by
  rw [exec_read64, busRead64_outbox0 hw hclosed, andThen_next]

/-- READ64 of `OUTBOX1` shows the header of the head, or a draw for it, and removes the head (R255, D18). -/
theorem exec_read64_outbox1 {s : State} (hw : s.params.wf = true) (hclosed : s.params.openForm = false) :
    exec (.read64 (regAddr s.params .outbox1)) s = .next
      { (s.advanceDraws 1).readDone (regAddr s.params .outbox1) 8 (outboxHead s).header (outboxHead s).header with
        peer.outQ := s.peer.outQ.tail } := by
  rw [exec_read64, busRead64_outbox1 hw hclosed, andThen_next]

/-- Settles O32: both values are those of `outboxHead`, the head of an outbox that is not empty. -/
theorem read64OfTheOutboxConsumesOnTheHeader : Obligations.Read64OfTheOutboxConsumesOnTheHeader := by
  unfold Obligations.Read64OfTheOutboxConsumesOnTheHeader
  intro s hw
  refine ⟨fun hclosed => ?data, fun hclosed => ?header,
    exec_read64_unreadable hw (r := .inbox0) rfl rfl, exec_read64_unreadable hw (r := .inbox1) rfl rfl⟩
  case data =>
    exact ⟨(outboxHead s).data, _, exec_read64_outbox0 hw hclosed, ⟨rfl, rfl, rfl, rfl, rfl, rfl, rfl, rfl⟩, rfl,
      fun f rest hout => congrArg Frame.data (outboxHead_cons hout)⟩
  case header =>
    exact ⟨(outboxHead s).header, _, exec_read64_outbox1 hw hclosed, ⟨rfl, rfl, rfl, rfl, rfl, rfl, rfl, rfl⟩, rfl,
      fun f rest hout => congrArg Frame.header (outboxHead_cons hout)⟩

/-! ### WRITE32 (R152) and WRITE64 (R154) -/

/-- Settles O31: in the closed form `writeCpuControl` deposits the whole value. -/
theorem write32DepositsCpuControl : Obligations.Write32DepositsCpuControl := by
  unfold Obligations.Write32DepositsCpuControl
  intro s v hw
  refine ⟨fun hclosed => ?cpu, exec_write32_unwritable hw (r := .inboxCtrl) rfl nofun v,
    exec_write32_unwritable hw (r := .outboxCtrl) rfl nofun v⟩
  case cpu =>
    have hwrite := busWrite32_cpuControl hw v
    rw [hclosed] at hwrite
    exact hwrite

/-- Settles O33: the closed branches of the two writes of the inbox pair. -/
theorem write64OfTheInboxCommitsOnTheHeader : Obligations.Write64OfTheInboxCommitsOnTheHeader := by
  unfold Obligations.Write64OfTheInboxCommitsOnTheHeader
  intro s v hw
  refine ⟨fun hclosed => ?latch, fun hclosed hroom => ?commit,
    exec_write64_unwritable hw (r := .outbox0) rfl nofun nofun v,
    exec_write64_unwritable hw (r := .outbox1) rfl nofun nofun v⟩
  case latch =>
    have hwrite := busWrite64_inbox0 hw v
    rw [hclosed] at hwrite
    exact hwrite
  case commit =>
    have hwrite := busWrite64_inbox1 hw v fun _ => hroom
    rw [hclosed] at hwrite
    exact hwrite

/-! ### The two field accessors (R155, R156) -/

/-- A composite whose second part always goes on stops only where its first part does. -/
theorem eq_refused_of_andThen_next {α β : Type} {x : Host.Outcome α Fault Refusal} {g : α → β} {e : Refusal}
    (h : andThen x (fun a => .next (g a)) = .refused e) : x = .refused e := by
  cases x with
  | next a => cases h
  | fault r => cases r
  | refused r => cases h; rfl

/-- The read of a register at its width is its primitive. -/
theorem exec_read_eq (r : Reg) (s : State) :
    exec (if regWidth r = 4 then .read32 (regAddr s.params r) else .read64 (regAddr s.params r)) s =
      andThen (readReg r s) (fun x => .next x.2) := by
  unfold readReg
  split
  · rw [exec_read32]
    cases busRead32 (regAddr s.params r) s <;> rfl
  · rw [exec_read64]

/-- The write of a register at its width is its primitive. -/
theorem exec_write_eq (r : Reg) (v : Word64) (s : State) :
    exec (if regWidth r = 4 then .write32 (regAddr s.params r) (v.setWidth 32) else .write64 (regAddr s.params r) v) s =
      writeReg r v s := by
  unfold writeReg
  split
  · rw [exec_write32]
  · rw [exec_write64]

theorem regWidth_cases (r : Reg) : regWidth r = 4 ∨ regWidth r = 8 := by
  cases r <;> decide

/-- The one event of a register's read: its address, its width and the value the accessors go on with. -/
theorem readReg_events {r : Reg} {s t : State} {v : Word64} (h : readReg r s = .next (v, t)) :
    t.ports.events = s.ports.events ++ [.memRead (regAddr s.params r) (regWidth r) v] := by
  unfold readReg at h
  split at h
  case isTrue hwidth =>
    obtain ⟨⟨w, u⟩, hread, hnext⟩ := andThen_eq_next h
    cases hnext
    obtain ⟨-, -, -, -, -, -, -, he⟩ := busRead32_frame hread
    rw [hwidth, he]
  case isFalse hwidth =>
    obtain ⟨-, -, -, -, -, -, he, -⟩ := busRead64_frame h
    rw [(regWidth_cases r).resolve_left hwidth, he]

/-- A field within its register lies within the 64 bits its value is held in. -/
theorem RegField.wf_bounds {f : RegField} (h : f.wf = true) : f.lo ≤ f.hi ∧ f.hi < 64 := by
  simp only [RegField.wf, Bool.and_eq_true, decide_eq_true_eq] at h
  have hwidth := regWidth_cases f.reg
  omega

/-- Settles O34: either accessor begins with the register's read, and a field read-modify-write ends with its write. -/
theorem fieldAccessorsActAtTheRegistersWidth : Obligations.FieldAccessorsActAtTheRegistersWidth := by
  unfold Obligations.FieldAccessorsActAtTheRegistersWidth
  intro s f value _ hf
  obtain ⟨hlo, hhi⟩ := f.wf_bounds hf
  intro a n load store
  have hload : load s = andThen (readReg f.reg s) (fun x => .next x.2) := exec_read_eq f.reg s
  rw [hload]
  refine ⟨?refused, ?answered, fun v u hp => ?second⟩
  case refused =>
    intro e he
    have hread := eq_refused_of_andThen_next he
    exact ⟨by rw [fieldRead, hread, andThen_refused], by rw [fieldModify, hread, andThen_refused]⟩
  case answered =>
    intro t ht
    obtain ⟨⟨v, u⟩, hread, hnext⟩ := andThen_eq_next ht
    cases hnext
    exact ⟨v, fieldExtract v f.hi f.lo, readReg_events hread, getLsbD_fieldExtract v hlo hhi,
      by rw [fieldRead, hread, andThen_next], by rw [fieldModify, hread, andThen_next]⟩
  case second =>
    have hwidth := regWidth_cases f.reg
    refine ⟨fieldInsert v f.hi f.lo value, fun k hk => ?_, ?_⟩
    · exact fieldInsertionReplacesTheFieldAlone 64 v value f.hi f.lo hlo hhi k (by omega)
    · rw [fieldWriteBack, ← exec_write_eq, hp]

end Sys2Proof.Machine

/-! SUPPORT. BOOT: each of its events exactly (O16), then its run with the core alone moving (O17). -/
namespace Sys2Proof.Machine

/-! ### The two writes of the pulse (R122, R248) -/

/-- The state after one of the two writes: the write seen, PEER's side changed, the sequencer in its next phase. -/
def State.pulsed (v : Word32) (q : Seq) (s : State) : State :=
  State.goto
    { s.emit (.memWrite (regAddr s.params .cpuControl) 4 (v.setWidth 64)) with
      peer := writeCpuControl s.params.openForm v s.peer } q

/-- Raising `RUN` starts the coprocessor. -/
theorem pulsed_runSet (q : Seq) (s : State) :
    s.pulsed runSet q = { s with
      core.seq     := q
      peer         := { s.peer with cpuControl := if s.params.openForm then s.peer.cpuControl else 0x10, started := true }
      ports.events := s.ports.events ++ [.memWrite (s.params.base + 0x0044) 4 0x10] } := by
  rw [State.pulsed, writeCpuControl, runBit_runSet, Bool.or_true]; rfl

/-- Clearing `RUN` does not stop it. -/
theorem pulsed_runClear (q : Seq) (s : State) :
    s.pulsed runClear q = { s with
      core.seq     := q
      peer         := { s.peer with cpuControl := if s.params.openForm then s.peer.cpuControl else 0 }
      ports.events := s.ports.events ++ [.memWrite (s.params.base + 0x0044) 4 0x0] } := by
  rw [State.pulsed, writeCpuControl, runBit_runClear, Bool.or_false]; rfl

/-! ### The four events (R171) -/

section
variable {s : State}

theorem exec_boot_idle (hs : s.core.seq = .idle) : exec .boot s = .next (s.accept .boot (.boot .b0)) := by
  simp only [exec, execBoot, hs]

theorem exec_boot_b0 (hw : s.params.wf = true) (hs : s.core.seq = .boot .b0) :
    exec .boot s = .next (s.pulsed runSet (.boot .b1)) := by
  simp only [exec, execBoot, hs, busWrite32_cpuControl hw, andThen_next, State.pulsed]

theorem exec_boot_b1 (hw : s.params.wf = true) (hs : s.core.seq = .boot .b1) :
    exec .boot s = .next (s.pulsed runClear (.ending .boot)) := by
  simp only [exec, execBoot, hs, busWrite32_cpuControl hw, andThen_next, State.pulsed]

theorem exec_boot_ending (hs : s.core.seq = .ending .boot) :
    exec .boot s = .next (finish .boot { s with core.booted := true }) := by
  simp only [exec, execBoot, hs]

end

/-- Settles O16: one event of BOOT per phase, the two writes as `State.pulsed` gives them. -/
theorem bootEventsInOrder : Obligations.BootEventsInOrder := by
  unfold Obligations.BootEventsInOrder
  intro s hw
  refine ⟨exec_boot_idle, fun hs => ?raise, fun hs => ?clear, exec_boot_ending⟩
  case raise => rw [exec_boot_b0 hw hs, pulsed_runSet]
  case clear => rw [exec_boot_b1 hw hs, pulsed_runClear]

/-! ### A run with the core alone moving (R171) -/

/-- The first of the words the machine takes is not refused (R349). -/
theorem State.taken.refusedWord_none {s : State} {w : PortWord} {ws : List PortWord} (h : s.taken (w :: ws)) :
    refusedWord s w = none := by
  unfold refusedWord
  split
  case isTrue hstrict =>
    have hduties := h hstrict
    rw [hostDuties, Bool.and_eq_true] at hduties
    exact Option.isNone_iff_eq_none.mp hduties.1
  case isFalse => rfl

/-- With nothing scheduled a step is the core's move on the state as it is. -/
theorem step_of_moves_nil {s : State} (hw : s.params.wf = true) (hm : s.ports.moves = []) : step s = coreMove s := by
  have hcore : nextMove s = .core := by rw [nextMove, hm, List.headD_nil]
  have hpop : s.popMove = s := by rw [State.popMove, hm, List.tail_nil, ← hm]
  rw [step_eq_coreMove hw hcore, hpop]

/-- With nothing scheduled a command in progress performs its next event. -/
theorem step_busy {s : State} {i : Instr} (hw : s.params.wf = true) (hm : s.ports.moves = [])
    (hi : s.core.current = some i) : step s = exec i s :=
  (step_of_moves_nil hw hm).trans (coreMove_busy hi)

/-- With nothing scheduled an accepted BOOT makes its two writes and completes. -/
theorem run_boot {s : State} (hw : s.params.wf = true) (hm : s.ports.moves = []) (hs : s.core.seq = .boot .b0) :
    Host.Core.run Sys2Proof.core 3 s = .next { s with
      core         := { s.core with booted := true, seq := .idle }
      peer         := { s.peer with cpuControl := if s.params.openForm then s.peer.cpuControl else 0, started := true }
      ports.events := s.ports.events ++
        [.memWrite (s.params.base + 0x0044) 4 0x10, .memWrite (s.params.base + 0x0044) 4 0x0, .complete .done none] } := by
  have hraise := (step_busy hw hm (by rw [CoreState.current, hs])).trans (exec_boot_b0 hw hs)
  have hclear := (step_busy (s := s.pulsed runSet (.boot .b1)) hw hm rfl).trans (exec_boot_b1 hw rfl)
  have hdone := (step_busy (s := (s.pulsed runSet (.boot .b1)).pulsed runClear (.ending .boot)) hw hm rfl).trans
    (exec_boot_ending rfl)
  rw [run_next hraise, run_next hclear, run_next hdone, pulsed_runSet, pulsed_runClear]
  cases s.params.openForm <;>
    simp [Host.Core.run, finish, State.complete, State.goto, State.emit, Ending.status, endingFrame]

/-- Settles O17: the word is taken, then the accepted command runs to its completion. -/
theorem bootRunsToCompletion : Obligations.BootRunsToCompletion := by
  unfold Obligations.BootRunsToCompletion
  intro s w rest hw hs hm hr htaken hd
  let accepted := State.accept { s with ports.requests := rest } .boot (.boot .b0)
  have haccept : step s = .next accepted := by
    calc step s
      _ = coreMove s := step_of_moves_nil hw hm
      _ = exec .boot { s with ports.requests := rest } := coreMove_takes hs hr htaken.refusedWord_none hd
      _ = .next accepted := exec_boot_idle hs
  refine (run_next haccept).trans ((run_boot (s := accepted) hw hm rfl).trans ?_)
  simp [accepted, State.accept, State.goto, State.emit, hs]

end Sys2Proof.Machine

/-! SUPPORT. SEND: each of its events exactly (O18), its poll without a bound (O58), and its run to the completion when
PEER accepts (O57), the runs as sums of parts. -/
namespace Sys2Proof.Machine

/-! ### The poll (R182, R186) -/

/-- Where a poll leads that saw `full` and brought `POLLS` to `polls`. -/
def afterPoll (bound : Option Nat) (full : Bool) (polls : Nat) : Seq :=
  if full then if pollGoesOn bound polls then .send .s3 else .ending .sendTimeout else .ending .sendDone

theorem afterPoll_room (bound : Option Nat) (polls : Nat) : afterPoll bound false polls = .ending .sendDone := rfl

theorem afterPoll_noBound (polls : Nat) : afterPoll none true polls = .send .s3 := rfl

theorem afterPoll_below {bound : Option Nat} {polls : Nat} (h : ∀ n, bound = some n → polls < n) :
    afterPoll bound true polls = .send .s3 := by
  cases bound with
  | none => exact afterPoll_noBound polls
  | some n => simp [afterPoll, pollGoesOn, h n rfl]

theorem afterPoll_atBound {bound : Option Nat} {polls : Nat} (h : bound = some polls) :
    afterPoll bound true polls = .ending .sendTimeout := by
  simp [afterPoll, pollGoesOn, h]

/-- A value the responder has put on the bus is the one an open-form read returns. -/
theorem openValue_of_response {s : State} {x : Word64} (h : s.ports.response = some x) : s.openValue = x := by
  rw [State.openValue, h, Option.getD_some]

/-- Phase `S3` in either form: one read of `INBOX_CTRL`, whose bit 16 alone decides where the sequencer goes. -/
theorem pollInbox_becomes {s : State} (hw : s.params.wf = true) (hs : s.core.seq = .send .s3) :
    ∃ (v : Word32) (t : State), pollInbox s = .next t ∧
      (s.params.openForm = false → v[16] = inboxFull s) ∧
      (s.params.openForm = true → v = s.openValue.extractLsb' 0 32) ∧
      s.Becomes t
        { s.core with
          polls := s.core.polls + 1
          seq   := afterPoll s.params.sendPollBound v[16] (s.core.polls + 1) } s.peer
        [.memRead (regAddr s.params .inboxCtrl) 4 (v.setWidth 64)] := by
  obtain ⟨v, u, hread, hp, hc, hx, hr, hmoves, hreq, hans, he, hopen, hflags, -⟩ :=
    busRead32_ctrl hw .inboxCtrl (.inl rfl)
  have hstays : u.core.seq = .send .s3 := by rw [hc, hs]
  refine ⟨v.word, _, by rw [pollInbox, hread, andThen_next], fun hclosed => ?full, fun ho => ?value, ?becomes⟩
  case full => rw [word_at16, (hflags hclosed rfl).1]
  case value => rw [hopen ho, word_ofWord]
  case becomes =>
    rw [word_at16, afterPoll, ← hc]
    split_ifs
    · rw [← hstays]
      exact ⟨hp, rfl, hx, hr, hmoves, hreq, hans, he⟩
    all_goals exact ⟨hp, rfl, hx, hr, hmoves, hreq, hans, he⟩

/-! ### The events (R182) -/

section
variable {s : State} (d h : Word64)

theorem exec_send_idle (hs : s.core.seq = .idle) : exec (.send d h) s = .next (acceptSend d h s) := by
  simp only [exec, execSend, hs]

theorem exec_send_s0 (hs : s.core.seq = .send .s0) :
    exec (.send d h) s = .next ((s.traced .tx s.txFrame).goto (.send .s1)) := by
  simp only [exec, execSend, hs]

theorem exec_send_s1 (hw : s.params.wf = true) (hs : s.core.seq = .send .s1) :
    exec (.send d h) s = .next { s with
      core.seq     := .send .s2
      peer         := if s.params.openForm then s.peer else { s.peer with inStage := s.core.txData }
      ports.events := s.ports.events ++ [.memWrite (regAddr s.params .inbox0) 8 s.core.txData] } := by
  simp only [exec, execSend, hs, busWrite64_inbox0 hw, andThen_next]
  rfl

theorem exec_send_s2 (hw : s.params.wf = true) (hs : s.core.seq = .send .s2)
    (hroom : s.params.openForm = false → s.peer.inQ.length < s.params.inboxDepth) :
    exec (.send d h) s = .next { s with
      core.seq     := .send .s3
      peer         := if s.params.openForm then s.peer
        else { s.peer with inQ := s.peer.inQ ++ [⟨s.peer.inStage, s.core.txHeader⟩] }
      ports.events := s.ports.events ++ [.memWrite (regAddr s.params .inbox1) 8 s.core.txHeader] } := by
  simp only [exec, execSend, hs, busWrite64_inbox1 hw _ hroom, andThen_next]
  rfl

theorem exec_send_s3 (hs : s.core.seq = .send .s3) : exec (.send d h) s = pollInbox s := by
  simp only [exec, execSend, hs]

theorem exec_send_done (hs : s.core.seq = .ending .sendDone) : exec (.send d h) s = .next (finish .sendDone s) := by
  simp only [exec, execSend, hs]

theorem exec_send_timeout (hs : s.core.seq = .ending .sendTimeout) :
    exec (.send d h) s = .next (finish .sendTimeout s) := by
  simp only [exec, execSend, hs]

end

/-- Settles O18: one event of SEND per phase, the poll as `pollInbox_becomes` and `afterPoll` have it. -/
theorem sendEventsInOrder : Obligations.SendEventsInOrder := by
  unfold Obligations.SendEventsInOrder
  intro s d h hw
  refine ⟨exec_send_idle d h, exec_send_s0 d h, exec_send_s1 d h hw, fun hs hroom => ?commit, fun hs => ?poll,
    exec_send_done d h, exec_send_timeout d h⟩
  case commit =>
    exact exec_send_s2 d h hw hs fun hclosed => hroom.resolve_left (by rw [hclosed]; exact Bool.false_ne_true)
  case poll =>
    obtain ⟨v, t, hpoll, hfull, hvalue, hbecomes⟩ := pollInbox_becomes hw hs
    refine ⟨v, t, _, (exec_send_s3 d h hs).trans hpoll, hfull, fun ho x hx => ?response, hbecomes, fun hv => ?room,
      fun hv hbelow => ?below, fun hv hat => ?atBound⟩
    case response => rw [hvalue ho, openValue_of_response hx]
    case room => rw [hv, afterPoll_room]
    case below => rw [hv, afterPoll_below hbelow]
    case atBound => rw [hv, afterPoll_atBound hat]

/-! ### The parts of a SEND in the closed form -/

/-- No step, as a part of a run. -/
theorem Leads.refl (s : State) : Leads 0 s s s.core s.peer [] where
  run k := by rw [Nat.zero_add]
  params := rfl
  core := rfl
  peer := rfl
  requests := rfl
  moves := rfl
  events := (List.append_nil _).symm

/-- The move behind a part is the next of those it left on the schedule, the core's if it left none. -/
theorem Leads.nextMove_getD {n : Nat} {s t : State} {c : CoreState} {x : Mailbox} {as : List Event}
    (h : Leads n s t c x as) : nextMove t = s.ports.moves.getD n .core := by
  rw [nextMove, h.moves, List.headD_eq_head?_getD, List.head?_drop, List.getD_eq_getElem?_getD]

/-- The core's move on a SEND in progress. -/
theorem coreMove_send {s : State} {p : SendPhase} (hs : s.core.seq = .send p) :
    coreMove s = exec (.send s.core.txData s.core.txHeader) s :=
  coreMove_busy (by rw [CoreState.current, hs])

section
variable {s : State} (hw : s.params.wf = true)
include hw

/-- ACCEPT on an inbox that holds a frame delivers it (R252). -/
theorem Leads.of_peerAccept {f : Frame} {queue : List Frame} (hm : nextMove s = .accept)
    (hin : s.peer.inQ = f :: queue) :
    ∃ t, Leads 1 s t s.core { s.peer with inQ := queue, delivered := s.peer.delivered ++ [f] } [] := by
  have hstep : step s = .next (peerAccept s.popMove) := by rw [step_of_wf hw, hm]; rfl
  simp only [peerAccept, popMove_peer, hin] at hstep
  exact ⟨_, .of_step hstep rfl rfl rfl rfl rfl (List.append_nil _).symm⟩

/-- The trace of the frame in the transmit registers (R182). -/
theorem leads_sendTrace (hm : nextMove s = .core) (hs : s.core.seq = .send .s0) :
    ∃ t, Leads 1 s t { s.core with seq := .send .s1 } s.peer [.trace ⟨.tx, epOf s.core.txHeader, s.txFrame⟩] :=
  ⟨_, .of_coreMove hw hm ((coreMove_send (s := s.popMove) hs).trans (exec_send_s0 _ _ hs))
    ⟨rfl, rfl, rfl, rfl, rfl, rfl, rfl, rfl⟩⟩

/-- The completion of a SEND whose poll saw room. -/
theorem leads_sendDone (hm : nextMove s = .core) (hs : s.core.seq = .ending .sendDone) :
    ∃ t, Leads 1 s t { s.core with seq := .idle } s.peer [.complete .done none] := by
  have hmove : coreMove s.popMove = exec (.send s.core.txData s.core.txHeader) s.popMove :=
    coreMove_busy (by rw [popMove_core, CoreState.current, hs]; rfl)
  exact ⟨_, .of_coreMove hw hm (hmove.trans (exec_send_done _ _ hs)) ⟨rfl, rfl, rfl, rfl, rfl, rfl, rfl, rfl⟩⟩

variable (hclosed : s.params.openForm = false)
include hclosed

/-- The write of `INBOX0` latches the data word (R250). -/
theorem leads_sendLatch (hm : nextMove s = .core) (hs : s.core.seq = .send .s1) :
    ∃ t, Leads 1 s t { s.core with seq := .send .s2 } { s.peer with inStage := s.core.txData }
      [.memWrite (regAddr s.params .inbox0) 8 s.core.txData] := by
  have hmove := (coreMove_send (s := s.popMove) hs).trans (exec_send_s1 _ _ hw hs)
  exact ⟨_, .of_coreMove hw hm hmove ⟨rfl, rfl, by simp [hclosed], rfl, rfl, rfl, rfl, rfl⟩⟩

/-- The write of `INBOX1` commits the frame (R251). -/
theorem leads_sendCommit (hm : nextMove s = .core) (hs : s.core.seq = .send .s2)
    (hroom : s.peer.inQ.length < s.params.inboxDepth) :
    ∃ t, Leads 1 s t { s.core with seq := .send .s3 }
      { s.peer with inQ := s.peer.inQ ++ [⟨s.peer.inStage, s.core.txHeader⟩] }
      [.memWrite (regAddr s.params .inbox1) 8 s.core.txHeader] := by
  have hmove := (coreMove_send (s := s.popMove) hs).trans (exec_send_s2 _ _ hw hs fun _ => hroom)
  exact ⟨_, .of_coreMove hw hm hmove ⟨rfl, rfl, by simp [hclosed], rfl, rfl, rfl, rfl, rfl⟩⟩

/-- A poll sees whether the inbox is full (R249). -/
theorem leads_poll (hm : nextMove s = .core) (hs : s.core.seq = .send .s3) :
    ∃ t e, Leads 1 s t
      { s.core with
        polls := s.core.polls + 1
        seq   := afterPoll s.params.sendPollBound (inboxFull s) (s.core.polls + 1) } s.peer [e] := by
  obtain ⟨v, t, hpoll, hfull, -, hbecomes⟩ := pollInbox_becomes (s := s.popMove) hw hs
  rw [hfull hclosed] at hbecomes
  have hmove := (coreMove_send (s := s.popMove) hs).trans (exec_send_s3 _ _ (s := s.popMove) hs)
  exact ⟨t, _, .of_coreMove hw hm (hmove.trans hpoll) hbecomes⟩

end

/-- The bus and trace events by which a SEND puts a frame into the inbox. -/
def sendEvents (p : Params) (f : Frame) : List Event :=
  [.trace ⟨.tx, epOf f.header, f⟩, .memWrite (regAddr p .inbox0) 8 f.data, .memWrite (regAddr p .inbox1) 8 f.header]

/-- After its acceptance a SEND puts the frame of the transmit registers, whole, into an inbox with room (R182). -/
theorem leads_sendFrame {s : State} {ms : List Move} (hw : s.params.wf = true) (hclosed : s.params.openForm = false)
    (hm : s.ports.moves = .core :: .core :: .core :: ms) (hs : s.core.seq = .send .s0)
    (hroom : s.peer.inQ.length < s.params.inboxDepth) :
    ∃ t, Leads 3 s t { s.core with seq := .send .s3 }
      { s.peer with inStage := s.core.txData, inQ := s.peer.inQ ++ [s.txFrame] } (sendEvents s.params s.txFrame) := by
  obtain ⟨t0, l0⟩ := leads_sendTrace hw (nextMove_of_cons hm) hs
  obtain ⟨t1, l1⟩ := leads_sendLatch (s := t0) (l0.params ▸ hw) (l0.params ▸ hclosed)
    (l0.nextMove_eq (before := [.core]) hm rfl) (by rw [l0.core])
  have l01 := l0.trans l1
  rw [l0.params, l0.core, l0.peer] at l01
  obtain ⟨t2, l2⟩ := leads_sendCommit (s := t1) (l01.params ▸ hw) (l01.params ▸ hclosed)
    (l01.nextMove_eq (before := [.core, .core]) hm rfl) (by rw [l01.core]) (by rw [l01.peer, l01.params]; exact hroom)
  have l02 := l01.trans l2
  rw [l01.params, l01.core, l01.peer] at l02
  exact ⟨t2, l02⟩

/-- Without a bound, `n` polls of a full inbox add `n` to `POLLS` and change nothing else (R185, R188). -/
theorem leads_blockedPolls {s : State} (hw : s.params.wf = true) (hclosed : s.params.openForm = false)
    (hbound : s.params.sendPollBound = none) (hs : s.core.seq = .send .s3)
    (hfull : s.peer.inQ.length = s.params.inboxDepth) (n : Nat) (hm : ∀ i < n, s.ports.moves.getD i .core = .core) :
    ∃ t as, Leads n s t { s.core with polls := s.core.polls + n } s.peer as := by
  induction n with
  | zero => exact ⟨s, [], .refl s⟩
  | succ n ih =>
    obtain ⟨t, as, l⟩ := ih fun i hi => hm i (by omega)
    obtain ⟨u, e, l'⟩ := leads_poll (s := t) (l.params ▸ hw) (l.params ▸ hclosed)
      (l.nextMove_getD.trans (hm n n.lt_succ_self)) (by rw [l.core, hs])
    have hsees : inboxFull t = true := by rw [inboxFull, l.peer, l.params, hfull, decide_eq_true_eq]
    rw [hsees, l.params, hbound, afterPoll_noBound, ← hs, l.core, l.peer] at l'
    exact ⟨u, _, l.trans l'⟩

/-- Settles O58: with nothing scheduled the core alone moves, and every step is one more poll of the full inbox. -/
theorem sendBlocksWithoutBound : Obligations.SendBlocksWithoutBound := by
  unfold Obligations.SendBlocksWithoutBound
  intro n s hw hclosed hbound hs hfull hm
  obtain ⟨t, as, l⟩ := leads_blockedPolls hw hclosed hbound hs hfull n fun i _ => by rw [hm, List.getD_nil]
  exact ⟨t, l.run 0, l.core, l.peer, l.requests⟩

/-! ### The run of vector 2.3 (R190) -/

/-- ACCEPT makes room, the next poll sees it, and the SEND completes. -/
theorem leads_sendAccepted {s : State} {f : Frame} {queue : List Frame} {ms : List Move} (hw : s.params.wf = true)
    (hclosed : s.params.openForm = false) (hm : s.ports.moves = .accept :: .core :: .core :: ms)
    (hs : s.core.seq = .send .s3) (hin : s.peer.inQ = f :: queue) (hroom : queue.length ≠ s.params.inboxDepth) :
    ∃ t as, Leads 3 s t { s.core with polls := s.core.polls + 1, seq := .idle }
      { s.peer with inQ := queue, delivered := s.peer.delivered ++ [f] } (as ++ [Event.complete .done none]) := by
  obtain ⟨t0, l0⟩ := Leads.of_peerAccept hw (nextMove_of_cons hm) hin
  obtain ⟨t1, e, l1⟩ := leads_poll (s := t0) (l0.params ▸ hw) (l0.params ▸ hclosed)
    (l0.nextMove_eq (before := [.accept]) hm rfl) (by rw [l0.core, hs])
  have hsees : inboxFull t0 = false := by rw [inboxFull, l0.peer, l0.params, decide_eq_false hroom]
  rw [hsees, afterPoll_room, l0.core, l0.peer] at l1
  have l01 := l0.trans l1
  obtain ⟨t2, l2⟩ := leads_sendDone (s := t1) (l01.params ▸ hw) (l01.nextMove_eq (before := [.accept, .core]) hm rfl)
    (by rw [l01.core])
  rw [l01.core, l01.peer] at l2
  exact ⟨t2, _, l01.trans l2⟩

/-- While moves of the core are scheduled, the core is next. -/
theorem getD_replicate_core {i k : Nat} (hi : i < k) (ms : List Move) :
    (List.replicate k Move.core ++ ms).getD i .core = .core := by
  rw [List.getD_append _ _ _ _ (by rwa [List.length_replicate]), List.getD_replicate _ hi]

/-- On a one-frame inbox that is empty, an accepted SEND puts its frame there, polls `k` times in vain, and completes once
PEER has accepted the frame. -/
theorem leads_send {s : State} {k : Nat} (hw : s.params.wf = true) (hclosed : s.params.openForm = false)
    (hdepth : s.params.inboxDepth = 1) (hbound : s.params.sendPollBound = none) (hs : s.core.seq = .send .s0)
    (hin : s.peer.inQ = [])
    (hm : s.ports.moves = List.replicate (3 + k) Move.core ++ [Move.accept, .core, .core]) :
    ∃ t as, Leads (3 + k + 3) s t { s.core with polls := s.core.polls + k + 1, seq := .idle }
      { s.peer with inStage := s.core.txData, inQ := [], delivered := s.peer.delivered ++ [s.txFrame] }
      (as ++ [Event.complete .done none]) := by
  have hfirst : s.ports.moves =
      .core :: .core :: .core :: (List.replicate k Move.core ++ [Move.accept, .core, .core]) := by
    rw [hm, Nat.add_comm]
    rfl
  obtain ⟨a, lframe⟩ := leads_sendFrame hw hclosed hfirst hs (by rw [hin, hdepth]; exact Nat.one_pos)
  have hinbox : a.peer.inQ = [s.txFrame] := by rw [lframe.peer, hin, List.nil_append]
  have hpolls : ∀ i < k, a.ports.moves.getD i .core = .core := fun i hi => by
    rw [lframe.moves, hfirst]
    exact getD_replicate_core hi _
  obtain ⟨b, polls, lpolls⟩ := leads_blockedPolls (s := a) (lframe.params ▸ hw) (lframe.params ▸ hclosed)
    (by rw [lframe.params, hbound]) (by rw [lframe.core]) (by rw [hinbox, lframe.params, hdepth]; rfl) k hpolls
  have lblocked := lframe.trans lpolls
  rw [lframe.core, lframe.peer] at lblocked
  obtain ⟨t, as, lend⟩ := leads_sendAccepted (s := b) (f := s.txFrame) (queue := []) (ms := []) (lblocked.params ▸ hw)
    (lblocked.params ▸ hclosed)
    (by rw [lblocked.moves, hm, List.drop_left' List.length_replicate]) (by rw [lblocked.core])
    (by rw [lpolls.peer, hinbox]) (by rw [lblocked.params, hdepth]; exact Nat.zero_ne_one)
  have lall := lblocked.trans lend
  rw [lblocked.core, lblocked.peer, ← List.append_assoc] at lall
  exact ⟨t, _, lall⟩

/-- Settles O57: the acceptance, then `leads_send`. -/
theorem sendCompletesWhenPeerAccepts : Obligations.SendCompletesWhenPeerAccepts := by
  unfold Obligations.SendCompletesWhenPeerAccepts
  intro k s d h rest hw hclosed hdepth hbound hs hin hr htaken hm
  have hmoves : s.ports.moves = .core :: (List.replicate (3 + k) Move.core ++ [Move.accept, .core, .core]) := by
    rw [hm, show 4 + k = 3 + k + 1 by omega, List.replicate_succ, List.cons_append]
  let a := acceptSend d h { s.popMove with ports.requests := rest }
  have haccept : step s = .next a := by
    calc step s
      _ = coreMove s.popMove := step_eq_coreMove hw (nextMove_of_cons hmoves)
      _ = exec (.send d h) { s.popMove with ports.requests := rest } :=
        coreMove_takes (s := s.popMove) hs hr htaken.refusedWord_none (decodePort_encode rfl)
      _ = .next a := exec_send_idle d h hs
  have hbehind : a.ports.moves = List.replicate (3 + k) Move.core ++ [Move.accept, .core, .core] :=
    congrArg List.tail hmoves
  obtain ⟨t, as, l⟩ := leads_send (s := a) hw hclosed hdepth hbound rfl hin hbehind
  have hcore : a.core = { s.core with seq := .send .s0, txData := d, txHeader := h, polls := 0 } := rfl
  refine ⟨t, ?run, ?core, ?peer, l.params, l.requests, ?moves, ?last⟩
  case run =>
    rw [show k + 7 = (3 + k + 3) + 1 by omega]
    exact (run_next haccept).trans (l.run 0)
  case core => rw [l.core, hcore, Nat.zero_add, ← hs]
  case peer =>
    rw [l.peer, ← hin]
    rfl
  case moves => rw [l.moves, hbehind, List.drop_eq_nil_of_le (by simp)]
  case last => rw [l.events, ← List.append_assoc, List.getLast?_concat]

end Sys2Proof.Machine

/-! SUPPORT. RECV and DISPATCH: the events of the receive part and of the dispatch part, said once for every command that
has them, then RECV (O20, O21), DISPATCH (O22), the key of the lookup (O23) and the wait in `P1` (O41). -/
namespace Sys2Proof.Machine

/-! ### The events of the receive part (R196) -/

section
variable {i : Instr} {s : State} (hw : s.params.wf = true)
include hw

/-- `V0` in either form: bit 17 of the value read is the answer of the status read. -/
theorem readsOutboxStatus_of_exec {whenEmpty whenFrame : Seq}
    (hexec : exec i s = andThen (readOutboxEmpty s) (fun x => .next (x.2.goto (if x.1 then whenEmpty else whenFrame)))) :
    ReadsOutboxStatus i s whenEmpty whenFrame := by
  obtain ⟨v, u, hread, hp, hc, hx, hr, hmoves, hreq, hans, he, hopen, -, hflags⟩ :=
    busRead32_ctrl hw .outboxCtrl (.inr rfl)
  have hstatus : readOutboxEmpty s = .next (v.empty, u) := by rw [readOutboxEmpty, hread, andThen_next]
  refine ⟨v.word, u.goto (if v.empty then whenEmpty else whenFrame), by rw [hexec, hstatus, andThen_next],
    fun hclosed => ?bit, fun ho x hx => ?value, hp, ?core, hx, hr, hmoves, hreq, hans, he⟩
  case bit =>
    rw [word_at17, (hflags hclosed rfl).2, outboxEmpty, decide_eq_decide]
    exact List.length_eq_zero_iff
  case value => rw [hopen ho, word_ofWord, openValue_of_response hx]
  case core => rw [State.goto_core, hc, word_at17]

theorem loadRxData_open (ho : s.params.openForm = true) (q : Seq) :
    loadRxData q s = .next (State.goto
      { s.openTaken.readDone (regAddr s.params .outbox0) 8 s.openValue s.openValue with core.rxData := s.openValue }
      q) := by
  rw [loadRxData, busRead64_open hw ho .outbox0 rfl rfl, andThen_next]

theorem loadRxHeader_open (ho : s.params.openForm = true) (q : Seq) :
    loadRxHeader q s = .next (State.goto
      { s.openTaken.readDone (regAddr s.params .outbox1) 8 s.openValue s.openValue with core.rxHeader := s.openValue }
      q) := by
  rw [loadRxHeader, busRead64_open hw ho .outbox1 rfl rfl, andThen_next]

/-- `V1` in either form. -/
theorem readsOutboxData_of_exec {q : Seq} (hexec : exec i s = loadRxData q s) : ReadsOutboxData i s q := by
  cases ho : s.params.openForm with
  | true =>
    exact ⟨s.openValue, _, hexec.trans (loadRxData_open hw ho q), by simp [ho],
      fun _ x hx => openValue_of_response hx, rfl, rfl, rfl, rfl, rfl, rfl, rfl, rfl⟩
  | false =>
    obtain ⟨t, ht⟩ := loadRxData_answers hw ho q
    obtain ⟨v, hp, hc, hx, hr, hmoves, hreq, hans, he, hv⟩ := loadRxData_frame ht
    exact ⟨v, t, hexec.trans ht, fun _ f rest hf => by rw [hv hw ho, outboxHead_cons hf], by simp [ho], hp, hc, hx, hr,
      hmoves, hreq, hans, he⟩

/-- `V2` in either form. -/
theorem readsOutboxHeader_of_exec {q : Seq} (hexec : exec i s = loadRxHeader q s) : ReadsOutboxHeader i s q := by
  cases ho : s.params.openForm with
  | true =>
    exact ⟨s.openValue, _, hexec.trans (loadRxHeader_open hw ho q), by simp [ho],
      fun _ x hx => openValue_of_response hx, rfl, rfl, by rw [ho]; rfl, rfl, rfl, rfl, rfl, rfl⟩
  | false =>
    obtain ⟨t, ht⟩ := loadRxHeader_answers hw ho q
    obtain ⟨v, hp, hc, hx, hr, hmoves, hreq, hans, he, hv⟩ := loadRxHeader_frame ht
    exact ⟨v, t, hexec.trans ht, fun _ f rest hf => by rw [hv ho, outboxHead_cons hf], by simp [ho], hp, hc, hx,
      hr, hmoves, hreq, hans, he⟩

end

/-! ### The events of RECV (R196, R197) -/

section
variable {s : State}

theorem exec_recv_v0 (hs : s.core.seq = .recv .v0) :
    exec .recv s = andThen (readOutboxEmpty s) (fun x =>
      .next (x.2.goto (if x.1 then .ending .recvNoMessage else .recv .v1))) := by simp only [exec, execRecv, hs]

theorem exec_recv_v1 (hs : s.core.seq = .recv .v1) : exec .recv s = loadRxData (.recv .v2) s := by
  simp only [exec, execRecv, hs]

theorem exec_recv_v2 (hs : s.core.seq = .recv .v2) : exec .recv s = loadRxHeader (.recv .v3) s := by
  simp only [exec, execRecv, hs]

theorem exec_recv_v3 (hs : s.core.seq = .recv .v3) :
    exec .recv s = .next ((s.traced .rx s.rxFrame).goto (.ending .recvFrame)) := by simp only [exec, execRecv, hs]

theorem exec_recv_noMessage (hs : s.core.seq = .ending .recvNoMessage) :
    exec .recv s = .next (finish .recvNoMessage s) := by simp only [exec, execRecv, hs]

theorem exec_recv_frame (hs : s.core.seq = .ending .recvFrame) : exec .recv s = .next (finish .recvFrame s) := by
  simp only [exec, execRecv, hs]

end

/-- Settles O20: one event of RECV per phase, the three reads as the receive part has them. -/
theorem recvEventsInOrder : Obligations.RecvEventsInOrder := by
  unfold Obligations.RecvEventsInOrder
  intro s hw
  exact ⟨exec_recv_idle, fun hs => readsOutboxStatus_of_exec hw (exec_recv_v0 hs),
    fun hs => readsOutboxData_of_exec hw (exec_recv_v1 hs), fun hs => readsOutboxHeader_of_exec hw (exec_recv_v2 hs),
    exec_recv_v3, exec_recv_noMessage, exec_recv_frame⟩

/-! ### RECV as a run, the core alone moving (R196 to R199) -/

/-- A part of a run that nothing is scheduled for leaves the core to move. -/
theorem Leads.nextMove_alone {n : Nat} {s t : State} {c : CoreState} {x : Mailbox} {as : List Event}
    (h : Leads n s t c x as) (hm : s.ports.moves = []) : nextMove t = .core := by
  rw [h.nextMove_getD, hm, List.getD_nil]

section
variable {s : State} (hw : s.params.wf = true) (hclosed : s.params.openForm = false) (hm : s.ports.moves = [])
  (hs : s.core.seq = .recv .v0)
include hw hclosed hm hs

/-- On an empty outbox an accepted RECV reads the status and completes with `NO_MESSAGE`. -/
theorem leads_recvEmpty (hout : s.peer.outQ = []) :
    ∃ t v, Leads 2 s t { s.core with seq := .idle } s.peer
      [.memRead (regAddr s.params .outboxCtrl) 4 v, .complete .noMessage none] := by
  obtain ⟨v, t, hexec, hbit, -, hbecomes⟩ := readsOutboxStatus_of_exec (s := s.popMove) hw (exec_recv_v0 hs)
  rw [hbit hclosed, popMove_peer, decide_eq_true hout, if_pos rfl] at hbecomes
  have hmove : coreMove s.popMove = exec .recv s.popMove := coreMove_busy (by rw [popMove_core, CoreState.current, hs])
  have lread : Leads 1 s t { s.core with seq := .ending .recvNoMessage } s.peer _ :=
    .of_coreMove hw ((Leads.refl s).nextMove_alone hm) (hmove.trans hexec) hbecomes
  have hend : t.core.seq = .ending .recvNoMessage := by rw [lread.core]
  have hmove' : coreMove t.popMove = exec .recv t.popMove :=
    coreMove_busy (by rw [popMove_core, CoreState.current, hend]; rfl)
  have ldone : Leads 1 t _ { t.core with seq := .idle } t.peer [.complete .noMessage none] :=
    .of_coreMove (lread.params ▸ hw) (lread.nextMove_alone hm) (hmove'.trans (exec_recv_noMessage hend))
      ⟨rfl, rfl, rfl, rfl, rfl, rfl, rfl, rfl⟩
  rw [lread.core, lread.peer] at ldone
  exact ⟨_, _, lread.trans ldone⟩

/-- A frame at the head of the outbox is taken whole by an accepted RECV, which completes with it. -/
theorem leads_recvHead {f : Frame} {queue : List Frame} (hout : s.peer.outQ = f :: queue) :
    ∃ t, Leads 5 s t { s.core with rxData := f.data, rxHeader := f.header, seq := .idle } { s.peer with outQ := queue }
      (receiveEvents s.params s.statusRead f ++ [.complete .frame (some f)]) := by
  obtain ⟨t0, l0⟩ := receivePart_recv.leads_v0 hw hclosed ((Leads.refl s).nextMove_alone hm) hs hout
  obtain ⟨t1, l1⟩ := receivePart_recv.leads_v1 (s := t0) (l0.params ▸ hw) (l0.params ▸ hclosed) (l0.nextMove_alone hm)
    (by rw [l0.core]) (by rw [l0.peer, hout])
  have l01 := l0.trans l1
  rw [l0.params, l0.core, l0.peer] at l01
  obtain ⟨t2, l2⟩ := receivePart_recv.leads_v2 (s := t1) (l01.params ▸ hw) (l01.params ▸ hclosed) (l01.nextMove_alone hm)
    (by rw [l01.core]) (by rw [l01.peer, hout])
  have l02 := l01.trans l2
  rw [l01.params, l01.core, l01.peer] at l02
  obtain ⟨t3, l3⟩ := receivePart_recv.leads_v3 (s := t2) (l02.params ▸ hw) (l02.nextMove_alone hm) (by rw [l02.core])
  have l03 := l02.trans l3
  rw [State.rxFrame, l02.core, l02.peer] at l03
  obtain ⟨t4, l4⟩ := leads_recvFrame (s := t3) (l03.params ▸ hw) (l03.nextMove_alone hm) (by rw [l03.core])
  have l04 := l03.trans l4
  rw [State.rxFrame, l03.core, l03.peer] at l04
  exact ⟨t4, l04⟩

end

/-- Settles O21: the word is taken, then the outbox decides between the two runs of an accepted RECV. -/
theorem recvRunsToCompletion : Obligations.RecvRunsToCompletion := by
  unfold Obligations.RecvRunsToCompletion
  intro s w rest hw hclosed hs hm hr htaken hd
  let accepted := State.accept { s with ports.requests := rest } .recv (.recv .v0)
  have haccept : step s = .next accepted := by
    calc step s
      _ = coreMove s := step_of_moves_nil hw hm
      _ = exec .recv { s with ports.requests := rest } := coreMove_takes hs hr htaken.refusedWord_none hd
      _ = .next accepted := exec_recv_idle hs
  have hfirst : accepted.ports.events = s.ports.events ++ [.accept .recv] := rfl
  refine ⟨fun hout => ?empty, fun f queue hout => ?head⟩
  case empty =>
    obtain ⟨t, v, l⟩ := leads_recvEmpty (s := accepted) hw hclosed hm rfl hout
    refine ⟨t, v, (run_next haccept).trans (l.run 0), ?_, l.peer, l.requests, ?_⟩
    · rw [l.core, ← hs]; rfl
    · rw [l.events, hfirst, List.append_assoc]; rfl
  case head =>
    obtain ⟨t, l⟩ := leads_recvHead (s := accepted) hw hclosed hm rfl hout
    refine ⟨t, s.statusRead.word.setWidth 64, (run_next haccept).trans (l.run 0), ?_, l.peer, l.requests, ?_⟩
    · rw [l.core, ← hs]; rfl
    · rw [l.events, hfirst, List.append_assoc]; rfl

/-! ### The events of the dispatch part (R207) -/

section
variable {i : Instr} {s : State}

/-- `P0`: the request on a hit, nothing shown on a miss. -/
theorem looksUpEndpoint_of_exec {onHit onMiss : Seq} (hexec : exec i s = .next (lookupEndpoint onHit onMiss s)) :
    LooksUpEndpoint i s onHit onMiss := by
  refine ⟨fun h hl => ?_, fun hl => ?_⟩
  all_goals
    change eptLookup s.core.ept (epOf s.core.rxHeader) = _ at hl
    rw [hexec, lookupEndpoint, hl]
    rfl

/-- `P1`: an answer of 1 goes on as the command does, an answer of 0 shows nothing. -/
theorem takesEndpointAnswer_of_exec {whenHandled : State → State} {q onRefused : Seq} {shown : List Event}
    (hexec : exec i s = .next (takeAnswer whenHandled onRefused s))
    (hdone : ∀ t : State, whenHandled t = { t with core.seq := q, ports.events := t.ports.events ++ shown }) :
    TakesEndpointAnswer i s q shown onRefused := by
  refine ⟨fun b hb => ?answered, fun hb => ?silent⟩
  case silent => rw [hexec, takeAnswer, hb]
  case answered =>
    rw [hexec, takeAnswer, hb]
    cases b with
    | true => exact congrArg _ (hdone _)
    | false => simp [latchAnswer, State.goto]

end

/-! ### The events of DISPATCH (R203, R204, R207) -/

section
variable {s : State} (d h : Word64)

theorem exec_dispatch_p0 (hs : s.core.seq = .dispatch .p0) :
    exec (.dispatch d h) s = .next (lookupEndpoint (.dispatch .p1) (.dispatch .p2) s) := by
  simp only [exec, execDispatch, hs]

theorem exec_dispatch_p1 (hs : s.core.seq = .dispatch .p1) :
    exec (.dispatch d h) s = .next (takeAnswer (fun t => t.complete .handled none) (.dispatch .p2) s) := by
  simp only [exec, execDispatch, hs]

theorem exec_dispatch_p2 (hs : s.core.seq = .dispatch .p2) :
    exec (.dispatch d h) s = .next (reportUnknown .dispatchUnhandled s) := by simp only [exec, execDispatch, hs]

theorem exec_dispatch_unhandled (hs : s.core.seq = .ending .dispatchUnhandled) :
    exec (.dispatch d h) s = .next (finish .dispatchUnhandled s) := by simp only [exec, execDispatch, hs]

end

/-- Settles O22: one event of DISPATCH per phase, the lookup and the answer as the dispatch part has them. -/
theorem dispatchEventsInOrder : Obligations.DispatchEventsInOrder := by
  unfold Obligations.DispatchEventsInOrder
  intro s d h
  exact ⟨exec_dispatch_idle d h, fun hs => looksUpEndpoint_of_exec (exec_dispatch_p0 d h hs),
    fun hs => takesEndpointAnswer_of_exec (exec_dispatch_p1 d h hs) fun _ => rfl, exec_dispatch_p2 d h,
    exec_dispatch_unhandled d h⟩

/-! ### The key of the lookup (R203) -/

/-- A hit and a miss part ways by the entry of the key alone. -/
theorem lookupEndpoint_seq_eq (onHit onMiss : Seq) (s : State) :
    (lookupEndpoint onHit onMiss s).core.seq =
      if (eptLookup s.core.ept (epOf s.core.rxHeader)).isSome then onHit else onMiss := by
  cases hl : eptLookup s.core.ept (epOf s.core.rxHeader) <;> simp [lookupEndpoint, hl]

/-- The handle requested is the entry's; without an entry the port is as it was. -/
theorem lookupEndpoint_handle (onHit onMiss : Seq) (s : State) :
    (lookupEndpoint onHit onMiss s).ports.epReq.map EpReq.handle =
      (eptLookup s.core.ept (epOf s.core.rxHeader)).or (s.ports.epReq.map EpReq.handle) := by
  cases hl : eptLookup s.core.ept (epOf s.core.rxHeader) <;> simp [lookupEndpoint, hl]

theorem exec_pumpOnce_p0 {s : State} (hs : s.core.seq = .pumpOnce (.disp .p0)) :
    exec .pumpOnce s = .next (lookupEndpoint (.pumpOnce (.disp .p1)) (.pumpOnce (.disp .p2)) s) := by
  simp only [exec, execPumpOnce, hs]

theorem exec_pumpForever_p0 {s : State} (hs : s.core.seq = .pumpForever (.disp .p0)) :
    exec .pumpForever s = .next (lookupEndpoint (.pumpForever (.disp .p1)) (.pumpForever (.disp .p2)) s) := by
  simp only [exec, execPumpForever, hs]

/-- Settles O23: the three commands run the same lookup, whatever the receive registers hold. -/
theorem lookupKeyIsTheEndpointFieldAlone : Obligations.LookupKeyIsTheEndpointFieldAlone := by
  unfold Obligations.LookupKeyIsTheEndpointFieldAlone
  intro s i onHit hphase
  obtain ⟨onMiss, hne, hexec⟩ : ∃ onMiss, onMiss ≠ onHit ∧
      ∀ t : State, t.core.seq = s.core.seq → exec i t = .next (lookupEndpoint onHit onMiss t) := by
    rcases hphase with ⟨hs, ⟨a, b, rfl⟩, rfl⟩ | ⟨hs, rfl, rfl⟩ | ⟨hs, rfl, rfl⟩
    · exact ⟨.dispatch .p2, nofun, fun t ht => exec_dispatch_p0 a b (ht.trans hs)⟩
    · exact ⟨.pumpOnce (.disp .p2), nofun, fun t ht => exec_pumpOnce_p0 (ht.trans hs)⟩
    · exact ⟨.pumpForever (.disp .p2), nofun, fun t ht => exec_pumpForever_p0 (ht.trans hs)⟩
  refine ⟨_, hexec s rfl, ?hit, fun g hl => ?handle, fun d h hkey => ⟨_, hexec _ rfl, ?sameChoice, ?sameHandle⟩⟩
  case hit => rw [lookupEndpoint_seq_eq, epOf, ite_eq_left_iff, imp_iff_not hne, not_not]
  case handle => rw [lookupEndpoint_handle, epOf, hl, Option.some_or]
  case sameChoice => rw [lookupEndpoint_seq_eq, lookupEndpoint_seq_eq, epOf, hkey, ← epOf]
  case sameHandle => rw [lookupEndpoint_handle, lookupEndpoint_handle, epOf, hkey, ← epOf]

/-! ### The wait in `P1` (R209, U13) -/

theorem exec_pumpForever_p1 {s : State} (hs : s.core.seq = .pumpForever (.disp .p1)) :
    exec .pumpForever s = .next (takeAnswer nextRound (.pumpForever (.disp .p2)) s) := by
  simp only [exec, execPumpForever, hs]

/-- While an answer is awaited the core's move takes it, whichever command waits. -/
theorem coreMove_awaiting {s : State} (hs : s.core.seq.awaitsAnswer = true) :
    ∃ whenHandled onRefused, coreMove s = .next (takeAnswer whenHandled onRefused s) := by
  unfold Seq.awaitsAnswer at hs
  split at hs
  case h_1 hq => exact ⟨_, _, dispatchPart_dispatch.p1 s hq⟩
  case h_2 hq => exact ⟨_, _, dispatchPart_pumpOnce.p1 s hq⟩
  case h_3 hq => exact ⟨_, _, (coreMove_busy (by rw [CoreState.current, hq])).trans (exec_pumpForever_p1 hq)⟩
  case h_4 => cases hs

/-- Settles O41, by induction on the number of steps: each finds no answer and changes nothing. -/
theorem silentEndpointHoldsTheCore : Obligations.SilentEndpointHoldsTheCore := by
  unfold Obligations.SilentEndpointHoldsTheCore
  intro n s hw hs hans hm
  have hstep : step s = .next s := by
    obtain ⟨whenHandled, onRefused, hmove⟩ := coreMove_awaiting hs
    rw [step_of_moves_nil hw hm, hmove, takeAnswer, hans]
  induction n with
  | zero => rfl
  | succ n ih => rw [run_next hstep, ih]

end Sys2Proof.Machine

/-! SUPPORT. The two pumps: PUMP_ONCE (O24), PUMP_FOREVER without and with the switch `PUMP_STOP_ON_IDLE` (O25, O26), and its
rounds on an empty outbox (O59). Their events are those of the receive part and of the dispatch part. -/
namespace Sys2Proof.Machine

/-! ### The events of PUMP_ONCE (R221, R222) -/

section
variable {s : State}

theorem exec_pumpOnce_v0 (hs : s.core.seq = .pumpOnce (.recv .v0)) :
    exec .pumpOnce s = andThen (readOutboxEmpty s) (fun x =>
      .next (x.2.goto (if x.1 then .ending .pumpOnceIdle else .pumpOnce (.recv .v1)))) := by
  simp only [exec, execPumpOnce, hs]

theorem exec_pumpOnce_v1 (hs : s.core.seq = .pumpOnce (.recv .v1)) :
    exec .pumpOnce s = loadRxData (.pumpOnce (.recv .v2)) s := by simp only [exec, execPumpOnce, hs]

theorem exec_pumpOnce_v2 (hs : s.core.seq = .pumpOnce (.recv .v2)) :
    exec .pumpOnce s = loadRxHeader (.pumpOnce (.recv .v3)) s := by simp only [exec, execPumpOnce, hs]

theorem exec_pumpOnce_v3 (hs : s.core.seq = .pumpOnce (.recv .v3)) :
    exec .pumpOnce s = .next ((s.traced .rx s.rxFrame).goto (.pumpOnce (.disp .p0))) := by
  simp only [exec, execPumpOnce, hs]

theorem exec_pumpOnce_p1 (hs : s.core.seq = .pumpOnce (.disp .p1)) :
    exec .pumpOnce s = .next (takeAnswer (fun t => t.complete .handled none) (.pumpOnce (.disp .p2)) s) := by
  simp only [exec, execPumpOnce, hs]

theorem exec_pumpOnce_p2 (hs : s.core.seq = .pumpOnce (.disp .p2)) :
    exec .pumpOnce s = .next (reportUnknown .pumpOnceUnhandled s) := by simp only [exec, execPumpOnce, hs]

theorem exec_pumpOnce_endingIdle (hs : s.core.seq = .ending .pumpOnceIdle) :
    exec .pumpOnce s = .next (finish .pumpOnceIdle s) := by simp only [exec, execPumpOnce, hs]

theorem exec_pumpOnce_unhandled (hs : s.core.seq = .ending .pumpOnceUnhandled) :
    exec .pumpOnce s = .next (finish .pumpOnceUnhandled s) := by simp only [exec, execPumpOnce, hs]

end

/-- Settles O24: the events of the receive part, then those of the dispatch part. -/
theorem pumpOnceEventsInOrder : Obligations.PumpOnceEventsInOrder := by
  unfold Obligations.PumpOnceEventsInOrder
  intro s hw
  exact ⟨exec_pumpOnce_idle, fun hs => readsOutboxStatus_of_exec hw (exec_pumpOnce_v0 hs),
    fun hs => readsOutboxData_of_exec hw (exec_pumpOnce_v1 hs),
    fun hs => readsOutboxHeader_of_exec hw (exec_pumpOnce_v2 hs), exec_pumpOnce_v3,
    fun hs => looksUpEndpoint_of_exec (exec_pumpOnce_p0 hs),
    fun hs => takesEndpointAnswer_of_exec (exec_pumpOnce_p1 hs) fun _ => rfl, exec_pumpOnce_p2,
    exec_pumpOnce_endingIdle, exec_pumpOnce_unhandled⟩

/-! ### The events of PUMP_FOREVER (R226, R227) -/

theorem pumpIdle_switchOff {p : Params} (h : p.pumpStopOnIdle = false) : pumpIdle p = .pumpForever (.recv .v0) := by
  rw [pumpIdle, h, if_neg Bool.false_ne_true]

theorem pumpIdle_switchOn {p : Params} (h : p.pumpStopOnIdle = true) : pumpIdle p = .ending .pumpForeverIdle := by
  rw [pumpIdle, h, if_pos rfl]

/-- A new round moves the sequencer and shows nothing. -/
theorem nextRound_shows_nothing (t : State) :
    nextRound t = { t with core.seq := .pumpForever (.recv .v0), ports.events := t.ports.events ++ [] } := by
  rw [List.append_nil]
  rfl

section
variable {s : State}

theorem exec_pumpForever_idle (hs : s.core.seq = .idle) :
    exec .pumpForever s = .next (s.accept .pumpForever (.pumpForever (.recv .v0))) := by
  simp only [exec, execPumpForever, hs]

theorem exec_pumpForever_v0 (hs : s.core.seq = .pumpForever (.recv .v0)) :
    exec .pumpForever s = andThen (readOutboxEmpty s) (fun x =>
      .next (x.2.goto (if x.1 then pumpIdle s.params else .pumpForever (.recv .v1)))) := by
  simp only [exec, execPumpForever, hs]

theorem exec_pumpForever_v1 (hs : s.core.seq = .pumpForever (.recv .v1)) :
    exec .pumpForever s = loadRxData (.pumpForever (.recv .v2)) s := by simp only [exec, execPumpForever, hs]

theorem exec_pumpForever_v2 (hs : s.core.seq = .pumpForever (.recv .v2)) :
    exec .pumpForever s = loadRxHeader (.pumpForever (.recv .v3)) s := by simp only [exec, execPumpForever, hs]

theorem exec_pumpForever_v3 (hs : s.core.seq = .pumpForever (.recv .v3)) :
    exec .pumpForever s = .next ((s.traced .rx s.rxFrame).goto (.pumpForever (.disp .p0))) := by
  simp only [exec, execPumpForever, hs]

theorem exec_pumpForever_p2 (hs : s.core.seq = .pumpForever (.disp .p2)) :
    exec .pumpForever s = .next (reportUnknown .pumpForeverUnhandled s) := by simp only [exec, execPumpForever, hs]

theorem exec_pumpForever_endingIdle (hs : s.core.seq = .ending .pumpForeverIdle) :
    exec .pumpForever s = .next (finish .pumpForeverIdle s) := by simp only [exec, execPumpForever, hs]

theorem exec_pumpForever_unhandled (hs : s.core.seq = .ending .pumpForeverUnhandled) :
    exec .pumpForever s = .next (finish .pumpForeverUnhandled s) := by simp only [exec, execPumpForever, hs]

/-- `V0` of PUMP_FOREVER in either form: on an empty outbox the switch alone decides where the sequencer goes. -/
theorem readsOutboxStatus_pumpForever (hw : s.params.wf = true) (hs : s.core.seq = .pumpForever (.recv .v0)) :
    ReadsOutboxStatus .pumpForever s (pumpIdle s.params) (.pumpForever (.recv .v1)) :=
  readsOutboxStatus_of_exec hw (exec_pumpForever_v0 hs)

end

/-- Settles O25: the events of both parts, where an empty outbox and a handled frame begin the next round. -/
theorem pumpForeverEventsInOrder : Obligations.PumpForeverEventsInOrder := by
  unfold Obligations.PumpForeverEventsInOrder
  intro s hw hoff
  exact ⟨exec_pumpForever_idle, fun hs => pumpIdle_switchOff hoff ▸ readsOutboxStatus_pumpForever hw hs,
    fun hs => readsOutboxData_of_exec hw (exec_pumpForever_v1 hs),
    fun hs => readsOutboxHeader_of_exec hw (exec_pumpForever_v2 hs), exec_pumpForever_v3,
    fun hs => looksUpEndpoint_of_exec (exec_pumpForever_p0 hs),
    fun hs => takesEndpointAnswer_of_exec (exec_pumpForever_p1 hs) nextRound_shows_nothing, exec_pumpForever_p2,
    exec_pumpForever_unhandled⟩

/-- Settles O26: with the switch on, `pumpIdle` is the completion with `IDLE`. -/
theorem pumpForeverUnderTheSwitchStopsOnIdle : Obligations.PumpForeverUnderTheSwitchStopsOnIdle := by
  unfold Obligations.PumpForeverUnderTheSwitchStopsOnIdle
  intro s hw hon
  exact ⟨fun hs => pumpIdle_switchOn hon ▸ readsOutboxStatus_pumpForever hw hs, exec_pumpForever_endingIdle⟩

/-! ### Rounds on an empty outbox (R228, R230) -/

/-- One round on an empty outbox: the status is read, and nothing else happens. -/
theorem leads_idleRound {s : State} (hw : s.params.wf = true) (hclosed : s.params.openForm = false)
    (hoff : s.params.pumpStopOnIdle = false) (hm : nextMove s = .core) (hs : s.core.seq = .pumpForever (.recv .v0))
    (hout : s.peer.outQ = []) :
    ∃ t v, Leads 1 s t s.core s.peer [.memRead (regAddr s.params .outboxCtrl) 4 v] := by
  obtain ⟨v, t, hexec, hbit, -, hbecomes⟩ := readsOutboxStatus_pumpForever (s := s.popMove) hw hs
  rw [hbit hclosed, popMove_peer, decide_eq_true hout, if_pos rfl, popMove_params, pumpIdle_switchOff hoff, popMove_core,
    ← hs] at hbecomes
  have hmove : coreMove s.popMove = exec .pumpForever s.popMove :=
    coreMove_busy (by rw [popMove_core, CoreState.current, hs])
  exact ⟨t, _, .of_coreMove hw hm (hmove.trans hexec) hbecomes⟩

/-- `n` rounds on an empty outbox with the core alone moving: `n` reads of `OUTBOX_CTRL`, and nothing else. -/
theorem leads_idleRounds {s : State} (hw : s.params.wf = true) (hclosed : s.params.openForm = false)
    (hoff : s.params.pumpStopOnIdle = false) (hs : s.core.seq = .pumpForever (.recv .v0)) (hout : s.peer.outQ = [])
    (hm : s.ports.moves = []) (n : Nat) :
    ∃ t as, Leads n s t s.core s.peer as ∧ as.length = n ∧
      ∀ e ∈ as, ∃ v, e = .memRead (regAddr s.params .outboxCtrl) 4 v := by
  induction n with
  | zero => exact ⟨s, [], .refl s, rfl, List.forall_mem_nil _⟩
  | succ n ih =>
    obtain ⟨t, as, l, hlen, hreads⟩ := ih
    obtain ⟨u, v, l'⟩ := leads_idleRound (s := t) (l.params ▸ hw) (l.params ▸ hclosed) (l.params ▸ hoff)
      (l.nextMove_alone hm) (by rw [l.core, hs]) (by rw [l.peer, hout])
    rw [l.core, l.peer, l.params] at l'
    exact ⟨u, _, l.trans l', by rw [List.length_append, hlen, List.length_singleton],
      List.forall_mem_append.2 ⟨hreads, List.forall_mem_singleton.2 ⟨v, rfl⟩⟩⟩

/-- Settles O59, by `leads_idleRounds`. -/
theorem pumpForeverIdlesWithoutEnd : Obligations.PumpForeverIdlesWithoutEnd := by
  unfold Obligations.PumpForeverIdlesWithoutEnd
  intro n s hw hclosed hoff hs hout hm
  obtain ⟨t, as, l, hlen, hreads⟩ := leads_idleRounds hw hclosed hoff hs hout hm n
  exact ⟨t, l.run 0, l.core, l.peer, as, l.events, hlen, hreads⟩

end Sys2Proof.Machine

/-! SUPPORT. ADD_EP (45_add_ep.md): its two events (O27), a DISPATCH right behind it (O28), and the order of registrations
(O29). -/
namespace Sys2Proof.Machine

/-! ### A canonical table is determined by its entries (R27, R240) -/

theorem eptLookup_cons (k : Ident) (g : Handle) (t : List (Ident × Handle)) (i : Ident) :
    eptLookup ((k, g) :: t) i = if k = i then some g else eptLookup t i := rfl

theorem mem_of_eptLookup {t : List (Ident × Handle)} {i : Ident} {h : Handle} (hl : eptLookup t i = some h) :
    (i, h) ∈ t := by
  induction t with
  | nil => cases hl
  | cons e rest ih =>
    obtain ⟨k, g⟩ := e
    rw [eptLookup_cons] at hl
    split at hl
    case isTrue hk =>
      cases hl
      exact hk ▸ List.mem_cons_self
    case isFalse => exact List.mem_cons_of_mem _ (ih hl)

/-- The head of a canonical table has its least identifier. -/
theorem head_le_of_eptLookup {k i : Ident} {g h : Handle} {t : List (Ident × Handle)}
    (ht : eptSorted ((k, g) :: t) = true) (hl : eptLookup ((k, g) :: t) i = some h) : k.toNat ≤ i.toNat := by
  obtain ⟨hlt, -⟩ := eptSorted_cons.mp ht
  rcases List.mem_cons.mp (mem_of_eptLookup hl) with heq | hmem
  · cases heq
    exact Nat.le_refl _
  · exact (hlt _ hmem).le

/-- The head's identifier does not occur again. -/
theorem eptLookup_tail_head {k : Ident} {g : Handle} {t : List (Ident × Handle)}
    (ht : eptSorted ((k, g) :: t) = true) : eptLookup t k = none := by
  obtain ⟨hlt, -⟩ := eptSorted_cons.mp ht
  refine Option.eq_none_iff_forall_ne_some.mpr fun h hl => ?_
  exact (hlt _ (mem_of_eptLookup hl)).false

/-- What the tail of a canonical table holds, read off the whole. -/
theorem eptLookup_tail {k : Ident} {g : Handle} {t : List (Ident × Handle)} (ht : eptSorted ((k, g) :: t) = true)
    (i : Ident) : eptLookup t i = if k = i then none else eptLookup ((k, g) :: t) i := by
  split
  case isTrue hk => exact hk ▸ eptLookup_tail_head ht
  case isFalse hk => rw [eptLookup_cons, if_neg hk]

/-- Canonical tables with the same entries are the same list. -/
theorem eq_of_eptLookup_eq {t u : List (Ident × Handle)} (ht : eptSorted t = true) (hu : eptSorted u = true)
    (h : ∀ i, eptLookup t i = eptLookup u i) : t = u := by
  induction t generalizing u with
  | nil =>
    cases u with
    | nil => rfl
    | cons e u => simpa [eptLookup_cons e.1 e.2] using h e.1
  | cons e t ih =>
    obtain ⟨i, a⟩ := e
    cases u with
    | nil => simpa [eptLookup_cons] using h i
    | cons e u =>
      obtain ⟨j, b⟩ := e
      have hi : eptLookup ((i, a) :: t) i = some a := by rw [eptLookup_cons, if_pos rfl]
      have hj : eptLookup ((j, b) :: u) j = some b := by rw [eptLookup_cons, if_pos rfl]
      obtain rfl : i = j := BitVec.eq_of_toNat_eq (Nat.le_antisymm (head_le_of_eptLookup ht ((h j).trans hj))
        (head_le_of_eptLookup hu ((h i).symm.trans hi)))
      obtain rfl : a = b := Option.some.inj (hi.symm.trans ((h i).trans hj))
      have htail : ∀ k, eptLookup t k = eptLookup u k := fun k => by rw [eptLookup_tail ht, eptLookup_tail hu, h]
      rw [ih (eptSorted_tail ht) (eptSorted_tail hu) htail]

/-- Settles O29: the two tables are canonical and hold the same entries. -/
theorem registrationOrderLeavesNoMark : Obligations.RegistrationOrderLeavesNoMark := by
  unfold Obligations.RegistrationOrderLeavesNoMark
  intro table i j a b ht
  have hsorted (k l : Ident) (g h : Handle) : eptSorted (eptInsert (eptInsert table k g) l h) = true :=
    eptSorted_insert l h (eptSorted_insert k g ht)
  refine ⟨fun hne => eq_of_eptLookup_eq (hsorted ..) (hsorted ..) fun k => ?commute,
    eq_of_eptLookup_eq (hsorted ..) (eptSorted_insert i b ht) fun k => ?lastWins⟩
  case commute =>
    simp only [eptLookup_insert]
    by_cases hi : i = k
    · rw [if_pos hi, if_pos hi, if_neg (hi ▸ hne.symm)]
    · rw [if_neg hi, if_neg hi]
  case lastWins =>
    simp only [eptLookup_insert]
    by_cases hi : i = k
    · rw [if_pos hi, if_pos hi]
    · simp only [if_neg hi]

/-! ### The two events of ADD_EP (R236) -/

/-- `A0` done: the entry written, the command complete. -/
def State.registered (i : Ident) (h : Handle) (s : State) : State :=
  State.complete { s with core.ept := eptInsert s.core.ept i h } .done none

theorem exec_addEp_idle {s : State} (i : Ident) (h : Handle) (hs : s.core.seq = .idle) :
    exec (.addEp i h) s = .next (s.accept (.addEp i h) (.addEp i h)) := by simp only [exec, execAddEp, hs]

theorem exec_addEp_a0 {s : State} {i : Ident} {h : Handle} (hs : s.core.seq = .addEp i h) :
    exec (.addEp i h) s = .next (s.registered i h) := by simp only [exec, execAddEp, hs, State.registered]

/-- Phase `P0` of DISPATCH on a table into which the frame's identifier has just been written: the request of that handle
(R203, R204). -/
theorem exec_dispatch_p0_registered {u : State} {table : List (Ident × Handle)} {i : Ident} {h : Handle} (d hd : Word64)
    (hept : u.core.ept = eptInsert table i h) (hs : u.core.seq = .dispatch .p0)
    (hkey : u.core.rxHeader.extractLsb' 0 8 = i) :
    exec (.dispatch d hd) u = .next { u with
      core.seq       := .dispatch .p1
      ports.epReq    := some ⟨h, u.core.rxHeader, u.core.rxData⟩
      ports.epAnswer := none
      ports.events   := u.ports.events ++ [.epCall ⟨h, u.core.rxHeader, u.core.rxData⟩] } := by
  refine (looksUpEndpoint_of_exec (exec_dispatch_p0 d hd hs)).1 h ?_
  rw [hept, hkey, eptLookup_insert, if_pos rfl]

/-- Settles O27: `A0` inserts into the table, which `eptLookup_insert` reads back entry by entry. -/
theorem addEpWritesOneEntry : Obligations.AddEpWritesOneEntry := by
  unfold Obligations.AddEpWritesOneEntry
  intro s i h
  refine ⟨exec_addEp_idle i h, fun hs => ⟨eptInsert s.core.ept i h, exec_addEp_a0 hs, fun j => ?entries,
    fun u d hd hept hp0 hkey => ⟨_, exec_dispatch_p0_registered d hd hept hp0 hkey, rfl, rfl⟩⟩⟩
  case entries => simp only [eptLookup_insert, eq_comm]

/-! ### A DISPATCH right behind an ADD_EP (R86, R237) -/

/-- Behind a word that is taken, the words that follow it are. -/
theorem State.taken.tail {s t : State} {w : PortWord} {ws : List PortWord} (h : s.taken (w :: ws))
    (hp : t.params = s.params) (hb : t.core.booted = (s.core.booted || isBootWord s.params w))
    (hstarted : t.peer.started = s.peer.started) : t.taken ws := by
  intro hstrict
  have hduties := h (hp ▸ hstrict)
  rw [hostDuties, Bool.and_eq_true] at hduties
  rw [hp, hb, hstarted]
  exact hduties.2

/-- With nothing scheduled an idle core takes the word of a well-formed instruction and runs it. -/
theorem step_takes_alone {s : State} {i : Instr} {rest ws : List PortWord} (hw : s.params.wf = true)
    (hm : s.ports.moves = []) (hs : s.core.seq = .idle) (hr : s.ports.requests = encode s.params i :: rest)
    (hi : i.wf s.params = true) (htaken : s.taken (encode s.params i :: ws)) :
    step s = exec i { s with ports.requests := rest } :=
  (step_of_moves_nil hw hm).trans (coreMove_takes hs hr htaken.refusedWord_none (decodePort_encode hi))

/-- Settles O28: acceptance and `A0` of the ADD_EP, acceptance and `P0` of the DISPATCH. -/
theorem dispatchSeesTheLatestRegistration : Obligations.DispatchSeesTheLatestRegistration := by
  unfold Obligations.DispatchSeesTheLatestRegistration
  intro s i h d hd rest hw hfits hkey hs hm hr htaken
  have hwf : (Instr.addEp i h).wf s.params = true := decide_eq_true hfits
  let offered := { s with ports.requests := encode s.params (.dispatch d hd) :: rest }
  let accepted := offered.accept (.addEp i h) (.addEp i h)
  let written := accepted.registered i h
  let asked := acceptDispatch d hd { written with ports.requests := rest }
  have haccept : step s = .next accepted :=
    (step_takes_alone hw hm hs hr hwf htaken).trans (exec_addEp_idle (s := offered) i h hs)
  have hwrite : step accepted = .next written :=
    (step_busy (s := accepted) hw hm rfl).trans (exec_addEp_a0 rfl)
  have hnotBoot : isBootWord s.params (encode s.params (.addEp i h)) = false := by
    rw [isBootWord, decodePort_encode hwf]
  have htaken' : written.taken [encode s.params (.dispatch d hd)] :=
    htaken.tail rfl (by rw [hnotBoot, Bool.or_false]; rfl) rfl
  have haccept' : step written = .next asked :=
    (step_takes_alone (s := written) hw hm rfl rfl rfl htaken').trans (exec_dispatch_idle d hd rfl)
  have hask := (step_busy (s := asked) hw hm rfl).trans (exec_dispatch_p0_registered d hd rfl rfl hkey)
  have hrun := (run_next (n := 3) haccept).trans ((run_next hwrite).trans ((run_next haccept').trans (run_next hask)))
  refine ⟨_, hrun, rfl, rfl, rfl, rfl, ?events⟩
  case events => simp [asked, acceptDispatch, written, State.registered, accepted, offered]

end Sys2Proof.Machine

/-! SUPPORT. The environment (46_peer_model.md): the open form (O35), what the moves of the other agents do and leave alone
(O38, O39, O40), a full inbox (O19), and the order of the outbox (O47). -/

namespace Sys2Proof.Machine

/-! ### The open form (R245) -/

section
variable {s : State} (hw : s.params.wf = true) (hopen : s.params.openForm = true)
include hw hopen

/-- In the open form a 32-bit read that is answered returns the low half of what the responder has put there. -/
theorem busRead32_open {r : Reg} (hwidth : regWidth r = 4) (hread : regReadable r = true) :
    busRead32 (regAddr s.params r) s = .next (CtrlValue.ofWord (s.openValue.extractLsb' 0 32),
      s.openTaken.readDone (regAddr s.params r) 4 ((s.openValue.extractLsb' 0 32).setWidth 64) s.openValue) := by
  rw [busRead32, ← hwidth, resolve_reg hw]
  simp [hopen, hwidth, hread]

theorem exec_read32_open {r : Reg} (hwidth : regWidth r = 4) (hread : regReadable r = true) :
    exec (.read32 (regAddr s.params r)) s = .next
      (s.openTaken.readDone (regAddr s.params r) 4 ((s.openValue.extractLsb' 0 32).setWidth 64) s.openValue) := by
  rw [exec_read32, busRead32_open hw hopen hwidth hread, andThen_next]

theorem exec_read64_open {r : Reg} (hwidth : regWidth r = 8) (hread : regReadable r = true) :
    exec (.read64 (regAddr s.params r)) s = .next
      (s.openTaken.readDone (regAddr s.params r) 8 s.openValue s.openValue) := by
  rw [exec_read64, busRead64_open hw hopen r hwidth hread, andThen_next]

/-- In the open form a write of `CPU_CONTROL` leaves of its value only whether `RUN` was 1. -/
theorem exec_write32_cpuControl_open (v : Word32) :
    exec (.write32 (regAddr s.params .cpuControl) v) s = .next
      { s.emit (.memWrite (regAddr s.params .cpuControl) 4 (v.setWidth 64)) with
        peer.started := s.peer.started || runBit v } := by
  rw [exec_write32, busWrite32_cpuControl hw, hopen]
  rfl

/-- In the open form nothing is known of the inbox pair behind a write. -/
theorem exec_write64_open {r : Reg} (hr : r = .inbox0 ∨ r = .inbox1) (v : Word64) :
    exec (.write64 (regAddr s.params r) v) s = .next (s.emit (.memWrite (regAddr s.params r) 8 v)) := by
  rw [exec_write64]
  rcases hr with rfl | rfl
  · rw [busWrite64_inbox0 hw, hopen]
    rfl
  · rw [busWrite64_inbox1 hw v (fun hclosed => absurd (hopen.symm.trans hclosed) nofun), hopen]
    rfl

end

/-- Settles O35: the value read is `openValue`, the responder's where there is one. -/
theorem openFormReadsWhatTheResponderGives : Obligations.OpenFormReadsWhatTheResponderGives := by
  unfold Obligations.OpenFormReadsWhatTheResponderGives
  intro s hw hopen
  refine ⟨⟨s.openValue, fun y hy => openValue_of_response hy, fun r hr => ?control, fun r hr => ?outbox⟩,
    fun v => exec_write32_cpuControl_open hw hopen v, fun r hr v => ?inbox⟩
  case control =>
    have hreg : regWidth r = 4 ∧ regReadable r = true := by revert r; decide
    exact exec_read32_open hw hopen hreg.1 hreg.2
  case outbox =>
    have hreg : regWidth r = 8 ∧ regReadable r = true := by revert r; decide
    exact exec_read64_open hw hopen hreg.1 hreg.2
  case inbox => exact exec_write64_open hw hopen (by simpa using hr) v

/-! ### A full inbox (R258) -/

/-- Phase `S2` of SEND onto a full inbox has no step in the closed form. -/
theorem exec_send_s2_full {s : State} (d h : Word64) (hw : s.params.wf = true) (hclosed : s.params.openForm = false)
    (hfull : ¬ s.peer.inQ.length < s.params.inboxDepth) (hs : s.core.seq = .send .s2) :
    exec (.send d h) s = .refused .inboxOverflow := by
  simp only [exec, execSend, hs, busWrite64_inbox1_full hw _ hclosed hfull, andThen_refused]

/-- Settles O19: both are the write of `INBOX1` that `busWrite64_inbox1_full` refuses. -/
theorem writeOntoFullInboxIsRefused : Obligations.WriteOntoFullInboxIsRefused := by
  unfold Obligations.WriteOntoFullInboxIsRefused
  intro s d h v hw hclosed hdepth
  have hfull : ¬ s.peer.inQ.length < s.params.inboxDepth := hdepth.not_lt
  exact ⟨exec_send_s2_full d h hw hclosed hfull, busWrite64_inbox1_full hw v hclosed hfull⟩

/-! ### ACCEPT and POST (R252, R253) -/

theorem peerAccept_cons {s : State} {f : Frame} {rest : List Frame} (h : s.peer.inQ = f :: rest) :
    peerAccept s = { s with peer.inQ := rest, peer.delivered := s.peer.delivered ++ [f] } := by
  simp only [peerAccept, h]

theorem peerAccept_nil {s : State} (h : s.peer.inQ = []) : peerAccept s = s := by simp only [peerAccept, h]

theorem peerPost_room {s : State} (f : Frame) (h : s.peer.outQ.length < s.params.outboxDepth) :
    peerPost f s = { s with peer.outQ := s.peer.outQ ++ [f] } := if_pos h

theorem peerPost_full {s : State} (f : Frame) (h : ¬ s.peer.outQ.length < s.params.outboxDepth) :
    peerPost f s = s := if_neg h

/-- Settles O38: ACCEPT on the state with the move taken off the schedule. -/
theorem acceptDeliversTheHeadFrame : Obligations.AcceptDeliversTheHeadFrame := by
  unfold Obligations.AcceptDeliversTheHeadFrame
  intro s hw hm
  have hstep : step s = .next (peerAccept s.popMove) := by rw [step_of_wf hw, hm]; rfl
  refine ⟨fun f rest hin => ?frame, fun hin => ?empty⟩
  case frame => rw [hstep, peerAccept_cons (s := s.popMove) hin]; rfl
  case empty => rw [hstep, peerAccept_nil (s := s.popMove) hin]; rfl

/-- Settles O39: POST on the state with the move taken off the schedule. -/
theorem postAppendsToTheOutbox : Obligations.PostAppendsToTheOutbox := by
  unfold Obligations.PostAppendsToTheOutbox
  intro s f hw hm
  have hstep : step s = .next (peerPost f s.popMove) := by rw [step_of_wf hw, hm]; rfl
  refine ⟨fun hroom => ?room, fun hfull => ?full⟩
  case room => rw [hstep, peerPost_room (s := s.popMove) f hroom]; rfl
  case full => rw [hstep, peerPost_full (s := s.popMove) f hfull]; rfl

/-! ### What the other agents leave alone (R246) -/

/-- From `s` to `t` the core, the parameters, the event log and HOST's words are as they were. -/
def State.SameCoreSide (s t : State) : Prop :=
  t.core = s.core ∧ t.params = s.params ∧ t.ports.events = s.ports.events ∧ t.ports.requests = s.ports.requests

theorem peerAccept_sameCoreSide (s : State) : s.SameCoreSide (peerAccept s) := by
  unfold peerAccept; split <;> exact ⟨rfl, rfl, rfl, rfl⟩

theorem peerPost_sameCoreSide (f : Frame) (s : State) : s.SameCoreSide (peerPost f s) := by
  unfold peerPost; split <;> exact ⟨rfl, rfl, rfl, rfl⟩

theorem endpointAnswer_sameCoreSide (b : Bool) (s : State) : s.SameCoreSide (endpointAnswer b s) := by
  obtain ⟨hp, hc, -, hr, -, he⟩ := endpointAnswer_frame b s
  exact ⟨hc, hp, he, hr⟩

theorem busRespond_sameCoreSide (v : Word64) (s : State) : s.SameCoreSide (busRespond v s) := by
  unfold busRespond; split <;> exact ⟨rfl, rfl, rfl, rfl⟩

theorem peerReset_sameCoreSide (s : State) : s.SameCoreSide (peerReset s) := ⟨rfl, rfl, rfl, rfl⟩

/-- Settles O40: whose move it is, and what that move leaves alone. -/
theorem otherAgentsNeverTouchTheCore : Obligations.OtherAgentsNeverTouchTheCore := by
  unfold Obligations.OtherAgentsNeverTouchTheCore
  intro s t hstep hcore hreset
  obtain ⟨-, ⟨hm, -⟩ | ⟨-, rfl⟩ | ⟨f, -, rfl⟩ | ⟨b, -, rfl⟩ | ⟨v, -, rfl⟩ | ⟨hm, -⟩ | ⟨-, rfl⟩⟩ := step_cases hstep
  · exact absurd hm hcore
  · exact peerAccept_sameCoreSide s.popMove
  · exact peerPost_sameCoreSide f s.popMove
  · exact endpointAnswer_sameCoreSide b s.popMove
  · exact busRespond_sameCoreSide v s.popMove
  · exact absurd hm hreset
  · exact peerReset_sameCoreSide s.popMove

/-! ### The order of the outbox (R256) -/

/-- From `s` to `t` the head leaves the outbox, and the one event is the read of `OUTBOX1` that returned its header. -/
def State.TakesOutboxHead (s t : State) : Prop :=
  ∃ f, s.peer.outQ = f :: t.peer.outQ ∧
    t.ports.events = s.ports.events ++ [.memRead (regAddr s.params .outbox1) 8 f.header]

/-- A 64-bit read leaves the outbox or takes its head; an empty outbox it leaves (R259). -/
theorem busRead64_outbox {a : Nat} {s t : State} {v : Word64} (h : busRead64 a s = .next (v, t)) :
    t.peer.outQ = s.peer.outQ ∨ s.TakesOutboxHead t := by
  obtain ⟨-, -, -, -, -, -, he, hpeer | ⟨hpeer, hclosed, ha⟩⟩ := busRead64_frame h
  · exact .inl (congrArg Mailbox.outQ hpeer)
  · obtain ⟨-, hv⟩ := busRead64_outbox1_inv h ha.symm
    cases hout : s.peer.outQ with
    | nil => left; rw [hpeer, hout]; rfl
    | cons f rest => exact .inr ⟨f, by rw [hpeer, hout]; rfl, by rw [he, ha, hv hclosed, outboxHead_cons hout]⟩

theorem busWrite32_outbox {a : Nat} {v : Word32} {s t : State} (h : busWrite32 a v s = .next t) :
    t.peer.outQ = s.peer.outQ := by
  obtain ⟨-, -, -, hpeer | hpeer⟩ := busWrite32_frame h <;> exact (congrArg Mailbox.outQ hpeer :)

theorem busWrite64_outbox {a : Nat} {v : Word64} {s t : State} (h : busWrite64 a v s = .next t) :
    t.peer.outQ = s.peer.outQ := by
  obtain ⟨-, -, -, hpeer | hpeer | ⟨-, hpeer⟩⟩ := busWrite64_frame h <;> exact (congrArg Mailbox.outQ hpeer :)

/-- Of the events of a command `V2` alone takes from the outbox. -/
theorem CommandEvent.outbox {s t : State} (he : CommandEvent s t) :
    t.peer.outQ = s.peer.outQ ∨ s.TakesOutboxHead t := by
  cases he with
  | v2 u q hs hr =>
    obtain ⟨⟨v, u⟩, hread, hnext⟩ := andThen_eq_next hr
    cases hnext
    exact (busRead64_outbox hread :)
  | b0 u hs hb | b1 u hs hb => exact .inl (busWrite32_outbox hb :)
  | s1 u hs hb | s2 u hs hb => exact .inl (busWrite64_outbox hb :)
  | s3 v u hs hr =>
    obtain ⟨-, -, hpeer, -⟩ := busRead32_frame hr
    left
    split
    · split <;> exact congrArg Mailbox.outQ hpeer
    · exact congrArg Mailbox.outQ hpeer
  | v0 b u q whenEmpty hs hr =>
    obtain ⟨-, -, hpeer, -⟩ := readOutboxEmpty_frame hr
    exact .inl (congrArg Mailbox.outQ hpeer)
  | v1 u q hs hr =>
    obtain ⟨v, -, -, hpeer, -⟩ := loadRxData_frame hr
    exact .inl (congrArg Mailbox.outQ hpeer)
  | p0 onHit onMiss hs => left; unfold lookupEndpoint; split <;> rfl
  | p1 onRefused whenHandled hs =>
    left
    rcases takeAnswer_cases whenHandled onRefused s with ⟨-, ht⟩ | ht | ht <;> rw [ht] <;>
      rcases hs with ⟨-, -, rfl⟩ | ⟨-, -, rfl⟩ | ⟨-, -, rfl⟩ <;> rfl
  | s0 | v3 | p2 | a0 | bootDone | done => exact .inl rfl

/-- A transaction of HOST's own takes from the outbox as the core's does. -/
theorem transaction_outbox {s t : State}
    (hb : (∃ a v, busRead32 a s = .next (v, t)) ∨ (∃ a v, busRead64 a s = .next (v, t)) ∨
      (∃ a v, busWrite32 a v s = .next t) ∨ (∃ a v, busWrite64 a v s = .next t)) :
    t.peer.outQ = s.peer.outQ ∨ s.TakesOutboxHead t := by
  rcases hb with ⟨a, v, hb⟩ | ⟨a, v, hb⟩ | ⟨a, v, hb⟩ | ⟨a, v, hb⟩
  · obtain ⟨-, -, hpeer, -⟩ := busRead32_frame hb
    exact .inl (congrArg Mailbox.outQ hpeer)
  · exact busRead64_outbox hb
  · exact .inl (busWrite32_outbox hb)
  · exact .inl (busWrite64_outbox hb)

theorem peerPost_outbox (f : Frame) (s : State) :
    (peerPost f s).peer.outQ = s.peer.outQ ∨ (peerPost f s).peer.outQ = s.peer.outQ ++ [f] := by
  unfold peerPost
  split
  · exact .inr rfl
  · exact .inl rfl

/-- A step other than PEER's reset leaves the outbox, posts to it, or is the core's and takes its head. -/
theorem OneStep.outbox {s t : State} (ho : OneStep s t) (hreset : nextMove s ≠ .peerReset) :
    t.peer.outQ = s.peer.outQ ∨ (∃ f, nextMove s = .post f ∧ t.peer.outQ = s.peer.outQ ++ [f]) ∨
      (nextMove s = .core ∧ s.TakesOutboxHead t) := by
  cases ho with
  | event _ hm he => exact he.outbox.imp_right fun htakes => .inr ⟨hm, htakes⟩
  | transaction _ w rest hm hs hr hf hb => exact (transaction_outbox hb).imp_right fun htakes => .inr ⟨hm, htakes⟩
  | peerPosts f hm => exact (peerPost_outbox f s.popMove).imp_right fun hpost => .inl ⟨f, hm, hpost⟩
  | peerAccepts hm => left; unfold peerAccept; split <;> rfl
  | endpointAnswers b hm =>
    obtain ⟨-, -, hpeer, -⟩ := endpointAnswer_frame b s.popMove
    exact .inl (congrArg Mailbox.outQ hpeer)
  | responderResponds v hm => left; unfold busRespond; split <;> rfl
  | peerResets hm => exact absurd hm hreset
  | reservedDone | nothing | reserved | acceptance | acceptanceOfSend | acceptanceOfDispatch | coreResets =>
    exact .inl rfl

/-- Settles O47, over what one step can do: only POST appends, only the read of `OUTBOX1` removes. -/
theorem outboxIsFirstInFirstOut : Obligations.OutboxIsFirstInFirstOut := by
  unfold Obligations.OutboxIsFirstInFirstOut
  intro s t hreset hstep
  obtain hkeep | hpost | ⟨hm, f, hout, he⟩ := (oneStep_of_step hstep).2.outbox hreset
  · exact .inl hkeep
  · exact .inr (.inl hpost)
  · exact .inr (.inr ⟨f, hm, hout, he⟩)

end Sys2Proof.Machine

/-! SUPPORT. The two resets (70_reset_and_hazards.md; O3, O4), the words the machine refuses under `strictHost` (O13), and
HOST's duties kept by every step (O50). -/
namespace Sys2Proof.Machine

/-! ### The resets (R320, R322) -/

/-- Settles O3: the core's reset on the state with the move taken off the schedule. -/
theorem coreResetAbandonsTheCommand : Obligations.CoreResetAbandonsTheCommand := by
  unfold Obligations.CoreResetAbandonsTheCommand
  intro s hw hm
  have hstep : step s = .next (coreReset s.popMove) := by rw [step_of_wf hw, hm]; rfl
  exact ⟨_, hstep, rfl, rfl, eptLookup_nil, rfl, rfl, rfl, rfl, rfl, rfl, rfl, rfl⟩

/-- Whatever is drawn for the other bits of `CPU_CONTROL`, `RUN` is 0 (R44). -/
theorem runBit_and_not_runSet (v : Word32) : runBit (v &&& ~~~ runSet) = false := by
  have hset : runSet.getLsbD 4 = true := runBit_runSet
  simp [runBit, hset]

/-- Settles O4: PEER's reset on the state with the move taken off the schedule. -/
theorem peerResetLeavesTheCore : Obligations.PeerResetLeavesTheCore := by
  unfold Obligations.PeerResetLeavesTheCore
  intro s hw hm
  have hstep : step s = .next (peerReset s.popMove) := by rw [step_of_wf hw, hm]; rfl
  exact ⟨_, hstep, runBit_and_not_runSet _, rfl, rfl, rfl, rfl, rfl, rfl, rfl, rfl, rfl, rfl, rfl⟩

/-! ### Why a word is refused (R349) -/

/-- Under the switch the machine refuses exactly what HOST must not offer. -/
theorem refusedWord_on {s : State} (h : s.params.strictHost = true) (w : PortWord) :
    refusedWord s w = hostMisuse s.params s.core.booted s.peer.started w := if_pos h

section
variable {p : Params} {booted started : Bool}

theorem hostMisuse_bus (n : Nat) : hostMisuse p booted started (.bus n) = some .hostOnRegisters := rfl

theorem hostMisuse_reservedOpcode {c : BitVec 132} (h : cmdOp c = 0x0 ∨ 0x8 ≤ (cmdOp c).toNat) :
    hostMisuse p booted started (.cmd c) = some (.reservedCommand (cmdOp c)) := by
  have hd : decodeCmd p c = .error (.reservedOpcode (cmdOp c)) := decodeCmd_reserved.mpr ⟨rfl, h⟩
  simp only [hostMisuse, hd]

theorem hostMisuse_notCanonical {c : BitVec 132} {i : Instr} (hd : decodeCmd p c = .ok i)
    (hne : encode p i ≠ .cmd c) : hostMisuse p booted started (.cmd c) = some .reservedOperandBits := by
  simp only [hostMisuse, hd, if_pos hne]

theorem hostMisuse_secondBoot (h : booted = true ∨ started = true) :
    hostMisuse p booted started (encode p .boot) = some .secondBoot := by
  simp only [encode, hostMisuse, decodeCmd_boot]
  simp [h]

/-- Before BOOT, the word of any command but BOOT and ADD_EP. -/
theorem hostMisuse_traffic {i : Instr} (hi : i.wf p = true) (hop : commandOp i ≠ none)
    (hboot : commandOp i ≠ some 0x1) (hadd : commandOp i ≠ some 0x7) :
    hostMisuse p false started (encode p i) = some .beforeBoot := by
  have hd := decodePort_encode hi
  cases i
  case boot => exact absurd rfl hboot
  case addEp => exact absurd rfl hadd
  case read32 | write32 | read64 | write64 => exact absurd rfl hop
  all_goals
    simp only [encode, decodePort] at hd
    simp only [encode, hostMisuse, hd]
    simp

end

/-- Settles O13: the idle core refuses the word by the name `hostMisuse` gives. -/
theorem misuseIsRefusedUnderTheSwitch : Obligations.MisuseIsRefusedUnderTheSwitch := by
  unfold Obligations.MisuseIsRefusedUnderTheSwitch
  intro s w rest hw hstrict hm hs hr
  have hrefuse {e : Refusal} (h : hostMisuse s.params s.core.booted s.peer.started w = some e) :
      step s = .refused e := by
    rw [step_eq_coreMove hw hm]
    exact coreMove_refuses (s := s.popMove) hs hr ((refusedWord_on hstrict w).trans h)
  refine ⟨?bus, ?reserved, ?operandBits, ?secondBoot, fun hb htraffic => ?beforeBoot⟩
  case bus => rintro n rfl; exact hrefuse (hostMisuse_bus n)
  case reserved => rintro c rfl hop; exact hrefuse (hostMisuse_reservedOpcode hop)
  case operandBits => rintro c i rfl hd hne; exact hrefuse (hostMisuse_notCanonical hd hne)
  case secondBoot => rintro rfl h; exact hrefuse (hostMisuse_secondBoot h)
  case beforeBoot =>
    rw [hb] at hrefuse
    obtain rfl | rfl | rfl | ⟨d, h, rfl | rfl⟩ := htraffic <;>
      exact hrefuse (hostMisuse_traffic rfl nofun (by simp [commandOp]) (by simp [commandOp]))

/-! ### The command in progress, by its opcode (R325, R330) -/

/-- An operation HOST may have in progress: BOOT before BOOT has completed, any other but ADD_EP after it. -/
def OpOrdered (op : Option (BitVec 4)) (booted : Bool) : Prop :=
  (op = some 0x1 → booted = false) ∧ (op ≠ none → op ≠ some 0x1 → op ≠ some 0x7 → booted = true)

theorem OpOrdered.idle (booted : Bool) : OpOrdered none booted := ⟨nofun, fun h => absurd rfl h⟩

/-- A command HOST may offer is one it may have in progress. -/
theorem opOrdered_of_hostMisuse_none {p : Params} {booted started : Bool} {w : PortWord} {i : Instr}
    (hm : hostMisuse p booted started w = none) (hd : decodePort p w = .ok i) : OpOrdered (commandOp i) booted := by
  obtain ⟨hboot, hother, -⟩ := hostMisuse_none hm hd
  exact ⟨fun h => (hboot h).1, fun _ => hother⟩

/-- `CoreState.ordered` speaks of the operation alone, but for the reserved commands it excludes. -/
theorem CoreState.ordered_iff (c : CoreState) :
    c.ordered = true ↔ (∀ op, c.seq ≠ .ending (.reserved op)) ∧ OpOrdered c.seq.op c.booted := by
  cases hc : c.current with
  | none =>
    rcases current_none hc with hs | ⟨op, hs⟩
    · simp [CoreState.ordered, hc, hs, Seq.op, OpOrdered.idle]
    · simp [CoreState.ordered, hc, hs]
  | some i =>
    have hres : ∀ op, c.seq ≠ .ending (.reserved op) := fun op hs => by
      simp [CoreState.current, CoreState.endingInstr, hs] at hc
    have hcmd := CoreState.commandOp_of_current hc
    rw [CoreState.op_of_current hc]
    cases i <;> simp_all [CoreState.ordered, OpOrdered, commandOp]

theorem CoreState.ordered_of_idle {c : CoreState} (h : c.seq = .idle) : c.ordered = true := by
  simp [CoreState.ordered_iff, h, Seq.op, OpOrdered.idle]

/-- No event leads to the first phase of BOOT or to the completion of a reserved command: those follow acceptance. -/
theorem Seq.not_accepted_of_mem_successors {q q' : Seq} (h : q' ∈ q.successors) :
    q' ≠ .boot .b0 ∧ ∀ op, q' ≠ .ending (.reserved op) := by
  unfold successors at h
  split at h <;> simp only [List.mem_cons, List.not_mem_nil, or_false] at h
  all_goals rcases h with rfl | rfl | rfl <;> simp

/-- An event stays in its operation with `booted` as it was, or ends it. -/
theorem CommandEvent.keepsOrdered {s t : State} (he : CommandEvent s t) (h : s.core.ordered = true) :
    t.core.ordered = true := by
  rcases he.seq_mem_successors with hq | ⟨-, -, rfl⟩
  · rcases Seq.op_of_mem_successors hq with hidle | hop
    · exact CoreState.ordered_of_idle hidle
    rcases he.frame.booted with hb | ⟨-, hs⟩
    · obtain ⟨-, hord⟩ := s.core.ordered_iff.mp h
      rw [← hop, ← hb] at hord
      exact t.core.ordered_iff.mpr ⟨(Seq.not_accepted_of_mem_successors hq).2, hord⟩
    · rw [hs] at hq
      exact CoreState.ordered_of_idle (List.mem_singleton.mp hq)
  · exact h

/-! ### HOST's duties, kept (R349) -/

/-- What a step does to the parts of the state that HOST's duties speak of: `OneStep` with its cases grouped by that. -/
inductive DutyStep (s t : State) : Prop
  | event (he : CommandEvent s.popMove t)
  | accepts (w : PortWord) (rest : List PortWord) (i : Instr) (hs : s.core.seq = .idle)
      (hr : s.ports.requests = w :: rest) (hf : refusedWord s w = none) (hd : decodePort s.params w = .ok i)
      (hp : t.params = s.params) (hb : t.core.booted = s.core.booted) (hop : t.core.seq.op = commandOp i)
      (hn : ∀ e, t.core.seq ≠ .ending e) (hpeer : t.peer = s.peer) (hreq : t.ports.requests = s.ports.requests.tail)
  | takesMisuse (w : PortWord) (rest : List PortWord) (hs : s.core.seq = .idle) (hr : s.ports.requests = w :: rest)
      (hf : refusedWord s w = none) (hm : hostMisuse s.params s.core.booted s.peer.started w ≠ none)
  | completesReserved (op : BitVec 4) (hs : s.core.seq = .ending (.reserved op)) (hq : t.core.seq = .idle)
  | resetsCore (hm : nextMove s = .coreReset) (hq : t.core.seq = .idle)
  | leavesCore (hp : t.params = s.params) (hc : t.core = s.core) (hreq : t.ports.requests = s.ports.requests)
      (hst : t.peer.started = s.peer.started ∨ t.peer.started = false)

theorem OneStep.dutyStep {s t : State} (ho : OneStep s t) : DutyStep s t := by
  cases ho with
  | event _ hm he => exact .event he
  | reservedDone op hm hs => exact .completesReserved op hs rfl
  | nothing hm hs hr => exact .leavesCore rfl rfl rfl (.inl rfl)
  | reserved op w rest hm hs hr hf hd => exact .takesMisuse w rest hs hr hf (hostMisuse_reserved hd)
  | acceptance i q w rest hm hs hr hf hd hq =>
    exact .accepts w rest i hs hr hf hd rfl rfl hq.op hq.noEnding rfl rfl
  | acceptanceOfSend d g w rest hm hs hr hf hd => exact .accepts w rest _ hs hr hf hd rfl rfl rfl nofun rfl rfl
  | acceptanceOfDispatch d g w rest hm hs hr hf hd => exact .accepts w rest _ hs hr hf hd rfl rfl rfl nofun rfl rfl
  | transaction _ n rest hm hs hr hf hb => exact .takesMisuse (.bus n) rest hs hr hf nofun
  | peerAccepts hm => unfold peerAccept; split <;> exact .leavesCore rfl rfl rfl (.inl rfl)
  | peerPosts f hm => unfold peerPost; split <;> exact .leavesCore rfl rfl rfl (.inl rfl)
  | endpointAnswers b hm => unfold endpointAnswer; split <;> exact .leavesCore rfl rfl rfl (.inl rfl)
  | responderResponds v hm => unfold busRespond; split <;> exact .leavesCore rfl rfl rfl (.inl rfl)
  | coreResets hm => exact .resetsCore hm rfl
  | peerResets hm => exact .leavesCore rfl rfl rfl (.inr rfl)

/-- The words an idle core of this state takes are words HOST may offer it. -/
def State.TakesAllowedWords (s : State) : Prop :=
  ∀ w rest, s.core.seq = .idle → s.ports.requests = w :: rest → refusedWord s w = none →
    hostMisuse s.params s.core.booted s.peer.started w = none

/-- So they are where HOST keeps its duties. -/
theorem State.WordsAllowed.takesAllowedWords {s : State} (h : s.WordsAllowed) : s.TakesAllowedWords :=
  fun _ _ hs hr _ => (h.head hs hr).1

/-- So they are under the switch, which has every other word refused. -/
theorem State.takesAllowedWords_of_strictHost {s : State} (h : s.params.strictHost = true) : s.TakesAllowedWords :=
  fun w _ _ _ hf => (refusedWord_on h w).symm.trans hf

/-- Whatever moves, the command in progress stays one HOST may have offered. -/
theorem DutyStep.keepsOrdered {s t : State} (hd : DutyStep s t) (htakes : s.TakesAllowedWords)
    (h : s.core.ordered = true) : t.core.ordered = true := by
  cases hd with
  | event he => exact he.keepsOrdered h
  | accepts w rest i hs hr hf hd hp hb hop hn hpeer hreq =>
    refine t.core.ordered_iff.mpr ⟨fun op => hn _, ?_⟩
    rw [hop, hb]
    exact opOrdered_of_hostMisuse_none (htakes w rest hs hr hf) hd
  | takesMisuse w rest hs hr hf hm => exact absurd (htakes w rest hs hr hf) hm
  | completesReserved op hs hq => exact CoreState.ordered_of_idle hq
  | resetsCore hm hq => exact CoreState.ordered_of_idle hq
  | leavesCore hp hc hreq hst => rw [hc]; exact h

/-- HOST's words stay ones it may offer. A reserved command is never in progress: `ordered` excludes it. -/
theorem DutyStep.keepsWordsAllowed {s t : State} (hd : DutyStep s t) (hord : s.core.ordered = true)
    (h : s.WordsAllowed) (hreset : nextMove s ≠ .coreReset) : t.WordsAllowed := by
  cases hd with
  | event he => exact State.WordsAllowed.event (s := s.popMove) h he
  | accepts w rest i hs hr hf hd hp hb hop hn hpeer hreq => exact h.acceptance hs hr hd hp hb hop hpeer hreq
  | takesMisuse w rest hs hr hf hm => exact absurd (h.head hs hr).1 hm
  | completesReserved op hs hq => exact absurd hs ((s.core.ordered_iff.mp hord).1 op)
  | resetsCore hm hq => exact absurd hm hreset
  | leavesCore hp hc hreq hst =>
    unfold State.WordsAllowed at h ⊢
    rw [hp, hc, hreq]
    rcases hst with hst | hst <;> rw [hst]
    · exact h
    · exact hostDuties_unstarted h

/-- No BOOT is taken once the coprocessor is started (R322). -/
theorem DutyStep.takesNoBoot {s t : State} (hd : DutyStep s t) (htakes : s.TakesAllowedWords)
    (hstarted : s.peer.started = true) (hq : t.core.seq = .boot .b0) : s.core.seq = .boot .b0 := by
  cases hd with
  | event he =>
    rcases he.seq_mem_successors with hmem | ⟨-, -, rfl⟩
    · exact absurd hq (Seq.not_accepted_of_mem_successors hmem).1
    · exact hq
  | accepts w rest i hs hr hf hd hp hb hop hn hpeer hreq =>
    obtain ⟨hboot, -⟩ := hostMisuse_none (htakes w rest hs hr hf) hd
    have hi : commandOp i = some 0x1 := by rw [← hop, hq]; rfl
    exact absurd hstarted (by simp [(hboot hi).2])
  | takesMisuse w rest hs hr hf hm => exact absurd (htakes w rest hs hr hf) hm
  | completesReserved op hs hidle => exact absurd (hidle.symm.trans hq) nofun
  | resetsCore hm hidle => exact absurd (hidle.symm.trans hq) nofun
  | leavesCore hp hc hreq hst => rw [← hc]; exact hq

/-- Settles O50: no step takes a word HOST must not offer, since HOST offers none or the switch refuses it. -/
theorem hostDutiesStayMet : Obligations.HostDutiesStayMet := by
  unfold Obligations.HostDutiesStayMet
  intro s t hstep
  have hd : DutyStep s t := (oneStep_of_step hstep).2.dutyStep
  refine ⟨fun ⟨hwords, hord⟩ hreset => ?duties, fun hstrict hord => ?ordered, fun hstrict hstarted hq => ?noBoot⟩
  case duties =>
    have hallowed : s.WordsAllowed := hwords
    exact ⟨hd.keepsWordsAllowed hord hallowed hreset, hd.keepsOrdered hallowed.takesAllowedWords hord⟩
  case ordered => exact hd.keepsOrdered (State.takesAllowedWords_of_strictHost hstrict) hord
  case noBoot => exact hd.takesNoBoot (State.takesAllowedWords_of_strictHost hstrict) hstarted hq

end Sys2Proof.Machine
